-- ==== Sys2Proof/Word.lean ====
section
/-! DEFINITION. The widths of QFS (spec 00_scope.md R11: every quantity is unsigned) and the Color of R165. -/

namespace Sys2Proof

/-- A byte: 8 bits, 0 to 255 (00_scope.md R11). -/
abbrev Byte := BitVec 8

/-- 24 bits: a lattice cell (R85), a serialized color (R86), a diagnostic record (R88). -/
abbrev Word24 := BitVec 24

/-- 32 bits: a word of the transmit queue (R87). -/
abbrev Word32 := BitVec 32

/-- The selector `SEL = ST[2:0] ++ sync ++ seqerr` (30_encoding.md R96). -/
abbrev Sel := BitVec 5

/-- The sequencer state code `ST` (10_state.md R22, 30_encoding.md R89). -/
abbrev StCode := BitVec 3

/-- A Color: "an immutable triple of 8-bit channel intensities (red, green, blue)" (44_color_output.md R165). -/
structure Color where
  r : Byte
  g : Byte
  b : Byte
  deriving DecidableEq, Repr

end Sys2Proof
end

