-- ==== Sys2Proof/Config.lean ====
section
/-! DEFINITION. The implementation parameters of QFS (spec 00_scope.md R8 to R10, R33) and its fixed constants.
The parameters are a record that a State carries (log entry 1): no operation writes it, and a statement over all
states is a statement over all configurations. -/

namespace Sys2Proof

/-- The table of 00_scope.md R9. `width`, `height`, `txqDepth`, `txbufInit` and `outPin` are OPEN; `prevReset` and
`scanOddAsc` carry the spec's defaults; no rule depends on the last six. -/
structure Config where
  /-- `W`, RENDER_WIDTH. -/
  width : Nat
  /-- `H`, RENDER_HEIGHT. -/
  height : Nat
  /-- `PREV_RESET`, the value PREV holds after reset. -/
  prevReset : Byte := 0x00
  /-- `SCAN_ODD_ASC`: true, odd columns ascend (43_render_serializer.md R151, 90_conflicts.md C1). -/
  scanOddAsc : Bool := true
  /-- `TXQ_DEPTH`, the capacity of the transmit queue. -/
  txqDepth : Nat
  /-- `TXBUF_INIT`, the N bytes of the transmit buffer. -/
  txbufInit : List Byte
  /-- `SPI_BITRATE`, in Hz. -/
  spiBitrate : Nat := 8000000
  /-- `SPI_CPOL`. -/
  spiCpol : Bool := true
  /-- `SPI_CPHA`. -/
  spiCpha : Bool := true
  /-- `SPI_MSB_FIRST`. -/
  spiMsbFirst : Bool := true
  /-- `OUT_SYMBOL_RATE`, in Hz. -/
  outSymbolRate : Nat := 800000
  /-- `OUT_PIN`. -/
  outPin : Nat := 0
  deriving DecidableEq, Repr

/-- `HEADER_SIZE = 8`, which is also `PAY_OFF` (R9). -/
abbrev Config.headerSize : Nat := 8

/-- `SEQ_OFF`, the index of the sequence-counter byte (R9). -/
abbrev Config.seqOff : Nat := 6

/-- `RSV_OFF`, the index of the reserved byte (R9). -/
abbrev Config.rsvOff : Nat := 7

/-- `MAGIC`, the six bytes of the frame fingerprint, in order (R9, R81). -/
def Config.magic : List Byte := [0x01, 0x02, 0x04, 0x08, 0x07, 0x05]

/-- `PAD_BITS`, fixed to 0x00 by the spec (R9, R87; 92_eei_decisions.md D10). -/
def Config.padBits : Byte := 0x00

/-- `LED_COUNT = W * H` (R9). -/
def Config.ledCount (c : Config) : Nat := c.width * c.height

/-- `N = HEADER_SIZE + 3 * LED_COUNT`, the length of every buffer (R9). -/
def Config.frameLen (c : Config) : Nat := Config.headerSize + 3 * c.ledCount

/-- What R9 and R10 ask of a configuration: `W >= 1`, `H >= 1`, `TXQ_DEPTH >= 1`, `TXBUF_INIT` of N bytes. -/
abbrev Config.Valid (c : Config) : Prop :=
  1 ≤ c.width ∧ 1 ≤ c.height ∧ 1 ≤ c.txqDepth ∧ c.txbufInit.length = c.frameLen

/-- The configuration of `State.reset`: DESIGN CHOICE (log entry 1), the 4 by 2 lattice of the source's only
example (R10), a queue of 64 words, a transmit buffer of zeros; everything else is R9's default. -/
def Config.default : Config :=
  { width := 4, height := 2, txqDepth := 64, txbufInit := List.replicate 32 0x00 }

end Sys2Proof
end

