-- ==== Sys2Proof/Syntax.lean ====
section
/-! DEFINITION. The operations of QFS: one constructor per row of spec/opcode_table.json (spec 30_encoding.md R90,
R95, R96), and the diagnostic record of R88. -/

namespace Sys2Proof

/-- A diagnostic: the two conditions of 60_exceptions.md R201 and R202 as the inductive type that 30_encoding.md
R88 allows. -/
inductive Diag where
  /-- Frame desynchronization. -/
  | desync
  /-- Sequence discontinuity, with the expected and the actual counter. -/
  | seq (expected actual : Byte)
  deriving DecidableEq, Repr

/-- The 20 rows of the opcode table. The two frame classes carry the fields of the buffer (F_FRAME, R81); no other
operation has an operand (R20). -/
inductive Instr where
  /-- SYNC_FRAME (R90): a buffer that begins with the magic sequence; `px` is its payload, record 0 first. -/
  | syncFrame (seq rsv : Byte) (px : List Color)
  /-- DESYNC_FRAME (R90): any other buffer, all its bytes. -/
  | desyncFrame (bytes : List Byte)
  /-- XCHG (R111). -/
  | xchg
  /-- VALIDATE (R125). -/
  | validate
  /-- MCMP (R122), first part of VALIDATE. -/
  | mcmp
  /-- SEQCHK (R123), second part of VALIDATE. -/
  | seqchk
  /-- DIAG.SEQ (R206), part of SEQCHK. -/
  | diagSeq
  /-- SEQUPD (R124), third part of VALIDATE. -/
  | sequpd
  /-- UNPK1 (R137). -/
  | unpk1
  /-- EMIT1 (R156). -/
  | emit1
  /-- SER (R166), second part of EMIT1. -/
  | ser
  /-- PAD (R168), third part of EMIT1. -/
  | pad
  /-- PUT (R170), fourth part of EMIT1. -/
  | put
  /-- SCANADV (R154), fifth part of EMIT1. -/
  | scanadv
  /-- RESYNC (R186). -/
  | resync
  /-- DIAG.DESYNC (R205), first part of RESYNC. -/
  | diagDesync
  /-- REINIT (R114), second part of RESYNC. -/
  | reinit
  /-- UNPACK (R138): LED_COUNT consecutive UNPK1. -/
  | unpack
  /-- RENDER (R157): LED_COUNT consecutive EMIT1. -/
  | render
  /-- CYCLE (R183): one pass of the main loop. -/
  | cycle
  deriving DecidableEq, Repr

end Sys2Proof
end

