-- ==== Sys2Proof/WellFormed.lean ====
section
/-! DEFINITION. Which operations are well formed under a configuration (spec 30_encoding.md R81, R90, R94). -/

namespace Sys2Proof

/-- A SYNC_FRAME carries exactly LED_COUNT pixel records (R81); a DESYNC_FRAME is N bytes that do not begin with the
magic sequence (R90, R94); the other operations have no operand. -/
def Instr.wellFormed (c : Config) : Instr → Bool
  | .syncFrame _ _ px => px.length == c.ledCount
  | .desyncFrame bs => bs.length == c.frameLen && bs.take 6 != Config.magic
  | .xchg => true
  | .validate => true
  | .mcmp => true
  | .seqchk => true
  | .diagSeq => true
  | .sequpd => true
  | .unpk1 => true
  | .emit1 => true
  | .ser => true
  | .pad => true
  | .put => true
  | .scanadv => true
  | .resync => true
  | .diagDesync => true
  | .reinit => true
  | .unpack => true
  | .render => true
  | .cycle => true

end Sys2Proof
end

