-- ==== Sys2Proof/Decode.lean ====
section
/-! DEFINITION. Formats and tables of spec 30_encoding.md: the header classification (R82, R90), the selector rows
(R95, R96), the decoder, the encoder, the bit layouts of R84 to R88 and the stimulus notation of R97. -/

namespace Sys2Proof

/-- F_PIX: the three bytes of a pixel record, red first (R84). -/
def Color.bytes (k : Color) : List Byte := [k.r, k.g, k.b]

/-- F_CELL: `r ++ g ++ b` (R85). -/
def Color.cell (k : Color) : Word24 := k.r ++ k.g ++ k.b

/-- F_DIAG: `kind ++ expected ++ actual` (R88). -/
def Diag.record : Diag → Word24
  | .desync => (0x00#8) ++ (0x00#8) ++ (0x00#8)
  | .seq e a => (0x01#8) ++ e ++ a

/-- F_HDR: the first eight bytes as one 64-bit value, byte 0 most significant (R82). -/
def hdr64 (bs : List Byte) : BitVec 64 :=
  bs.getD 0 0 ++ bs.getD 1 0 ++ bs.getD 2 0 ++ bs.getD 3 0 ++ bs.getD 4 0 ++ bs.getD 5 0 ++ bs.getD 6 0 ++ bs.getD 7 0

/-- The eight bytes of a header value, byte 0 most significant (R82). -/
def hdrBytes (h : BitVec 64) : List Byte :=
  [h.extractLsb' 56 8, h.extractLsb' 48 8, h.extractLsb' 40 8, h.extractLsb' 32 8,
   h.extractLsb' 24 8, h.extractLsb' 16 8, h.extractLsb' 8 8, h.extractLsb' 0 8]

/-- `match` of the row SYNC_FRAME (R90). -/
def syncMatch : BitVec 64 := 0x0102040807050000

/-- `mask` of the row SYNC_FRAME (R90). -/
def syncMask : BitVec 64 := 0xFFFFFFFFFFFF0000

/-- The frame class of a buffer, by its header alone: true for SYNC_FRAME (R90). -/
def isSyncFrame (bs : List Byte) : Bool := hdr64 bs &&& syncMask == syncMatch

/-- The pixel records of a payload, three bytes each, red first (R84). -/
def pixelsOf : List Byte → List Color
  | r :: g :: b :: rest => { r := r, g := g, b := b } :: pixelsOf rest
  | _ => []

/-- What a decoder is given: the bytes of one buffer (FRAME_HDR64) or one selector (SEL5) (R96). -/
inductive Code where
  | frame (bytes : List Byte)
  | select (sel : Sel)
  deriving DecidableEq, Repr

/-- Why a word is rejected. That the decoder rejects these, and under these names, is a DESIGN CHOICE (log entry 19): the
spec gives neither any behaviour. -/
inductive DecodeError where
  /-- A buffer that is not of N bytes: no exchange delivers one (R94). -/
  | badLength
  /-- A selector whose ST is 5, 6 or 7: no operation executes there (R22, R44). -/
  | unusedState
  deriving DecidableEq, Repr

/-- One SEL5 row of the opcode table: the operation and the selectors `sel` with `sel & mask = pat` (R96). -/
structure SelRow where
  op : Instr
  pat : Sel
  mask : Sel
  deriving DecidableEq, Repr

/-- Whether a row matches a selector (R96(b)). -/
def SelRow.covers (r : SelRow) (sel : Sel) : Bool := sel &&& r.mask == r.pat

/-- The five primary rows: selected by ST alone (R95). -/
def primaryRows : List SelRow :=
  [{ op := .xchg, pat := 0b00000, mask := 0b11100 },
   { op := .validate, pat := 0b00100, mask := 0b11100 },
   { op := .unpk1, pat := 0b01000, mask := 0b11100 },
   { op := .emit1, pat := 0b01100, mask := 0b11100 },
   { op := .resync, pat := 0b10000, mask := 0b11100 }]

/-- The ten rows of sub-operations, in the order they execute (R95). -/
def subRows : List SelRow :=
  [{ op := .mcmp, pat := 0b00100, mask := 0b11100 },
   { op := .seqchk, pat := 0b00110, mask := 0b11110 },
   { op := .diagSeq, pat := 0b00111, mask := 0b11111 },
   { op := .sequpd, pat := 0b00110, mask := 0b11110 },
   { op := .ser, pat := 0b01100, mask := 0b11100 },
   { op := .pad, pat := 0b01100, mask := 0b11100 },
   { op := .put, pat := 0b01100, mask := 0b11100 },
   { op := .scanadv, pat := 0b01100, mask := 0b11100 },
   { op := .diagDesync, pat := 0b10000, mask := 0b11100 },
   { op := .reinit, pat := 0b10000, mask := 0b11100 }]

/-- Every operation whose row matches a selector: the primary operation and the parts that execute inside it. -/
def activeOps (sel : Sel) : List Instr :=
  ((primaryRows ++ subRows).filter fun r => r.covers sel).map SelRow.op

/-- Whether the row of a SEL5 operation matches a selector. The frame classes and the pseudo-operations have no
SEL5 row. -/
def Instr.selectedBy (i : Instr) (sel : Sel) : Bool :=
  (primaryRows ++ subRows).any fun r => r.op == i && r.covers sel

/-- The step for a selector: the primary operation whose row matches (R95, R96). -/
def decodeSel (sel : Sel) : Except DecodeError Instr :=
  match primaryRows.find? fun r => r.covers sel with
  | some r => .ok r.op
  | none => .error .unusedState

/-- The class of a buffer with its fields (R81, R83, R90). -/
def decodeFrame (c : Config) (bs : List Byte) : Except DecodeError Instr :=
  if bs.length = c.frameLen then
    if isSyncFrame bs then
      .ok (.syncFrame (bs.getD Config.seqOff 0) (bs.getD Config.rsvOff 0) (pixelsOf (bs.drop Config.headerSize)))
    else .ok (.desyncFrame bs)
  else .error .badLength

/-- "classify the header by the FRAME_HDR64 rows; step the sequencer by the SEL5 rows" (R96). -/
def decode (c : Config) : Code → Except DecodeError Instr
  | .frame bs => decodeFrame c bs
  | .select sel => decodeSel sel

/-- The bytes of a SYNC_FRAME: magic, sequence counter, reserved byte, pixel records (R81). -/
def frameBytes (seq rsv : Byte) (px : List Color) : List Byte :=
  Config.magic ++ [seq, rsv] ++ px.flatMap Color.bytes

/-- The code of an operation that the decoder reads back: the buffer of a frame, the selector of a primary
operation with its don't-care bits zero. A sub-operation shares its primary's selector and a pseudo-operation has no
code of its own (R95, R96), so they have none. -/
def encode : Instr → Option Code
  | .syncFrame seq rsv px => some (.frame (frameBytes seq rsv px))
  | .desyncFrame bs => some (.frame bs)
  | .xchg => some (.select 0b00000)
  | .validate => some (.select 0b00100)
  | .mcmp => none
  | .seqchk => none
  | .diagSeq => none
  | .sequpd => none
  | .unpk1 => some (.select 0b01000)
  | .emit1 => some (.select 0b01100)
  | .ser => none
  | .pad => none
  | .put => none
  | .scanadv => none
  | .resync => some (.select 0b10000)
  | .diagDesync => none
  | .reinit => none
  | .unpack => none
  | .render => none
  | .cycle => none

/-- The primary operations a pseudo-operation stands for; `sync` is the flag that CYCLE branches on (R95, R138, R157,
R183). Every other operation is one step. -/
def expansion (c : Config) (sync : Bool) : Instr → List Instr
  | .unpack => List.replicate c.ledCount .unpk1
  | .render => List.replicate c.ledCount .emit1
  | .cycle =>
    [.xchg, .validate] ++
      (if sync then List.replicate c.ledCount .unpk1 ++ List.replicate c.ledCount .emit1 else [.resync])
  | i => [i]

/-- The pixel list `fill(r,g,b)` of the notation (R97). -/
def fillPixels (c : Config) (k : Color) : List Color := List.replicate c.ledCount k

/-- The pixel list `xy` of the notation: record i is `(i mod W, i div W, 0)` (R97). DESIGN CHOICE (log entry 17): R97 does
not say what byte a value above 255 becomes, with W or H above 256; here it is the value modulo 256. -/
def xyPixels (c : Config) : List Color :=
  (List.range c.ledCount).map fun i =>
    { r := BitVec.ofNat 8 (i % c.width), g := BitVec.ofNat 8 (i / c.width), b := 0 }

/-- The host's question about one table row: 64 bits are a header HDR (R82) followed by a payload of zeros in the
configuration of reset; 8 bits or fewer are a selector SEL in bits 4..0 (R96). -/
def decodeTableWord (nbits w : Nat) : Option Instr :=
  if nbits = 64 then
    if w < 2 ^ 64 then
      (decode Config.default
        (.frame (hdrBytes (BitVec.ofNat 64 w) ++ List.replicate (3 * Config.default.ledCount) 0))).toOption
    else none
  else if nbits ≤ 8 then
    if w < 32 then (decode Config.default (.select (BitVec.ofNat 5 w))).toOption else none
  else none

end Sys2Proof
end

