-- ==== Sys2Proof/Machine/State.lean ====
section
/-! DEFINITION. The state of QFS as plain data (spec 10_state.md), the reasons a step can stop, and the state after
reset (R40). -/

namespace Sys2Proof.Machine

/-- What an address that a memory does not list reads as: zero. DESIGN CHOICE (log entry 3): the spec leaves the reset
contents of RXBUF and LATTICE unspecified and no rule reads them before they are written (R40, R41). -/
abbrev Memory.unlisted {w : Nat} : BitVec w := 0

/-- One memory space of w-bit elements, sparse: (index, element) pairs. RXBUF and TXBUF are `Memory 8`, which is a
list of Host.Cell; LATTICE is `Memory 24`, indexed by A(x,y) = y*W + x (R35, R38). -/
abbrev Memory (w : Nat) := List (Nat × BitVec w)

/-- The canonical form: indices strictly rise, and no entry equals what an unlisted index reads as. -/
abbrev Memory.wf {w : Nat} (m : Memory w) : Prop :=
  List.Pairwise (fun p q => p.1 < q.1) m ∧ ∀ p ∈ m, p.2 ≠ Memory.unlisted

/-- Every listed index is one of the n elements of the space. -/
abbrev Memory.below {w : Nat} (m : Memory w) (n : Nat) : Prop := ∀ p ∈ m, p.1 < n

/-- S_WAIT, code 0 (R22). -/
abbrev sWait : StCode := 0

/-- S_VALIDATE, code 1 (R22). -/
abbrev sValidate : StCode := 1

/-- S_UNPACK, code 2 (R22). -/
abbrev sUnpack : StCode := 2

/-- S_SCAN, code 3 (R22). -/
abbrev sScan : StCode := 3

/-- S_RESYNC, code 4 (R22). -/
abbrev sResync : StCode := 4

/-- What the environment can observe (00_scope.md R14). -/
inductive Event where
  /-- A buffer was delivered. -/
  | xchg (buffer : List Byte)
  /-- The transport was asked to reinitialize. -/
  | reinit
  /-- A word entered the transmit queue. -/
  | put (word : Word32)
  /-- A diagnostic was emitted. -/
  | diag (d : Diag)
  deriving DecidableEq, Repr

/-- Which agent moves (45_main_cycle.md R181). -/
inductive Turn where
  /-- The sequencer executes its next operation, or is held. -/
  | sequencer
  /-- The upstream controller clocks these bytes into the transport. -/
  | transport (bytes : List Byte)
  /-- The pulse engine takes the word at the head of the transmit queue, if there is one. -/
  | pulse
  deriving DecidableEq, Repr

/-- Everything the spec gives the machine (INVENTORY.md, State), and two fields of the model's own (`turns`, `w24`). -/
structure State where
  /-- The configuration: a parameter, written by no operation (R8, R33). -/
  cfg : Config
  /-- ST, the sequencer state register (R22). -/
  st : StCode
  /-- PREV, the last accepted sequence counter (R21). -/
  prev : Byte
  /-- SYNC, the only flag (R23). -/
  sync : Bool
  /-- CUR (R24). -/
  cur : Byte
  /-- EXP (R24). -/
  exp : Byte
  /-- UX, the unpacker's column (R25). -/
  ux : Nat
  /-- UY, the unpacker's row (R25). -/
  uy : Nat
  /-- UP, the unpacker's index in RXBUF (R25). -/
  up : Nat
  /-- SX, the serializer's column (R26). -/
  sx : Nat
  /-- SY, the serializer's row (R26). -/
  sy : Nat
  /-- COL, the color holding register, r ++ g ++ b (R27). -/
  col : Word24
  /-- The value SER hands to PAD inside one EMIT1 step: the model's own field, no register of the spec (log entry 5). -/
  w24 : Word24
  /-- OW, the output word register (R28). -/
  ow : Word32
  /-- RXBUF, the receive buffer (R36). -/
  rxbuf : Memory 8
  /-- TXBUF, the transmit buffer (R37). -/
  txbuf : Memory 8
  /-- LATTICE, the lattice RAM, word A(x,y) = y*W + x (R38). -/
  lattice : Memory 24
  /-- The transmit queue of the pulse engine, head first (R39(a)). -/
  txq : List Word32
  /-- The diagnostic sink: the F_DIAG records emitted, oldest first (R39(c), R88). -/
  diag : List Word24
  /-- The events so far, oldest first (R14). -/
  trace : List Event
  /-- The bytes the coming exchanges deliver, N at a time: the environment's choice (R112; log entry 4). -/
  upstream : List Byte
  /-- The bytes shifted out to the upstream controller so far (R113), TXBUF's index 0 first in each exchange (log entry 18). -/
  shiftedOut : List Byte
  /-- The words the pulse engine has taken, oldest first (R39(a)). -/
  wire : List Word32
  /-- Which agents move next; when empty, the sequencer (R181; the model's own field, log entry 4). -/
  turns : List Turn
  deriving DecidableEq, Repr

/-- Why the machine has no step. QFS has no fatal condition (R187): these are the stuck states of R44, which no run
from reset reaches. -/
inductive Fault where
  /-- ST is 5, 6 or 7: raised by `step` when the selector decodes to no operation (R44). Safe: the spec gives such a
  state no step. -/
  | stuckState
  /-- An index register lies outside its range: raised by UNPK1, EMIT1, SCANADV and the passes built on them (R44, with
  the ranges of R25 and R26). Safe: the spec gives such a state no step. -/
  | stuckIndex
  deriving DecidableEq, Repr

/-- Why an operation has no meaning in a state. -/
inductive Refusal where
  /-- Raised by an arm of `exec` whose operation has no meaning yet. Safe. -/
  | notModelled (mnemonic : String)
  /-- Raised by every operation when the parameters are no QFS configuration (R10). Safe: there is no such hardware. -/
  | notAConfiguration
  /-- Raised by every operation in a state that does not select it (R95): the sequencer has no such transition (R182).
  Never raised by `step`, which runs what ST selects. Safe. -/
  | notSelected
  deriving DecidableEq, Repr

/-- The outcome of an operation. -/
abbrev Result := Host.Outcome State Fault Refusal

/-- The state after reset of a machine with configuration c whose transmit buffer holds tx (R40). Where R40 says
"unspecified" the value is a DESIGN CHOICE (log entries 2, 3, 5); no bytes are clocked and no turn is scheduled (log
entry 4). -/
def State.afterReset (c : Config) (tx : Memory 8) : State :=
  { cfg := c, st := sWait, prev := c.prevReset, sync := false, cur := 0, exp := 0
    ux := 0, uy := 0, up := 8, sx := 0, sy := 0, col := 0, w24 := 0, ow := 0
    rxbuf := [], txbuf := tx, lattice := []
    txq := [], diag := [], trace := [], upstream := [], shiftedOut := [], wire := [], turns := [] }

/-- The machine right after reset, in the configuration `Config.default`, whose TXBUF_INIT is all zero (R40, R230). -/
def State.reset : State := State.afterReset Config.default []

end Sys2Proof.Machine
end

