-- ==== Sys2Proof/Machine/Ops.lean ====
section
/-! DEFINITION. The named operations over memory, the interfaces and the agents (spec 00_scope.md R13,
40_transport.md, 44_color_output.md R170, 60_exceptions.md R203, R204, R207), on which every meaning is built. -/

namespace Sys2Proof.Machine

/-- The element at index a. -/
def Memory.read {w : Nat} : Memory w → Nat → BitVec w
  | [], _ => Memory.unlisted
  | (k, v) :: m, a => if k = a then v else Memory.read m a

/-- The memory with no entry at index a. -/
def Memory.erase {w : Nat} (m : Memory w) (a : Nat) : Memory w := m.filter fun p => p.1 ≠ a

/-- An entry put in its place by index. -/
def Memory.insert {w : Nat} : Memory w → Nat → BitVec w → Memory w
  | [], a, v => [(a, v)]
  | (k, u) :: m, a, v => if a < k then (a, v) :: (k, u) :: m else (k, u) :: Memory.insert m a v

/-- Write one element, keeping the canonical form. -/
def Memory.write {w : Nat} (m : Memory w) (a : Nat) (v : BitVec w) : Memory w :=
  if v = Memory.unlisted then m.erase a else Memory.insert (m.erase a) a v

/-- The memory that holds a list of elements from index a on and nothing else. -/
def Memory.ofList {w : Nat} (a : Nat) : List (BitVec w) → Memory w
  | [] => []
  | v :: vs => if v = Memory.unlisted then Memory.ofList (a + 1) vs else (a, v) :: Memory.ofList (a + 1) vs

/-- The n elements from index a on. -/
def Memory.slice {w : Nat} (m : Memory w) (a n : Nat) : List (BitVec w) := (List.range' a n).map (Memory.read m)

/-- The reset state of any configuration: TXBUF holds TXBUF_INIT (R37, R40). -/
def State.resetWith (c : Config) : State := State.afterReset c (Memory.ofList 0 c.txbufInit)

/-- One more event of the trace (R14). -/
def State.event (s : State) (e : Event) : State := { s with trace := s.trace ++ [e] }

/-- `Emit`: append one record to the diagnostic stream; never blocks (60_exceptions.md R207). -/
def State.emit (s : State) (d : Diag) : State := { s.event (.diag d) with diag := s.diag ++ [d.record] }

/-- Taking a condition, the analogue of an exception entry: nothing is saved. A desynchronization sends control to
S_RESYNC (R203); a sequence discontinuity is one record, and the step goes on (R204). -/
def State.raise (s : State) : Diag → State
  | .desync => { s with st := sResync }
  | .seq e a => s.emit (.seq e a)

/-- The return from a desynchronization: the transition from S_RESYNC to S_WAIT (R203). -/
def State.returnFromDesync (s : State) : State := { s with st := sWait }

/-- Whether the transport has N bytes for the next exchange (R111). -/
def State.exchangeReady (s : State) : Bool := s.cfg.frameLen ≤ s.upstream.length

/-- `Xchg()` and what XCHG does with its buffer: N bytes replace all of RXBUF while TXBUF is shifted out, and control
goes to S_VALIDATE (40_transport.md R111, R113). DESIGN CHOICE (log entry 18): the bytes of TXBUF leave with index 0
first and index N-1 last; the spec orders only the received bytes. -/
def State.exchange (s : State) : State :=
  { s with
    rxbuf := Memory.ofList 0 (s.upstream.take s.cfg.frameLen)
    upstream := s.upstream.drop s.cfg.frameLen
    shiftedOut := s.shiftedOut ++ Memory.slice s.txbuf 0 s.cfg.frameLen
    trace := s.trace ++ [.xchg (s.upstream.take s.cfg.frameLen)]
    st := sValidate }

/-- `Reinit()`: one event and no change of any QFS state (40_transport.md R114). -/
def State.reinitTransport (s : State) : State := s.event .reinit

/-- Whether the transmit queue is full (R39(a)). -/
def State.txqFull (s : State) : Bool := s.cfg.txqDepth ≤ s.txq.length

/-- `TxqPut(w)` when the queue has room: the word goes to the tail (44_color_output.md R170). -/
def State.txqPut (s : State) (w : Word32) : State := { s.event (.put w) with txq := s.txq ++ [w] }

/-- The pulse engine takes the word at the head of the queue, if there is one (R39(a), R171). -/
def State.pulseTake (s : State) : State :=
  match s.txq with
  | [] => s
  | w :: q => { s with txq := q, wire := s.wire ++ [w] }

/-- The upstream controller clocks bytes into the transport (R112, R113). -/
def State.clockIn (s : State) (bs : List Byte) : State := { s with upstream := s.upstream ++ bs }

/-- What every operation asks of the state: a QFS configuration (R10), and that the state selects it (R95). -/
def whenSelected (selected : Bool) (s : State) (body : State → Result) : Result :=
  if s.cfg.Valid then if selected then body s else .refused .notSelected else .refused .notAConfiguration

/-- One operation after another. -/
def andThen (r : Result) (f : State → Result) : Result :=
  match r with
  | .next s => f s
  | .fault e => .fault e
  | .refused e => .refused e

/-- One turn of one agent: the sequencer executes `core`, or an environment agent acts (45_main_cycle.md R181). -/
def agentTurn (core : State → Result) (s : State) : Result :=
  match s.turns with
  | [] => core s
  | .sequencer :: ts => core { s with turns := ts }
  | .transport bs :: ts => .next ({ s with turns := ts }.clockIn bs)
  | .pulse :: ts => .next { s with turns := ts }.pulseTake

/-- At most n turns, in which the sequencer executes `op`, for as long as ST is `code`. -/
def phase (code : StCode) (op : State → Result) : Nat → State → Result
  | 0, s => .next s
  | n + 1, s => if s.st = code then andThen (agentTurn op s) (phase code op n) else .next s

/-- The turns of one phase of a pseudo-operation: enough for LED_COUNT steps and every scheduled turn. It ends when
control leaves `code`, or with the core held (R138, R157). -/
def runPhase (code : StCode) (op : State → Result) (s : State) : Result :=
  phase code op (s.cfg.ledCount + s.turns.length) s

end Sys2Proof.Machine
end

