-- ==== Sys2Proof/Machine/Operands.lean ====
section
/-! DEFINITION. What the operations read and compute from (spec 30_encoding.md R83 to R87, 41_frame_validator.md R121,
42_lattice_unpack.md R136, 43_render_serializer.md R150 to R153, 44_color_output.md R166, R168). -/

namespace Sys2Proof.Machine

/-- `RXBUF[k]`. -/
def State.rxByte (s : State) (k : Nat) : Byte := Memory.read s.rxbuf k

/-- `RXBUF[0..N-1]`: the buffer of the current cycle (R36). -/
def State.rxFrame (s : State) : List Byte := Memory.slice s.rxbuf 0 s.cfg.frameLen

/-- The magic predicate of R121: the first six bytes equal the magic sequence. -/
def magicOk (b : List Byte) : Bool := b.take 6 == Config.magic

/-- The pixel record at index p of RXBUF, `r ++ g ++ b` (R84, R137). -/
def State.pixelAt (s : State) (p : Nat) : Word24 := s.rxByte p ++ s.rxByte (p + 1) ++ s.rxByte (p + 2)

/-- The word address of the cell (x, y): `A(x, y) = y*W + x` (R38). -/
def cellAddr (c : Config) (x y : Nat) : Nat := y * c.width + x

/-- `LATTICE[x][y]` (R38). -/
def State.cell (s : State) (x y : Nat) : Word24 := Memory.read s.lattice (cellAddr s.cfg x y)

/-- `asc(x)`: whether column x is scanned upward (R151). -/
def asc (c : Config) (x : Nat) : Bool := if c.scanOddAsc then x % 2 == 1 else x % 2 == 0

/-- `ystart(x)` (R152). -/
def yStart (c : Config) (x : Nat) : Nat := if asc c x then 0 else c.height - 1

/-- `yend(x)` (R152). -/
def yEnd (c : Config) (x : Nat) : Nat := if asc c x then c.height - 1 else 0

/-- `ser`: red and green exchange places (R166). -/
def ser (v : Word24) : Word24 := v.extractLsb' 8 8 ++ v.extractLsb' 16 8 ++ v.extractLsb' 0 8

/-- `pad`: the color word in the top 24 bits, PAD_BITS below (R168). -/
def pad (v : Word24) : Word32 := (v.setWidth 32 <<< 8) ||| Config.padBits.setWidth 32

/-- Whether the unpacker's indices are in the ranges of R25; outside them there is no step (R44). -/
def State.unpackIndexOk (s : State) : Bool :=
  s.ux < s.cfg.width && s.uy < s.cfg.height && 8 ≤ s.up && s.up + 3 ≤ s.cfg.frameLen && (s.up - 8) % 3 == 0

/-- Whether the serializer's indices are in the ranges of R26; outside them there is no step (R44). -/
def State.scanIndexOk (s : State) : Bool := s.sx < s.cfg.width && s.sy < s.cfg.height

end Sys2Proof.Machine
end

