-- ==== Sys2Proof/Machine/Flags.lean ====
section
/-! DEFINITION. The one flag SYNC, the combinational condition SEQERR, and the selector built from them (spec
10_state.md R23, 30_encoding.md R96). -/

namespace Sys2Proof.Machine

/-- The value MCMP computes from RXBUF[0..5] (R96, R122). -/
def State.syncNow (s : State) : Bool := magicOk (Memory.slice s.rxbuf 0 6)

/-- `(PREV + 1) mod 256` (R123). -/
def State.expected (s : State) : Byte := s.prev + 1

/-- `seqerr` of the selector: `RXBUF[6] != (PREV + 1) mod 256` (R96). -/
def State.seqerrNow (s : State) : Bool := s.rxByte Config.seqOff != s.expected

/-- `SEL = ST[2:0] ++ sync ++ seqerr` (R96). -/
def State.sel (s : State) : Sel := s.st ++ BitVec.ofBool s.syncNow ++ BitVec.ofBool s.seqerrNow

/-- Whether the state selects a SEL5 operation by its row (R95, R96). -/
def State.selects (s : State) (i : Instr) : Bool := i.selectedBy s.sel

end Sys2Proof.Machine
end

