-- ==== Sys2Proof/Machine/Color.lean ====
section
/-! DEFINITION. The channel reorder and the output sequencer: SER, PAD, PUT (spec 44_color_output.md). -/

namespace Sys2Proof.Machine

/-- `w24 <- ser(COL)` (R166). -/
def State.serialize (s : State) : State := { s with w24 := ser s.col }

/-- `OW <- pad(w24)` (R168). -/
def State.align (s : State) : State := { s with ow := pad s.w24 }

/-- `TxqPut(OW)` with room in the queue (R170). -/
def State.putWord (s : State) : State := s.txqPut s.ow

/-- SER (R166). -/
def execSer (s : State) : Result := whenSelected (s.selects .ser) s fun s => .next s.serialize

/-- PAD (R168). -/
def execPad (s : State) : Result := whenSelected (s.selects .pad) s fun s => .next s.align

/-- PUT (R170): while the queue is full it waits, with no change (R171). -/
def execPut (s : State) : Result :=
  whenSelected (s.selects .put) s fun s => if s.txqFull then .next s else .next s.putWord

end Sys2Proof.Machine
end

