-- ==== Sys2Proof/Machine/Render.lean ====
section
/-! DEFINITION. The serpentine serializer: SCANADV, EMIT1, RENDER (spec 43_render_serializer.md). -/

namespace Sys2Proof.Machine

/-- `COL <- LATTICE[SX][SY]` (R156). -/
def State.loadCell (s : State) : State := { s with col := s.cell s.sx s.sy }

/-- The next cell of the scan, or the end of the pass (R154). -/
def State.advanceScan (s : State) : State :=
  if s.sy ≠ yEnd s.cfg s.sx then { s with sy := if asc s.cfg s.sx then s.sy + 1 else s.sy - 1 }
  else if s.sx ≠ 0 then { s with sx := s.sx - 1, sy := yStart s.cfg (s.sx - 1) }
  else { s with st := sWait }

/-- The five parts of EMIT1 in order (R156). -/
def State.emitPixel (s : State) : State := s.loadCell.serialize.align.putWord.advanceScan

/-- The step of S_SCAN: one pixel, or no change while the queue is full (R156, R171); with an index out of range there
is no step (R44). -/
def stepEmit1 (s : State) : Result :=
  if s.scanIndexOk then if s.txqFull then .next s else .next s.emitPixel else .fault .stuckIndex

/-- SCANADV (R154). -/
def execScanadv (s : State) : Result :=
  whenSelected (s.selects .scanadv) s fun s => if s.scanIndexOk then .next s.advanceScan else .fault .stuckIndex

/-- EMIT1 (R156). -/
def execEmit1 (s : State) : Result := whenSelected (s.selects .emit1) s stepEmit1

/-- RENDER (R157): the EMIT1 steps from here to the end of the pass, LED_COUNT of them from its start, with the turns
scheduled between them. -/
def execRender (s : State) : Result := whenSelected (s.st == sScan) s (runPhase sScan stepEmit1)

end Sys2Proof.Machine
end

