-- ==== Sys2Proof/Machine/Transport.lean ====
section
/-! DEFINITION. The transport interface: XCHG and REINIT (spec 40_transport.md). -/

namespace Sys2Proof.Machine

/-- The step of S_WAIT: the exchange, or no change while the transport has not completed one (R111, R241). -/
def stepXchg (s : State) : Result := if s.exchangeReady then .next s.exchange else .next s

/-- XCHG (R111). -/
def execXchg (s : State) : Result := whenSelected (s.selects .xchg) s stepXchg

/-- REINIT (R114). -/
def execReinit (s : State) : Result := whenSelected (s.selects .reinit) s fun s => .next s.reinitTransport

end Sys2Proof.Machine
end

