-- ==== Sys2Proof/Machine/Unpack.lean ====
section
/-! DEFINITION. The lattice unpacker: UNPK1 and UNPACK (spec 42_lattice_unpack.md). -/

namespace Sys2Proof.Machine

/-- `COL <- RXBUF[UP] ++ RXBUF[UP+1] ++ RXBUF[UP+2]`, `LATTICE[UX][UY] <- COL`, `UP <- UP + 3` (R137). -/
def State.storeRecord (s : State) : State :=
  { s with
    col := s.pixelAt s.up
    lattice := Memory.write s.lattice (cellAddr s.cfg s.ux s.uy) (s.pixelAt s.up)
    up := s.up + 3 }

/-- `SX <- W - 1`, `SY <- ystart(W - 1)`, `ST <- S_SCAN` (R137, R152). -/
def State.startScan (s : State) : State :=
  { s with sx := s.cfg.width - 1, sy := yStart s.cfg (s.cfg.width - 1), st := sScan }

/-- The carry of UX into UY and the end of the pass (R137). -/
def State.advanceUnpack (s : State) : State :=
  if s.ux + 1 = s.cfg.width then
    if s.uy + 1 = s.cfg.height then { s with ux := 0 }.startScan else { s with ux := 0, uy := s.uy + 1 }
  else { s with ux := s.ux + 1 }

/-- The step of S_UNPACK (R137); with an index out of range there is no step (R44). -/
def stepUnpk1 (s : State) : Result :=
  if s.unpackIndexOk then .next s.storeRecord.advanceUnpack else .fault .stuckIndex

/-- UNPK1 (R137). -/
def execUnpk1 (s : State) : Result := whenSelected (s.selects .unpk1) s stepUnpk1

/-- UNPACK (R138): the UNPK1 steps from here to the end of the pass, LED_COUNT of them from its start. -/
def execUnpack (s : State) : Result := whenSelected (s.st == sUnpack) s (runPhase sUnpack stepUnpk1)

end Sys2Proof.Machine
end

