-- ==== Sys2Proof/Machine/Validator.lean ====
section
/-! DEFINITION. The frame validator: MCMP, SEQCHK, DIAG.SEQ, SEQUPD, VALIDATE (spec 41_frame_validator.md, 60_exceptions.md R206). -/

namespace Sys2Proof.Machine

/-- `SYNC <- 1 if magic_ok(RXBUF) else 0` (R122). -/
def State.compareMagic (s : State) : State := { s with sync := s.syncNow }

/-- `CUR <- RXBUF[6]`, `EXP <- (PREV + 1) mod 256` (R123). -/
def State.loadSequence (s : State) : State := { s with cur := s.rxByte Config.seqOff, exp := s.expected }

/-- One record with EXP and CUR (R206). -/
def State.reportSequence (s : State) : State := s.raise (.seq s.exp s.cur)

/-- SEQCHK's three lines: load, compare, report a difference (R123). -/
def State.checkSequence (s : State) : State :=
  if s.loadSequence.cur ≠ s.loadSequence.exp then s.loadSequence.reportSequence else s.loadSequence

/-- `PREV <- CUR` (R124). -/
def State.acceptSequence (s : State) : State := { s with prev := s.cur }

/-- `UX <- 0`, `UY <- 0`, `UP <- 8`, `ST <- S_UNPACK` (R125). -/
def State.startUnpack (s : State) : State := { s with ux := 0, uy := 0, up := 8, st := sUnpack }

/-- The VALIDATE step: compare; on a match check and accept the sequence counter and start the unpack pass, else
raise the desynchronization (R125, R184). -/
def State.validated (s : State) : State :=
  if s.compareMagic.sync then s.compareMagic.checkSequence.acceptSequence.startUnpack
  else s.compareMagic.raise .desync

/-- The step of S_VALIDATE: never blocks (R125). -/
def stepValidate (s : State) : Result := .next s.validated

/-- MCMP (R122). -/
def execMcmp (s : State) : Result := whenSelected (s.selects .mcmp) s fun s => .next s.compareMagic

/-- SEQCHK (R123); it executes only if SYNC = 1 (R95). -/
def execSeqchk (s : State) : Result :=
  whenSelected (s.selects .seqchk && s.sync) s fun s => .next s.checkSequence

/-- DIAG.SEQ (R206); it executes iff SYNC = 1 and CUR != EXP. -/
def execDiagSeq (s : State) : Result :=
  whenSelected (s.selects .diagSeq && s.sync && s.cur != s.exp) s fun s => .next s.reportSequence

/-- SEQUPD (R124); it executes only if SYNC = 1 (R95). -/
def execSequpd (s : State) : Result :=
  whenSelected (s.selects .sequpd && s.sync) s fun s => .next s.acceptSequence

/-- VALIDATE (R125). -/
def execValidate (s : State) : Result := whenSelected (s.selects .validate) s stepValidate

end Sys2Proof.Machine
end

