-- ==== Sys2Proof/Machine/Control.lean ====
section
/-! DEFINITION. The main cycle: DIAG.DESYNC, RESYNC, CYCLE, and the processing of a whole buffer of either frame class
(spec 45_main_cycle.md, 60_exceptions.md R205, 30_encoding.md R90). -/

namespace Sys2Proof.Machine

/-- The record of a desynchronization (R205). -/
def State.reportDesync (s : State) : State := s.emit .desync

/-- The RESYNC step: report, reinitialize the transport, back to S_WAIT (R186). -/
def State.resynced (s : State) : State := s.reportDesync.reinitTransport.returnFromDesync

/-- The step of S_RESYNC: never blocks (R186). -/
def stepResync (s : State) : Result := .next s.resynced

/-- DIAG.DESYNC (R205). -/
def execDiagDesync (s : State) : Result := whenSelected (s.selects .diagDesync) s fun s => .next s.reportDesync

/-- RESYNC (R186). -/
def execResync (s : State) : Result := whenSelected (s.selects .resync) s stepResync

/-- A validated buffer to the end of its cycle: "if SYNC = 1: UNPACK, RENDER; if SYNC = 0: RESYNC" (R95, R183). -/
def finishCycle (s : State) : Result :=
  if s.sync then andThen (runPhase sUnpack stepUnpk1 s) (runPhase sScan stepEmit1)
  else runPhase sResync stepResync s

/-- The buffer in RXBUF from S_VALIDATE to the end of its cycle (R183). -/
def processBuffer (s : State) : Result := andThen (runPhase sValidate stepValidate s) finishCycle

/-- CYCLE (R183): one pass of the main loop from S_WAIT. Where the core stays held (R241) the pass stops there. -/
def execCycle (s : State) : Result :=
  whenSelected (s.st == sWait) s fun s => andThen (runPhase sWait stepXchg s) processBuffer

/-- SYNC_FRAME (R90): the buffer in RXBUF is this frame; sequence check, unpack, render. -/
def execSyncFrame (seq rsv : Byte) (px : List Color) (s : State) : Result :=
  whenSelected (s.st == sValidate && s.rxFrame == frameBytes seq rsv px) s processBuffer

/-- DESYNC_FRAME (R90): the buffer in RXBUF is this one and begins with no magic; diagnostic, reinitialize, discard. -/
def execDesyncFrame (bs : List Byte) (s : State) : Result :=
  whenSelected (s.st == sValidate && s.rxFrame == bs && !magicOk bs) s processBuffer

end Sys2Proof.Machine
end

