-- ==== Sys2Proof/Machine/Dispatch.lean ====
section
/-! DEFINITION. The meaning of each operation: one arm per constructor of Instr. -/

namespace Sys2Proof.Machine

def exec (i : Instr) (s : State) : Host.Outcome State Fault Refusal :=
  match i with
  | .syncFrame seq rsv px => Sys2Proof.Machine.execSyncFrame seq rsv px s
  | .desyncFrame bs => Sys2Proof.Machine.execDesyncFrame bs s
  | .xchg => Sys2Proof.Machine.execXchg s
  | .validate => Sys2Proof.Machine.execValidate s
  | .mcmp => Sys2Proof.Machine.execMcmp s
  | .seqchk => Sys2Proof.Machine.execSeqchk s
  | .diagSeq => Sys2Proof.Machine.execDiagSeq s
  | .sequpd => Sys2Proof.Machine.execSequpd s
  | .unpk1 => Sys2Proof.Machine.execUnpk1 s
  | .emit1 => Sys2Proof.Machine.execEmit1 s
  | .ser => Sys2Proof.Machine.execSer s
  | .pad => Sys2Proof.Machine.execPad s
  | .put => Sys2Proof.Machine.execPut s
  | .scanadv => Sys2Proof.Machine.execScanadv s
  | .resync => Sys2Proof.Machine.execResync s
  | .diagDesync => Sys2Proof.Machine.execDiagDesync s
  | .reinit => Sys2Proof.Machine.execReinit s
  | .unpack => Sys2Proof.Machine.execUnpack s
  | .render => Sys2Proof.Machine.execRender s
  | .cycle => Sys2Proof.Machine.execCycle s

end Sys2Proof.Machine
end

