-- ==== Sys2Proof/Machine/Fetch.lean ====
section
/-! DEFINITION. Where the sequencer finds its operation: the selector of the state, decoded (spec 30_encoding.md R96,
45_main_cycle.md R182). -/

namespace Sys2Proof.Machine

/-- The operation the state selects (R96); none with ST 5, 6 or 7 (R44). -/
def State.fetch (s : State) : Except DecodeError Instr := decodeSel s.sel

/-- The sequencer's move: the operation it fetches; with ST 5, 6 or 7 it is stuck (R44). -/
def sequencerMove (s : State) : Result :=
  match s.fetch with
  | .ok i => exec i s
  | .error _ => .fault .stuckState

/-- RXBUF contents for which the selector has the low two bits of w as `sync` and `seqerr` (R96): the magic sequence or
zeros, then the expected sequence byte or the previous one. -/
def State.selectorHeader (s : State) (w : Nat) : List Byte :=
  (if w.testBit 1 then Config.magic else List.replicate 6 0) ++ [if w.testBit 0 then s.prev else s.expected]

/-- The state whose next step runs the operation that selector w names: ST, the low selector bits, a complete exchange
in the transport, and the sequencer to move. -/
def State.placeSelector (s : State) (w : Nat) : State :=
  { s with
    st := (BitVec.ofNat 5 w).extractLsb' 2 3
    turns := []
    rxbuf := Memory.ofList 0 (s.selectorHeader w)
    upstream := s.upstream ++ List.replicate (s.cfg.frameLen - s.upstream.length) 0 }

/-- The state whose next step validates a buffer with header w (R82) and a payload of zeros. -/
def State.placeHeader (s : State) (w : Nat) : State :=
  { s with st := sValidate, turns := [], rxbuf := Memory.ofList 0 (hdrBytes (BitVec.ofNat 64 w)) }

end Sys2Proof.Machine
end

