-- ==== Sys2Proof/Machine/Step.lean ====
section
/-! DEFINITION. One step: one turn of one agent (spec 45_main_cycle.md R181, R182), and the placing of an opcode-table
word where the next step finds it. -/

namespace Sys2Proof.Machine

/-- One step: the turn of whoever moves next; the sequencer's turn is the operation it fetches. -/
def step (s : State) : Host.Outcome State Fault Refusal := agentTurn sequencerMove s

/-- The state in which the next step runs an opcode-table word: a 64-bit header (R82) or a selector (R96) (log
entry 6). -/
def State.withFetchWord (s : State) (nbits w : Nat) : State :=
  if nbits = 64 then s.placeHeader w else s.placeSelector w

end Sys2Proof.Machine
end

