-- ==== Sys2Proof/Safety.lean ====
section
/-! DEFINITION. The terms in which claims about QFS are stated: the pure functions of the spec's rules (a buffer's
cells, the scan order, a cycle's events), the states that power-on allows (10_state.md R40), the invariant of R42, the
shape of the trace (45_main_cycle.md R183, R189, R190), and what a later event can depend on (10_state.md R32, R41). -/

namespace Sys2Proof.Machine

/-- Pixel record i of a buffer, `r ++ g ++ b` (30_encoding.md R84). -/
def recordCell (b : List Byte) (i : Nat) : Word24 := b.getD (8 + 3 * i) 0 ++ b.getD (8 + 3 * i + 1) 0 ++ b.getD (8 + 3 * i + 2) 0

/-- `(x_k, y_k)`: the cell of scan ordinal k (43_render_serializer.md R150). -/
def scanCell (c : Config) (k : Nat) : Nat × Nat :=
  (c.width - 1 - k / c.height,
   if asc c (c.width - 1 - k / c.height) then k % c.height else c.height - 1 - k % c.height)

/-- `k(x, y)`: the scan ordinal of a cell (43_render_serializer.md R159). -/
def scanOrd (c : Config) (x y : Nat) : Nat :=
  (c.width - 1 - x) * c.height + if asc c x then y else c.height - 1 - y

/-- `out`: the queue word of a cell (44_color_output.md R174). -/
def outWord (v : Word24) : Word32 := pad (ser v)

/-- `render(L)`: the words of one render pass, in order (43_render_serializer.md R157). -/
def renderWords (c : Config) (cellAt : Nat → Nat → Word24) : List Word32 :=
  (List.range c.ledCount).map fun k => outWord (cellAt (scanCell c k).1 (scanCell c k).2)

/-- `render(unpack(B))`: the words a SYNCHRONIZED buffer puts in the queue (R138, R157). -/
def bufferWords (c : Config) (b : List Byte) : List Word32 :=
  renderWords c fun x y => recordCell b (cellAddr c x y)

/-- The event of a sequence discontinuity, if the counter is not the expected one (R123, R183). -/
def seqEvents (prev : Byte) (b : List Byte) : List Event :=
  if b.getD 6 0 ≠ prev + 1 then [.diag (.seq (prev + 1) (b.getD 6 0))] else []

/-- The events of one cycle (45_main_cycle.md R183). -/
def cycleEvents (c : Config) (prev : Byte) (b : List Byte) : List Event :=
  if magicOk b then [.xchg b] ++ seqEvents prev b ++ (bufferWords c b).map .put
  else [.xchg b, .diag .desync, .reinit]

/-- PREV after one cycle (45_main_cycle.md R183). -/
def cyclePrev (prev : Byte) (b : List Byte) : Byte := if magicOk b then b.getD 6 0 else prev

/-- PREV after a list of complete cycles (45_main_cycle.md R190). -/
def prevAfter (prev : Byte) (bs : List (List Byte)) : Byte := bs.foldl cyclePrev prev

/-- The trace of a list of complete cycles: the fold of R190. -/
def traceOf (c : Config) : Byte → List (List Byte) → List Event
  | _, [] => []
  | p, b :: bs => cycleEvents c p b ++ traceOf c (cyclePrev p b) bs

/-- The words put in the queue by a trace. -/
def putsOf (es : List Event) : List Word32 :=
  es.filterMap fun e => match e with
    | .put w => some w
    | _ => none

/-- The diagnostics of a trace. -/
def diagsOf (es : List Event) : List Diag :=
  es.filterMap fun e => match e with
    | .diag d => some d
    | _ => none

/-- Every state that power-on allows (R40): what R40 calls unspecified is any value, and the environment may have any
bytes and any turns to come. -/
structure State.PowerOn (s : State) : Prop where
  cfgValid : s.cfg.Valid
  st : s.st = sWait
  prev : s.prev = s.cfg.prevReset
  rxWf : s.rxbuf.wf
  rxBelow : s.rxbuf.below s.cfg.frameLen
  tx : s.txbuf = Memory.ofList 0 s.cfg.txbufInit
  latWf : s.lattice.wf
  latBelow : s.lattice.below s.cfg.ledCount
  txq : s.txq = []
  diag : s.diag = []
  trace : s.trace = []
  wire : s.wire = []
  shiftedOut : s.shiftedOut = []

/-- The invariant of 10_state.md R42 (a) to (d), with the canonical form of the memories, the capacity and the order of
the transmit queue (R39(a), R64(d)), the sink as the record of the trace's diagnostics (R207), and TXBUF as it was at
reset (R37). -/
structure State.Inv (s : State) : Prop where
  cfgValid : s.cfg.Valid
  legal : s.st = sWait ∨ s.st = sValidate ∨ s.st = sUnpack ∨ s.st = sScan ∨ s.st = sResync
  rxWf : s.rxbuf.wf
  rxBelow : s.rxbuf.below s.cfg.frameLen
  tx : s.txbuf = Memory.ofList 0 s.cfg.txbufInit
  latWf : s.lattice.wf
  latBelow : s.lattice.below s.cfg.ledCount
  depth : s.txq.length ≤ s.cfg.txqDepth
  fifo : putsOf s.trace = s.wire ++ s.txq
  sink : s.diag = (diagsOf s.trace).map Diag.record
  unpacking : s.st = sUnpack →
    s.ux < s.cfg.width ∧ s.uy < s.cfg.height ∧ s.up = 8 + 3 * (s.uy * s.cfg.width + s.ux) ∧ s.sync = true ∧
      magicOk s.rxFrame = true ∧ s.prev = s.rxByte 6 ∧
      ∀ j, j < s.uy * s.cfg.width + s.ux → Memory.read s.lattice j = recordCell s.rxFrame j
  scanning : s.st = sScan →
    s.sx < s.cfg.width ∧ s.sy < s.cfg.height ∧ s.sync = true ∧ magicOk s.rxFrame = true ∧
      ∀ j, j < s.cfg.ledCount → Memory.read s.lattice j = recordCell s.rxFrame j
  resyncing : s.st = sResync → s.sync = false ∧ magicOk s.rxFrame = false

/-- The events of the cycle in progress, given PREV as it was before it (R182, R189). -/
def State.openEvents (s : State) (p : Byte) : List Event :=
  if s.st = sWait then []
  else if s.st = sUnpack then [.xchg s.rxFrame] ++ seqEvents p s.rxFrame
  else if s.st = sScan then
    [.xchg s.rxFrame] ++ seqEvents p s.rxFrame ++
      ((bufferWords s.cfg s.rxFrame).take (scanOrd s.cfg s.sx s.sy)).map .put
  else [.xchg s.rxFrame]

/-- The trace is the trace of the complete cycles, folded from PREV_RESET, and then the events of the cycle in
progress; PREV is what R42(e) says; and between unpack passes LATTICE holds the last SYNCHRONIZED buffer, if there was
one (R183, R189, R190). -/
def State.TraceShape (s : State) : Prop :=
  ∃ bufs : List (List Byte),
    (∀ b ∈ bufs, b.length = s.cfg.frameLen) ∧
    s.trace = traceOf s.cfg s.cfg.prevReset bufs ++ s.openEvents (prevAfter s.cfg.prevReset bufs) ∧
    s.prev = (if s.st = sUnpack ∨ s.st = sScan then s.rxByte 6 else prevAfter s.cfg.prevReset bufs) ∧
    (s.st ≠ sUnpack → s.st ≠ sScan → ∀ b, (bufs.filter magicOk).getLast? = some b →
      ∀ j, j < s.cfg.ledCount → Memory.read s.lattice j = recordCell b j)

/-- Two states that no later event can tell apart (R32, R41): they agree on the configuration, ST, PREV, TXBUF, the queue
and the environment's plans, and on what the rest of the cycle in progress will read. -/
structure LiveEq (s u : State) : Prop where
  cfg : s.cfg = u.cfg
  st : s.st = u.st
  prev : s.prev = u.prev
  tx : s.txbuf = u.txbuf
  txq : s.txq = u.txq
  upstream : s.upstream = u.upstream
  turns : s.turns = u.turns
  buffer : s.st = sValidate ∨ s.st = sUnpack → s.rxbuf = u.rxbuf
  unpacking : s.st = sUnpack →
    s.ux = u.ux ∧ s.uy = u.uy ∧ s.up = u.up ∧
      ∀ j, j < s.uy * s.cfg.width + s.ux → Memory.read s.lattice j = Memory.read u.lattice j
  scanning : s.st = sScan →
    s.sx = u.sx ∧ s.sy = u.sy ∧
      ∀ j, j < s.cfg.ledCount → Memory.read s.lattice j = Memory.read u.lattice j

/-- The bytes that the turns to come clock into the transport (R112, R113). -/
def scheduledBytes (ts : List Turn) : List Byte :=
  ts.flatMap fun t => match t with
    | .transport bs => bs
    | .sequencer => []
    | .pulse => []

/-- A list of operations, one after another. -/
def runAll : List Instr → State → Result
  | [], s => .next s
  | i :: is, s => andThen (exec i s) (runAll is)

/-- A number of steps, stopping at the first fault or refusal. -/
def runSteps : Nat → State → Result
  | 0, s => .next s
  | n + 1, s => andThen (step s) (runSteps n)

/-- A step is safe when it leads to a next state: QFS has no fatal condition (R187). -/
def SafeStep (s : State) : Prop := ∃ t, step s = .next t

end Sys2Proof.Machine
end

