-- ==== Sys2Proof/Certificates/Slice0/Obligations.lean ====
section
/-! DEFINITION. The statements about QFS that the provers are asked to settle; each docstring cites the rules of spec/
it formalises. A frame is written `t = { s with f := t.f, … }`: t differs from s in no field but those named. -/

open Sys2Proof Sys2Proof.Machine

/-! ### Encodings -/

/-- Words written out from the encodings of R81, R90, R96 decode to what they stand for: V1 and V4 of 95_test_vectors.md
as headers (with the payload of one pixel), and the selector of each primary operation; that a selector with ST = 5 decodes
to an error of that name is the model's choice (log entry 19). -/
def Obligations.WrittenOutWordsDecode : Prop :=
  decode { Config.default with width := 1, height := 1 }
      (.frame [0x01, 0x02, 0x04, 0x08, 0x07, 0x05, 0x2A, 0x00, 0xFF, 0x80, 0x00]) =
    .ok (.syncFrame 0x2A 0x00 [⟨0xFF, 0x80, 0x00⟩]) ∧
  decode { Config.default with width := 1, height := 1 }
      (.frame [0x01, 0x02, 0x04, 0x08, 0x07, 0x04, 0x00, 0x00, 0x01, 0x02, 0x03]) =
    .ok (.desyncFrame [0x01, 0x02, 0x04, 0x08, 0x07, 0x04, 0x00, 0x00, 0x01, 0x02, 0x03]) ∧
  decode Config.default (.select 0b00011) = .ok .xchg ∧
  decode Config.default (.select 0b00110) = .ok .validate ∧
  decode Config.default (.select 0b01000) = .ok .unpk1 ∧
  decode Config.default (.select 0b01101) = .ok .emit1 ∧
  decode Config.default (.select 0b10000) = .ok .resync ∧
  decode Config.default (.select 0b10100) = .error .unusedState

/-- Decoding the code of a well-formed operation gives the operation back, for every configuration and every value of
every field (R81, R90, R96). -/
def Obligations.DecodeEncodeAgree : Prop :=
  ∀ (c : Config) (i : Instr) (w : Code), i.wellFormed c = true → encode i = some w → decode c w = .ok i

/-- Every N-byte buffer decodes to a well-formed frame operation whose bytes are the buffer, of the class SYNC_FRAME
exactly when its first six bytes are the magic sequence (R90). A buffer of another length has no defined behaviour (R94);
that the decoder rejects it, under that name, is the model's choice (log entry 19). -/
def Obligations.EveryBufferHasOneClass : Prop :=
  ∀ (c : Config) (b : List Byte),
    (b.length = c.frameLen →
      ∃ i, decode c (.frame b) = .ok i ∧ i.wellFormed c = true ∧ encode i = some (.frame b) ∧
        (if b.take 6 = [0x01, 0x02, 0x04, 0x08, 0x07, 0x05] then
            ∃ px, i = .syncFrame (b.getD 6 0) (b.getD 7 0) px
          else i = .desyncFrame b)) ∧
    (b.length ≠ c.frameLen → decode c (.frame b) = .error .badLength)

/-- The masked 64-bit comparison of R90 is the bytewise magic predicate of R121: `HDR[63:16] = 0x010204080705`. -/
def Obligations.MaskedHeaderIsMagicPredicate : Prop :=
  ∀ b : List Byte, 8 ≤ b.length →
    (hdr64 b &&& 0xFFFFFFFFFFFF0000 = 0x0102040807050000 ↔ magicOk b = true) ∧
    (magicOk b = true ↔ b[0]? = some 0x01 ∧ b[1]? = some 0x02 ∧ b[2]? = some 0x04 ∧ b[3]? = some 0x08 ∧
      b[4]? = some 0x07 ∧ b[5]? = some 0x05)

/-- A selector names the primary operation of its ST and, inside VALIDATE, the parts that its sync and seqerr bits
admit; ST 5 to 7 name nothing (R95, R96). -/
def Obligations.SelectorRowsFollowTheMap : Prop :=
  ∀ (sync seqerr : Bool),
    activeOps (sWait ++ BitVec.ofBool sync ++ BitVec.ofBool seqerr) = [.xchg] ∧
    activeOps (sValidate ++ BitVec.ofBool sync ++ BitVec.ofBool seqerr) =
      [.validate, .mcmp] ++ (if sync then [.seqchk] ++ (if seqerr then [.diagSeq] else []) ++ [.sequpd] else []) ∧
    activeOps (sUnpack ++ BitVec.ofBool sync ++ BitVec.ofBool seqerr) = [.unpk1] ∧
    activeOps (sScan ++ BitVec.ofBool sync ++ BitVec.ofBool seqerr) = [.emit1, .ser, .pad, .put, .scanadv] ∧
    activeOps (sResync ++ BitVec.ofBool sync ++ BitVec.ofBool seqerr) = [.resync, .diagDesync, .reinit] ∧
    ∀ st : StCode, 5 ≤ st.toNat → activeOps (st ++ BitVec.ofBool sync ++ BitVec.ofBool seqerr) = []

/-! ### The step -/

/-- A step runs the operation its selector decodes to: with no turn scheduled it is exec of it, and a sequencer's turn
is used up first (R96, R181, R182; the schedule of turns is the model's, log entry 4). -/
def Obligations.StepRunsDecodedOperation : Prop :=
  ∀ (s : State) (i : Instr), decode s.cfg (.select s.sel) = .ok i →
    (s.turns = [] → step s = exec i s) ∧
    (∀ ts, s.turns = .sequencer :: ts → step s = exec i { s with turns := ts })

/-- The environment's turns: the upstream controller only adds bytes; the pulse engine only moves the oldest word of the
queue to the wire (R39, R113, R181). The schedule of turns and the two records are the model's own (log entry 4). -/
def Obligations.EnvironmentTurnsOnlyTouchTheirSide : Prop :=
  ∀ (s : State) (ts : List Turn),
    (∀ bs, s.turns = .transport bs :: ts →
      step s = .next { s with turns := ts, upstream := s.upstream ++ bs }) ∧
    (s.turns = .pulse :: ts →
      ∃ t, step s = .next t ∧ t.wire ++ t.txq = s.wire ++ s.txq ∧ t.wire = s.wire ++ s.txq.take 1 ∧
        t = { s with turns := ts, txq := t.txq, wire := t.wire })

/-- In a state whose ST is 5, 6 or 7 the sequencer has no step (R44); that the model answers a fault of that name is its
choice (log entry 9). -/
def Obligations.UnusedStateCodesAreStuck : Prop :=
  ∀ s : State, s.turns = [] → 5 ≤ s.st.toNat → step s = .fault .stuckState

/-- With an index register outside the ranges of R25 and R26 there is no step (R44); that the model answers a fault of that
name is its choice (log entry 9). -/
def Obligations.IndicesOutOfRangeAreStuck : Prop :=
  ∀ s : State, s.cfg.Valid →
    (s.st = sUnpack → (s.cfg.width ≤ s.ux ∨ s.cfg.height ≤ s.uy ∨ s.cfg.frameLen < s.up + 3 ∨ s.up < 8 ∨
        (s.up - 8) % 3 ≠ 0) →
      exec .unpk1 s = .fault .stuckIndex) ∧
    (s.st = sScan → (s.cfg.width ≤ s.sx ∨ s.cfg.height ≤ s.sy) →
      exec .emit1 s = .fault .stuckIndex ∧ exec .scanadv s = .fault .stuckIndex)

/-- A primary operation executes in its own state only (R22, R95, R182); that exec then answers this refusal is the model's
choice (log entry 8). -/
def Obligations.PrimaryOperationsNeedTheirState : Prop :=
  ∀ s : State, s.cfg.Valid →
    (s.st ≠ sWait → exec .xchg s = .refused .notSelected) ∧
    (s.st ≠ sValidate → exec .validate s = .refused .notSelected) ∧
    (s.st ≠ sUnpack → exec .unpk1 s = .refused .notSelected) ∧
    (s.st ≠ sScan → exec .emit1 s = .refused .notSelected) ∧
    (s.st ≠ sResync → exec .resync s = .refused .notSelected)

/-- A primary or sub-operation whose row the selector does not match has no effect to give: it is refused; the parts of
VALIDATE after MCMP need SYNC = 1 as well, and DIAG.SEQ needs CUR and EXP to differ (R95, R96, R206); the refusal is the
model's choice (log entry 8). -/
def Obligations.UnselectedOperationsAreRefused : Prop :=
  ∀ (i : Instr) (s : State), s.cfg.Valid →
    ((∃ r ∈ primaryRows ++ subRows, r.op = i) → i.selectedBy s.sel = false → exec i s = .refused .notSelected) ∧
    (s.sync = false → i = .seqchk ∨ i = .diagSeq ∨ i = .sequpd → exec i s = .refused .notSelected) ∧
    (s.cur = s.exp → exec .diagSeq s = .refused .notSelected)

/-- The transition relation of R182: a sequencer's step is one of its eight rows, or a hold that changes nothing
(that a hold is a step to the same state is the model's choice, log entry 7). -/
def Obligations.EveryStepIsARowOfTheTransitionTable : Prop :=
  ∀ s t : State, s.turns = [] → step s = .next t →
    (s.st = sWait ∧ s.cfg.frameLen ≤ s.upstream.length ∧ t.st = sValidate) ∨
    (s.st = sWait ∧ s.upstream.length < s.cfg.frameLen ∧ t = s) ∨
    (s.st = sValidate ∧ magicOk s.rxFrame = true ∧ t.st = sUnpack) ∨
    (s.st = sValidate ∧ magicOk s.rxFrame = false ∧ t.st = sResync) ∨
    (s.st = sUnpack ∧ s.uy * s.cfg.width + s.ux < s.cfg.ledCount - 1 ∧ t.st = sUnpack) ∨
    (s.st = sUnpack ∧ s.ux = s.cfg.width - 1 ∧ s.uy = s.cfg.height - 1 ∧ t.st = sScan) ∨
    (s.st = sScan ∧ s.cfg.txqDepth ≤ s.txq.length ∧ t = s) ∨
    (s.st = sScan ∧ s.txq.length < s.cfg.txqDepth ∧ ¬ (s.sx = 0 ∧ s.sy = yEnd s.cfg 0) ∧ t.st = sScan) ∨
    (s.st = sScan ∧ s.txq.length < s.cfg.txqDepth ∧ s.sx = 0 ∧ s.sy = yEnd s.cfg 0 ∧ t.st = sWait) ∨
    (s.st = sResync ∧ t.st = sWait)

/-! ### Reset and configuration -/

/-- What reset leaves, as R40 gives it: S_WAIT, PREV_RESET, TXBUF_INIT, an empty queue and an empty sink, for every
configuration; the model's reset is the one of its default configuration. -/
def Obligations.ResetLeavesWhatTheSpecGives : Prop :=
  (∀ c : Config, (State.resetWith c).cfg = c ∧ (State.resetWith c).st = sWait ∧
    (State.resetWith c).prev = c.prevReset ∧ (State.resetWith c).txq = [] ∧ (State.resetWith c).diag = [] ∧
    ∀ k, Memory.read (State.resetWith c).txbuf k = c.txbufInit.getD k 0) ∧
  State.reset = State.resetWith Config.default

/-- Parameters with W = 0 or H = 0 are refused: they are no configuration (R10). That every operation refuses TXQ_DEPTH = 0
and a TXBUF_INIT that is not N bytes likewise is the model's choice (log entry 1): R9 gives only the ranges. -/
def Obligations.NotAConfigurationIsRefused : Prop :=
  ∀ (i : Instr) (s : State),
    s.cfg.width = 0 ∨ s.cfg.height = 0 ∨ s.cfg.txqDepth = 0 ∨ s.cfg.txbufInit.length ≠ s.cfg.frameLen →
    exec i s = .refused .notAConfiguration

/-- No operation and no turn changes the configuration or the transmit buffer (R8, R37). -/
def Obligations.ConfigurationAndTransmitBufferAreFixed : Prop :=
  (∀ (i : Instr) (s t : State), exec i s = .next t → t.cfg = s.cfg ∧ t.txbuf = s.txbuf) ∧
  (∀ s t : State, step s = .next t → t.cfg = s.cfg ∧ t.txbuf = s.txbuf)

/-! ### Invariants -/

/-- Every state that power-on allows meets the invariant, and the model's reset state is one of them (R40, R42). -/
def Obligations.PowerOnMeetsTheInvariant : Prop :=
  State.reset.PowerOn ∧ ∀ s : State, s.PowerOn → s.Inv

/-- Every step, of the sequencer or of an environment agent, keeps the invariant of R42 with the canonical form of the
memories, the order and capacity of the queue, and TXBUF as at reset (R37, R39, R42 (a) to (d), R64 (d), R207). -/
def Obligations.StepKeepsTheInvariant : Prop :=
  ∀ s t : State, s.Inv → step s = .next t → t.Inv

/-- The trace of a power-on state has the shape of R190: no cycle yet. -/
def Obligations.PowerOnTraceIsEmptyFold : Prop :=
  ∀ s : State, s.PowerOn → s.TraceShape

/-- Every step keeps the trace the fold of the pure cycle function over the buffers delivered, followed by the events of
the cycle in progress, with PREV as R42(e) says (R183, R189, R190). -/
def Obligations.StepKeepsTheTraceAFoldOfCycles : Prop :=
  ∀ s t : State, s.Inv → s.TraceShape → step s = .next t → t.TraceShape

/-- From every state that meets the invariant the machine goes on: no fault and no refusal (R187); where the spec says
the core is held, the model's step is to the same state (log entry 7). -/
def Obligations.NothingIsFatal : Prop :=
  ∀ s : State, s.Inv → SafeStep s

/-! ### Transport -/

/-- XCHG with N bytes in the transport: they replace all of RXBUF, TXBUF goes out, control goes to S_VALIDATE; nothing
else changes (R111, R113). That TXBUF goes out with index 0 first is the model's choice (log entry 18), and so are the
records of both directions (log entry 4). -/
def Obligations.XchgDeliversOneBuffer : Prop :=
  ∀ s : State, s.cfg.Valid → s.st = sWait → s.cfg.frameLen ≤ s.upstream.length →
    ∃ t, exec .xchg s = .next t ∧
      t.rxFrame = s.upstream.take s.cfg.frameLen ∧ t.rxbuf.wf ∧ t.rxbuf.below s.cfg.frameLen ∧
      t.upstream = s.upstream.drop s.cfg.frameLen ∧
      t.shiftedOut = s.shiftedOut ++ (List.range s.cfg.frameLen).map (Memory.read s.txbuf) ∧
      t.trace = s.trace ++ [.xchg (s.upstream.take s.cfg.frameLen)] ∧ t.st = sValidate ∧
      t = { s with rxbuf := t.rxbuf, upstream := t.upstream, shiftedOut := t.shiftedOut, trace := t.trace, st := t.st }

/-- While the transport has no N bytes the core is held in S_WAIT, with no change and no fault (R111, R241); that a hold is
a step to the same state is the model's choice (log entry 7). -/
def Obligations.XchgHoldsWithoutABuffer : Prop :=
  ∀ s : State, s.cfg.Valid → s.st = sWait → s.upstream.length < s.cfg.frameLen → exec .xchg s = .next s

/-- REINIT is one event and no change of any state of QFS (R114); that the bytes still to come stay as the environment chose
them is the model's choice (log entry 4). -/
def Obligations.ReinitChangesNoState : Prop :=
  ∀ s : State, s.cfg.Valid → s.st = sResync → exec .reinit s = .next { s with trace := s.trace ++ [.reinit] }

/-! ### Frame validator -/

/-- MCMP: SYNC becomes 1 exactly when all six bytes match; nothing else changes (R121, R122). -/
def Obligations.McmpComparesSixBytes : Prop :=
  ∀ s : State, s.cfg.Valid → s.st = sValidate →
    ∃ t, exec .mcmp s = .next t ∧
      (t.sync = true ↔ s.rxByte 0 = 0x01 ∧ s.rxByte 1 = 0x02 ∧ s.rxByte 2 = 0x04 ∧ s.rxByte 3 = 0x08 ∧
        s.rxByte 4 = 0x07 ∧ s.rxByte 5 = 0x05) ∧
      t = { s with sync := t.sync }

/-- SEQCHK: CUR and EXP, an 8-bit sum that wraps, and one record exactly when they differ; PREV and control as they
were (R123, R202, R204). -/
def Obligations.SeqchkReportsADiscontinuity : Prop :=
  ∀ s : State, s.cfg.Valid → s.st = sValidate → magicOk s.rxFrame = true → s.sync = true →
    ∃ t, exec .seqchk s = .next t ∧
      t.cur = s.rxByte 6 ∧ t.exp.toNat = (s.prev.toNat + 1) % 256 ∧
      (t.cur = t.exp → t.diag = s.diag ∧ t.trace = s.trace) ∧
      (t.cur ≠ t.exp → t.diag = s.diag ++ [(0x01#8) ++ t.exp ++ t.cur] ∧
        t.trace = s.trace ++ [.diag (.seq t.exp t.cur)]) ∧
      t = { s with cur := t.cur, exp := t.exp, diag := t.diag, trace := t.trace }

/-- DIAG.SEQ: one record of kind 0x01 with EXP and CUR; nothing else changes (R206). -/
def Obligations.DiagSeqEmitsOneRecord : Prop :=
  ∀ s : State, s.cfg.Valid → s.st = sValidate → magicOk s.rxFrame = true → s.rxByte 6 ≠ s.prev + 1 →
    s.sync = true → s.cur ≠ s.exp →
    exec .diagSeq s =
      .next { s with diag := s.diag ++ [(0x01#8) ++ s.exp ++ s.cur], trace := s.trace ++ [.diag (.seq s.exp s.cur)] }

/-- SEQUPD: PREV becomes CUR, also after a mismatch; nothing else changes (R124). -/
def Obligations.SequpdAcceptsTheCounter : Prop :=
  ∀ s : State, s.cfg.Valid → s.st = sValidate → magicOk s.rxFrame = true → s.sync = true →
    exec .sequpd s = .next { s with prev := s.cur }

/-- VALIDATE of a buffer with the magic sequence: SYNC, CUR, EXP, PREV, the start of the unpack pass, and the record of a
discontinuity with the old expectation; buffer, lattice and queue as they were (R125). -/
def Obligations.ValidateAcceptsMagic : Prop :=
  ∀ s : State, s.cfg.Valid → s.st = sValidate → magicOk s.rxFrame = true →
    ∃ t, exec .validate s = .next t ∧
      t.sync = true ∧ t.cur = s.rxByte 6 ∧ t.exp = s.prev + 1 ∧ t.prev = s.rxByte 6 ∧
      t.ux = 0 ∧ t.uy = 0 ∧ t.up = 8 ∧ t.st = sUnpack ∧
      (s.rxByte 6 = s.prev + 1 → t.diag = s.diag ∧ t.trace = s.trace) ∧
      (s.rxByte 6 ≠ s.prev + 1 →
        t.diag = s.diag ++ [(0x01#8) ++ (s.prev + 1) ++ s.rxByte 6] ∧
        t.trace = s.trace ++ [.diag (.seq (s.prev + 1) (s.rxByte 6))]) ∧
      t = { s with
            sync := t.sync, cur := t.cur, exp := t.exp, prev := t.prev, ux := t.ux, uy := t.uy, up := t.up,
            st := t.st, diag := t.diag, trace := t.trace }

/-- VALIDATE of any other buffer: SYNC cleared, control to S_RESYNC, nothing else changed, PREV among it (R125, R129,
R203). -/
def Obligations.ValidateRejectsTheRest : Prop :=
  ∀ s : State, s.cfg.Valid → s.st = sValidate → magicOk s.rxFrame = false →
    exec .validate s = .next { s with sync := false, st := sResync }

/-- VALIDATE is its parts in the order of R125: MCMP; on a match SEQCHK and SEQUPD, then the start of the unpack pass;
else the way to S_RESYNC. -/
def Obligations.ValidateIsItsParts : Prop :=
  ∀ s : State, s.cfg.Valid → s.st = sValidate →
    (magicOk s.rxFrame = true →
      ∃ m, runAll [.mcmp, .seqchk, .sequpd] s = .next m ∧
        exec .validate s = .next { m with ux := 0, uy := 0, up := 8, st := sUnpack }) ∧
    (magicOk s.rxFrame = false →
      ∃ m, runAll [.mcmp] s = .next m ∧ exec .validate s = .next { m with st := sResync })

/-! ### Lattice unpacker -/

/-- UNPK1: the three bytes at UP go to COL and to the cell (UX, UY), and the indices advance, carry, or end the pass; no
other cell and no other memory changes (R137). After the last record UX, UY and UP are dead: nothing is said of them. -/
def Obligations.Unpk1StoresOneRecord : Prop :=
  ∀ s : State, s.cfg.Valid → s.st = sUnpack → s.ux < s.cfg.width → s.uy < s.cfg.height →
    s.up = 8 + 3 * (s.uy * s.cfg.width + s.ux) →
    ∃ t, exec .unpk1 s = .next t ∧
      t.col = s.rxByte s.up ++ s.rxByte (s.up + 1) ++ s.rxByte (s.up + 2) ∧
      t.cell s.ux s.uy = t.col ∧
      (∀ a, a ≠ cellAddr s.cfg s.ux s.uy → Memory.read t.lattice a = Memory.read s.lattice a) ∧
      (if s.ux + 1 < s.cfg.width then
          t = { s with col := t.col, lattice := t.lattice, up := s.up + 3, ux := s.ux + 1 }
        else if s.uy + 1 < s.cfg.height then
          t = { s with col := t.col, lattice := t.lattice, up := s.up + 3, ux := 0, uy := s.uy + 1 }
        else
          t = { s with
                col := t.col, lattice := t.lattice, up := t.up, ux := t.ux, uy := t.uy,
                sx := s.cfg.width - 1, sy := yStart s.cfg (s.cfg.width - 1), st := sScan })

/-- UNPACK from the start of the pass: cell (x, y) becomes pixel record y*W + x for every x and y, and the scan is
prepared; nothing outside the lattice's W*H cells and the registers named changes (R136, R138, R140). -/
def Obligations.UnpackFillsTheLattice : Prop :=
  ∀ s : State, s.cfg.Valid → s.st = sUnpack → s.ux = 0 → s.uy = 0 → s.up = 8 → s.turns = [] →
    ∃ t, exec .unpack s = .next t ∧
      (∀ x y, x < s.cfg.width → y < s.cfg.height → t.cell x y = recordCell s.rxFrame (y * s.cfg.width + x)) ∧
      (∀ a, s.cfg.ledCount ≤ a → Memory.read t.lattice a = Memory.read s.lattice a) ∧
      t.sx = s.cfg.width - 1 ∧ t.sy = yStart s.cfg (s.cfg.width - 1) ∧ t.st = sScan ∧
      t = { s with
            col := t.col, lattice := t.lattice, ux := t.ux, uy := t.uy, up := t.up, sx := t.sx, sy := t.sy,
            st := t.st }

/-- UNPACK between any turns of the environment, never held: the lattice and the scan are as without them, and the turns
only add bytes and move words of the queue, in order, to the wire (R136, R138, R181; the schedule of turns, and that one
application runs the pass with those turns in it, are the model's choice, log entries 4 and 10). -/
def Obligations.UnpackUnderAnySchedule : Prop :=
  ∀ s : State, s.cfg.Valid → s.st = sUnpack → s.ux = 0 → s.uy = 0 → s.up = 8 →
    ∃ t, exec .unpack s = .next t ∧
      (∀ x y, x < s.cfg.width → y < s.cfg.height → t.cell x y = recordCell s.rxFrame (y * s.cfg.width + x)) ∧
      (∀ a, s.cfg.ledCount ≤ a → Memory.read t.lattice a = Memory.read s.lattice a) ∧
      t.sx = s.cfg.width - 1 ∧ t.sy = yStart s.cfg (s.cfg.width - 1) ∧ t.st = sScan ∧
      t.wire ++ t.txq = s.wire ++ s.txq ∧
      t.upstream ++ scheduledBytes t.turns = s.upstream ++ scheduledBytes s.turns ∧
      t = { s with
            col := t.col, lattice := t.lattice, ux := t.ux, uy := t.uy, up := t.up, sx := t.sx, sy := t.sy,
            st := t.st, turns := t.turns, upstream := t.upstream, txq := t.txq, wire := t.wire }

/-! ### Color and output -/

/-- SER: red and green exchange places, blue stays; it undoes itself; nothing but the color word changes (R166). -/
def Obligations.SerExchangesRedAndGreen : Prop :=
  (∀ s : State, s.cfg.Valid → s.st = sScan →
    ∃ t, exec .ser s = .next t ∧
      t.w24.extractLsb' 16 8 = s.col.extractLsb' 8 8 ∧ t.w24.extractLsb' 8 8 = s.col.extractLsb' 16 8 ∧
      t.w24.extractLsb' 0 8 = s.col.extractLsb' 0 8 ∧ t = { s with w24 := t.w24 }) ∧
  (∀ r g b : Byte, ser (r ++ g ++ b) = g ++ r ++ b) ∧ ∀ v : Word24, ser (ser v) = v

/-- PAD: the color word in bits 31 to 8 of OW, zero in bits 7 to 0; nothing else changes (R168). -/
def Obligations.PadAlignsTheColorWord : Prop :=
  ∀ s : State, s.cfg.Valid → s.st = sScan →
    ∃ t, exec .pad s = .next t ∧
      t.ow = s.w24.setWidth 32 <<< 8 ∧ t.ow.extractLsb' 8 24 = s.w24 ∧ t.ow.extractLsb' 0 8 = 0x00 ∧
      t = { s with ow := t.ow }

/-- The composite of R174: the queue word of a cell is `g ++ r ++ b ++ 0x00`. -/
def Obligations.QueueWordIsGreenRedBlue : Prop :=
  ∀ r g b : Byte, outWord (r ++ g ++ b) = g ++ r ++ b ++ (0x00#8)

/-- PUT with room in the queue: OW goes to the tail, one event; nothing else changes (R170). -/
def Obligations.PutAppendsOneWord : Prop :=
  ∀ s : State, s.cfg.Valid → s.st = sScan → s.txq.length < s.cfg.txqDepth →
    exec .put s = .next { s with txq := s.txq ++ [s.ow], trace := s.trace ++ [.put s.ow] }

/-- While the queue is full PUT and EMIT1 have no step: held in S_SCAN with no change and no fault (R171, R241); that a hold
is a step to the same state is the model's choice (log entry 7). -/
def Obligations.FullQueueHoldsTheScan : Prop :=
  ∀ s : State, s.cfg.Valid → s.st = sScan → s.cfg.txqDepth ≤ s.txq.length →
    exec .put s = .next s ∧ (s.sx < s.cfg.width → s.sy < s.cfg.height → exec .emit1 s = .next s)

/-! ### Serializer -/

/-- SCANADV: the next row of the column in its direction, else the start of the next column to the left, else the end of
the pass, after which SX and SY are dead; nothing else changes (R154). A column ascends exactly when its index is odd with
SCAN_ODD_ASC = true and even with SCAN_ODD_ASC = false (R151), and it starts and ends as R152 says. -/
def Obligations.ScanadvFollowsTheSerpentine : Prop :=
  (∀ (c : Config) (x : Nat),
    (asc c x = true ↔ if c.scanOddAsc = true then x % 2 = 1 else x % 2 = 0) ∧
    yStart c x = (if asc c x = true then 0 else c.height - 1) ∧
    yEnd c x = (if asc c x = true then c.height - 1 else 0)) ∧
  ∀ s : State, s.cfg.Valid → s.st = sScan → s.sx < s.cfg.width → s.sy < s.cfg.height →
    ∃ t, exec .scanadv s = .next t ∧
      (if asc s.cfg s.sx = true ∧ s.sy ≠ s.cfg.height - 1 then t = { s with sy := s.sy + 1 }
        else if asc s.cfg s.sx = false ∧ s.sy ≠ 0 then t = { s with sy := s.sy - 1 }
        else if s.sx ≠ 0 then
          t = { s with sx := s.sx - 1, sy := if asc s.cfg (s.sx - 1) = true then 0 else s.cfg.height - 1 }
        else t = { s with st := sWait, sx := t.sx, sy := t.sy })

/-- EMIT1 with room in the queue: the cell at (SX, SY) goes to COL, its queue word to OW and to the tail of the queue, one
event, and the scan advances; the lattice and every other state as they were (R156). -/
def Obligations.Emit1PutsOneCell : Prop :=
  ∀ s : State, s.cfg.Valid → s.st = sScan → s.sx < s.cfg.width → s.sy < s.cfg.height →
    s.txq.length < s.cfg.txqDepth →
    ∃ t, exec .emit1 s = .next t ∧
      t.col = s.cell s.sx s.sy ∧ t.ow = outWord (s.cell s.sx s.sy) ∧ t.txq = s.txq ++ [t.ow] ∧
      t.trace = s.trace ++ [.put t.ow] ∧
      (if scanOrd s.cfg s.sx s.sy + 1 < s.cfg.ledCount then
          t.st = sScan ∧ (t.sx, t.sy) = scanCell s.cfg (scanOrd s.cfg s.sx s.sy + 1)
        else t.st = sWait) ∧
      t = { s with
            col := t.col, w24 := t.w24, ow := t.ow, txq := t.txq, trace := t.trace, sx := t.sx, sy := t.sy,
            st := t.st }

/-- EMIT1 is the lattice read and then SER, PAD, PUT, SCANADV; RESYNC is DIAG.DESYNC, REINIT and the way to S_WAIT
(R156, R186). -/
def Obligations.Emit1AndResyncAreTheirParts : Prop :=
  ∀ s : State, s.cfg.Valid →
    (s.st = sScan → s.sx < s.cfg.width → s.sy < s.cfg.height → s.txq.length < s.cfg.txqDepth →
      exec .emit1 s = runAll [.ser, .pad, .put, .scanadv] { s with col := s.cell s.sx s.sy }) ∧
    (s.st = sResync →
      ∃ m, runAll [.diagDesync, .reinit] s = .next m ∧ exec .resync s = .next { m with st := sWait })

/-- RENDER from the start of the pass, with room for LED_COUNT words: the words of R150, in that order, enter the queue;
the lattice and every other state as they were (R150, R157). -/
def Obligations.RenderEmitsTheSerpentine : Prop :=
  ∀ s : State, s.cfg.Valid → s.st = sScan → s.sx = s.cfg.width - 1 → s.sy = yStart s.cfg (s.cfg.width - 1) →
    s.turns = [] → s.txq.length + s.cfg.ledCount ≤ s.cfg.txqDepth →
    ∃ t, exec .render s = .next t ∧
      t.trace = s.trace ++ (renderWords s.cfg s.cell).map .put ∧ t.txq = s.txq ++ renderWords s.cfg s.cell ∧
      t.st = sWait ∧
      t = { s with
            col := t.col, w24 := t.w24, ow := t.ow, txq := t.txq, trace := t.trace, sx := t.sx, sy := t.sy,
            st := t.st }

/-- RENDER with any depth of the queue and any turns of the environment between its steps: the first k words of R150, in
that order; all of them where the pass ends, and otherwise the queue is full and no turn is left to drain it (R150, R157,
R171, R181). The schedule of turns, that a hold is a step to the same state, and that RENDER answers the next state in
S_SCAN in which it is held, are the model's choice (log entries 4, 7 and 10). -/
def Obligations.RenderUnderAnySchedule : Prop :=
  ∀ s : State, s.cfg.Valid → s.st = sScan → s.sx = s.cfg.width - 1 → s.sy = yStart s.cfg (s.cfg.width - 1) →
    ∃ t k, exec .render s = .next t ∧
      t.trace = s.trace ++ ((renderWords s.cfg s.cell).take k).map .put ∧
      t.wire ++ t.txq = s.wire ++ s.txq ++ (renderWords s.cfg s.cell).take k ∧
      t.upstream ++ scheduledBytes t.turns = s.upstream ++ scheduledBytes s.turns ∧
      ((t.st = sWait ∧ k = s.cfg.ledCount) ∨
        (t.st = sScan ∧ t.turns = [] ∧ s.cfg.txqDepth ≤ t.txq.length ∧ k < s.cfg.ledCount)) ∧
      t = { s with
            col := t.col, w24 := t.w24, ow := t.ow, trace := t.trace, sx := t.sx, sy := t.sy, st := t.st,
            turns := t.turns, upstream := t.upstream, txq := t.txq, wire := t.wire }

/-- RENDER to its end with any depth of the queue, one turn of the pulse engine after each step: all the words of R150, in
that order (R150, R157, R171; the schedule of turns, and that one application runs the pass with those turns in it, are the
model's choice, log entries 4 and 10). -/
def Obligations.RenderCompletesAsTheQueueDrains : Prop :=
  ∀ s : State, s.cfg.Valid → s.st = sScan → s.sx = s.cfg.width - 1 → s.sy = yStart s.cfg (s.cfg.width - 1) →
    s.txq.length < s.cfg.txqDepth → s.turns = (List.replicate s.cfg.ledCount [Turn.sequencer, .pulse]).flatten →
    ∃ t, exec .render s = .next t ∧
      t.trace = s.trace ++ (renderWords s.cfg s.cell).map .put ∧
      t.wire ++ t.txq = s.wire ++ s.txq ++ renderWords s.cfg s.cell ∧ t.txq.length = s.txq.length + 1 ∧
      t.st = sWait ∧ t.turns = [.pulse] ∧
      t = { s with
            col := t.col, w24 := t.w24, ow := t.ow, trace := t.trace, sx := t.sx, sy := t.sy, st := t.st,
            turns := t.turns, txq := t.txq, wire := t.wire }

/-- The scan order is a bijection between the ordinals and the cells, and R159 is its inverse (R150, R159). -/
def Obligations.ScanOrderIsABijection : Prop :=
  ∀ c : Config, c.Valid →
    (∀ k, k < c.ledCount → (scanCell c k).1 < c.width ∧ (scanCell c k).2 < c.height ∧
      scanOrd c (scanCell c k).1 (scanCell c k).2 = k) ∧
    (∀ x y, x < c.width → y < c.height → scanOrd c x y < c.ledCount ∧ scanCell c (scanOrd c x y) = (x, y))

/-- With one row the strip is driven from x = W-1 down to x = 0, whatever the parity rule (R158). -/
def Obligations.SingleRowRunsRightToLeft : Prop :=
  ∀ c : Config, c.Valid → c.height = 1 → ∀ k, k < c.ledCount → scanCell c k = (c.width - 1 - k, 0)

/-- Rendering the same unchanged lattice again gives the same words (R160). -/
def Obligations.RenderIsIdempotent : Prop :=
  ∀ s u : State, s.cfg.Valid → u.cfg = s.cfg →
    (∀ x y, x < s.cfg.width → y < s.cfg.height → u.cell x y = s.cell x y) →
    (∀ v, v = s ∨ v = u → v.st = sScan ∧ v.sx = v.cfg.width - 1 ∧ v.sy = yStart v.cfg (v.cfg.width - 1) ∧
      v.turns = [] ∧ v.txq.length + v.cfg.ledCount ≤ v.cfg.txqDepth) →
    ∃ ws t r, exec .render s = .next t ∧ exec .render u = .next r ∧ t.lattice = s.lattice ∧ r.lattice = u.lattice ∧
      putsOf t.trace = putsOf s.trace ++ ws ∧ putsOf r.trace = putsOf u.trace ++ ws ∧ ws.length = s.cfg.ledCount

/-! ### Control -/

/-- DIAG.DESYNC: one record 0x000000; nothing else changes (R205). -/
def Obligations.DiagDesyncEmitsOneRecord : Prop :=
  ∀ s : State, s.cfg.Valid → s.st = sResync →
    exec .diagDesync s = .next { s with diag := s.diag ++ [0x000000], trace := s.trace ++ [.diag .desync] }

/-- RESYNC: DIAG(DESYNC), then REINIT, then S_WAIT; PREV, LATTICE, RXBUF, SYNC and every working register as they were
(R186); that the bytes still to come stay as the environment chose them is the model's choice (log entry 4). -/
def Obligations.ResyncReportsAndReinitializes : Prop :=
  ∀ s : State, s.cfg.Valid → s.st = sResync →
    exec .resync s =
      .next { s with diag := s.diag ++ [0x000000], trace := s.trace ++ [.diag .desync, .reinit], st := sWait }

/-- CYCLE on a buffer with the magic sequence, with room for its words: PREV, LATTICE and the events are those of the
pure function of R183. That TXBUF goes out with index 0 first is the model's choice (log entry 18). -/
def Obligations.CycleRendersASynchronizedBuffer : Prop :=
  ∀ (s : State) (b : List Byte), s.cfg.Valid → s.st = sWait → s.turns = [] → b.length = s.cfg.frameLen →
    s.upstream.take s.cfg.frameLen = b → magicOk b = true → s.txq.length + s.cfg.ledCount ≤ s.cfg.txqDepth →
    ∃ t, exec .cycle s = .next t ∧
      t.st = sWait ∧ t.sync = true ∧ t.prev = b.getD 6 0 ∧ t.rxFrame = b ∧
      (∀ x y, x < s.cfg.width → y < s.cfg.height → t.cell x y = recordCell b (y * s.cfg.width + x)) ∧
      (∀ a, s.cfg.ledCount ≤ a → Memory.read t.lattice a = Memory.read s.lattice a) ∧
      t.trace = s.trace ++ cycleEvents s.cfg s.prev b ∧ t.txq = s.txq ++ bufferWords s.cfg b ∧
      t.diag = s.diag ++ (diagsOf (seqEvents s.prev b)).map Diag.record ∧
      t.upstream = s.upstream.drop s.cfg.frameLen ∧
      t.shiftedOut = s.shiftedOut ++ (List.range s.cfg.frameLen).map (Memory.read s.txbuf) ∧
      t.cfg = s.cfg ∧ t.txbuf = s.txbuf ∧ t.wire = s.wire ∧ t.turns = []

/-- CYCLE on any other buffer: `XCHG(B), DIAG(DESYNC), REINIT`; PREV, LATTICE and the queue as they were (R183, R186).
That the bytes still to come after REINIT are exactly those the exchange left is the model's choice (log entry 4; R114
has the peripheral's buffered bytes dropped), and that TXBUF goes out with index 0 first (log entry 18). -/
def Obligations.CycleDiscardsADesynchronizedBuffer : Prop :=
  ∀ (s : State) (b : List Byte), s.cfg.Valid → s.st = sWait → s.turns = [] → b.length = s.cfg.frameLen →
    s.upstream.take s.cfg.frameLen = b → magicOk b = false →
    ∃ t, exec .cycle s = .next t ∧
      t.st = sWait ∧ t.sync = false ∧ t.rxFrame = b ∧ t.trace = s.trace ++ cycleEvents s.cfg s.prev b ∧
      t.diag = s.diag ++ [0x000000] ∧
      t.shiftedOut = s.shiftedOut ++ (List.range s.cfg.frameLen).map (Memory.read s.txbuf) ∧
      t = { s with
            sync := t.sync, rxbuf := t.rxbuf, upstream := s.upstream.drop s.cfg.frameLen,
            shiftedOut := t.shiftedOut, trace := t.trace, diag := t.diag }

/-- CYCLE with any depth of the queue and any turns of the environment between its steps: held before the exchange with too
few bytes to come; or the bytes alone decide the buffer, PREV, SYNC, the lattice and the events, of which a prefix has
happened where the full queue holds the core, and all of them otherwise (R181, R183, R186). That a hold ends the pass, the
schedule of turns, that REINIT drops none of the bytes to come (R114 has the peripheral's buffered bytes dropped), and that
TXBUF goes out with index 0 first are the model's choice (log entries 4, 7, 10 and 18). -/
def Obligations.CycleUnderAnySchedule : Prop :=
  ∀ (s : State) (b : List Byte), s.cfg.Valid → s.st = sWait →
    b = (s.upstream ++ scheduledBytes s.turns).take s.cfg.frameLen →
    ∃ t, exec .cycle s = .next t ∧
      ((b.length < s.cfg.frameLen ∧ t.turns = [] ∧ t.upstream = b ∧ t.wire ++ t.txq = s.wire ++ s.txq ∧
          t = { s with turns := t.turns, upstream := t.upstream, txq := t.txq, wire := t.wire }) ∨
        (b.length = s.cfg.frameLen ∧ t.rxFrame = b ∧ t.prev = cyclePrev s.prev b ∧ t.sync = magicOk b ∧
          (magicOk b = true →
            ∀ x y, x < s.cfg.width → y < s.cfg.height → t.cell x y = recordCell b (y * s.cfg.width + x)) ∧
          (magicOk b = false → t.lattice = s.lattice) ∧
          (∀ a, s.cfg.ledCount ≤ a → Memory.read t.lattice a = Memory.read s.lattice a) ∧
          t.upstream ++ scheduledBytes t.turns = (s.upstream ++ scheduledBytes s.turns).drop s.cfg.frameLen ∧
          t.shiftedOut = s.shiftedOut ++ (List.range s.cfg.frameLen).map (Memory.read s.txbuf) ∧
          t.cfg = s.cfg ∧ t.txbuf = s.txbuf ∧
          ∃ es, t.trace = s.trace ++ es ∧ t.wire ++ t.txq = s.wire ++ s.txq ++ putsOf es ∧
            t.diag = s.diag ++ (diagsOf es).map Diag.record ∧
            ((t.st = sWait ∧ es = cycleEvents s.cfg s.prev b) ∨
              (t.st = sScan ∧ t.turns = [] ∧ s.cfg.txqDepth ≤ t.txq.length ∧ magicOk b = true ∧
                es <+: cycleEvents s.cfg s.prev b))))

/-- A pass of the main loop is its steps: 2 + 2*LED_COUNT of them for a SYNCHRONIZED buffer, 3 for a DESYNCHRONIZED
one (R183, R242). -/
def Obligations.CycleIsItsSteps : Prop :=
  ∀ s : State, s.cfg.Valid → s.st = sWait → s.turns = [] → s.cfg.frameLen ≤ s.upstream.length →
    (magicOk (s.upstream.take s.cfg.frameLen) = true → s.txq.length + s.cfg.ledCount ≤ s.cfg.txqDepth →
      runSteps (2 + 2 * s.cfg.ledCount) s = exec .cycle s) ∧
    (magicOk (s.upstream.take s.cfg.frameLen) = false → runSteps 3 s = exec .cycle s)

/-- Each pseudo-operation is its expansion into primary operations (R95, R138, R157, R183). -/
def Obligations.PseudoOperationsAreTheirExpansions : Prop :=
  ∀ s : State, s.cfg.Valid → s.turns = [] →
    (s.st = sUnpack → s.ux = 0 → s.uy = 0 → s.up = 8 →
      runAll (expansion s.cfg true .unpack) s = exec .unpack s) ∧
    (s.st = sScan → s.sx = s.cfg.width - 1 → s.sy = yStart s.cfg (s.cfg.width - 1) →
      s.txq.length + s.cfg.ledCount ≤ s.cfg.txqDepth →
      runAll (expansion s.cfg true .render) s = exec .render s) ∧
    (s.st = sWait → s.cfg.frameLen ≤ s.upstream.length → s.txq.length + s.cfg.ledCount ≤ s.cfg.txqDepth →
      runAll (expansion s.cfg (magicOk (s.upstream.take s.cfg.frameLen)) .cycle) s = exec .cycle s)

/-- SYNC_FRAME in RXBUF: sequence check, unpack, render to the end: PREV is its counter, the lattice its pixels, the queue
gets its words in scan order, byte 7 has no effect (R90, R92, R185). -/
def Obligations.SyncFrameIsRendered : Prop :=
  ∀ (s : State) (seq rsv : Byte) (px : List Color), s.cfg.Valid → s.st = sValidate → s.turns = [] →
    (Instr.syncFrame seq rsv px).wellFormed s.cfg = true → s.rxFrame = frameBytes seq rsv px →
    s.txq.length + s.cfg.ledCount ≤ s.cfg.txqDepth →
    ∃ t, exec (.syncFrame seq rsv px) s = .next t ∧
      t.st = sWait ∧ t.sync = true ∧ t.prev = seq ∧ t.rxbuf = s.rxbuf ∧
      (∀ x y, x < s.cfg.width → y < s.cfg.height →
        some (t.cell x y) = (px[y * s.cfg.width + x]?).map Color.cell) ∧
      (∀ a, s.cfg.ledCount ≤ a → Memory.read t.lattice a = Memory.read s.lattice a) ∧
      t.trace = s.trace ++ (if seq = s.prev + 1 then [] else [.diag (.seq (s.prev + 1) seq)]) ++
        (renderWords s.cfg fun x y => ((px[y * s.cfg.width + x]?).map Color.cell).getD 0).map .put ∧
      t.txq = s.txq ++ (renderWords s.cfg fun x y => ((px[y * s.cfg.width + x]?).map Color.cell).getD 0) ∧
      t.diag = s.diag ++ (if seq = s.prev + 1 then [] else [(0x01#8) ++ (s.prev + 1) ++ seq]) ∧
      t.upstream = s.upstream ∧ t.shiftedOut = s.shiftedOut ∧ t.cfg = s.cfg ∧ t.txbuf = s.txbuf ∧
      t.wire = s.wire ∧ t.turns = []

/-- DESYNC_FRAME in RXBUF: diagnostic, reinitialize, discard; PREV, LATTICE and the queue as they were (R90, R141,
R203). That the bytes still to come stay across REINIT is the model's choice (log entry 4; R114 has the peripheral's
buffered bytes dropped). -/
def Obligations.DesyncFrameIsDiscarded : Prop :=
  ∀ (s : State) (b : List Byte), s.cfg.Valid → s.st = sValidate → s.turns = [] →
    (Instr.desyncFrame b).wellFormed s.cfg = true → s.rxFrame = b →
    exec (.desyncFrame b) s =
      .next { s with
              sync := false, st := sWait, diag := s.diag ++ [0x000000],
              trace := s.trace ++ [.diag .desync, .reinit] }

/-! ### Whole machine -/

/-- Ownership (R43): LATTICE changes only in S_UNPACK, PREV, CUR, EXP and SYNC only in S_VALIDATE, RXBUF only in
S_WAIT. -/
def Obligations.StateChangesOnlyInItsOwnersState : Prop :=
  ∀ s t : State, step s = .next t →
    (t.lattice ≠ s.lattice → s.st = sUnpack) ∧
    (t.prev ≠ s.prev ∨ t.cur ≠ s.cur ∨ t.exp ≠ s.exp ∨ t.sync ≠ s.sync → s.st = sValidate) ∧
    (t.rxbuf ≠ s.rxbuf → s.st = sWait)

/-- Two states that agree on what R32 and R41 say can matter take the same kind of step, add the same events, and go on
agreeing: no rule reads a value that has not been written since reset. -/
def Obligations.NoStepReadsAnUnwrittenValue : Prop :=
  ∀ s u : State, LiveEq s u →
    (∃ t v es, step s = .next t ∧ step u = .next v ∧ LiveEq t v ∧ t.trace = s.trace ++ es ∧ v.trace = u.trace ++ es) ∨
    (∃ e, step s = .fault e ∧ step u = .fault e) ∨ (∃ e, step s = .refused e ∧ step u = .refused e)

/-- The reserved byte has no effect: changing RXBUF[7] before any step but an exchange changes nothing in its outcome but
RXBUF[7] (R92(a)). -/
def Obligations.ReservedByteHasNoEffect : Prop :=
  ∀ (s t : State) (v : Byte), s.st ≠ sWait → step s = .next t →
    step { s with rxbuf := Memory.write s.rxbuf 7 v } = .next { t with rxbuf := Memory.write s.rxbuf 7 v }

/-- Which steps execute in a cycle is decided by RXBUF[0..5] alone: the successor of S_VALIDATE is S_UNPACK or S_RESYNC by
the magic comparison, whatever the counter, the reserved byte, the payload and PREV hold (R68, R184). -/
def Obligations.OnlyMagicSteersControl : Prop :=
  ∀ s u t r : State, s.st = sValidate → u.st = sValidate → s.turns = [] → u.turns = [] →
    (∀ k, k < 6 → s.rxByte k = u.rxByte k) → step s = .next t → step u = .next r → t.st = r.st
end

