-- ==== Sys2Proof/Laws/Scan.lean ====
section
/-! SUPPORT. The scan order in terms of the ordinal of R159: where SCANADV goes, and how far into a pass a cell lies. -/

namespace Sys2Proof.Machine

theorem yEnd_lt {c : Config} (h : 1 ≤ c.height) (x : Nat) : yEnd c x < c.height := by
  unfold yEnd; split <;> omega

theorem yStart_lt {c : Config} (h : 1 ≤ c.height) (x : Nat) : yStart c x < c.height := by
  unfold yStart; split <;> omega

/-- How far into its column a cell lies (R150). -/
theorem column_offset_lt {c : Config} {x y : Nat} (hy : y < c.height) :
    (if asc c x then y else c.height - 1 - y) < c.height := by split <;> omega

/-- The first cell of a pass has ordinal 0 (R152). -/
theorem scanOrd_start (c : Config) : scanOrd c (c.width - 1) (yStart c (c.width - 1)) = 0 := by
  unfold scanOrd yStart
  split <;> simp

theorem scanOrd_lt {c : Config} {x y : Nat} (hx : x < c.width) (hy : y < c.height) : scanOrd c x y < c.ledCount := by
  have h := column_offset_lt (c := c) (x := x) hy
  unfold scanOrd Config.ledCount
  calc _ < (c.width - 1 - x) * c.height + c.height := by omega
    _ = (c.width - 1 - x + 1) * c.height := by rw [Nat.succ_mul]
    _ ≤ c.width * c.height := Nat.mul_le_mul_right _ (by omega)

/-- The cell of an ordinal lies in the lattice (R150). -/
theorem scanCell_lt {c : Config} (hc : c.Valid) (k : Nat) :
    (scanCell c k).1 < c.width ∧ (scanCell c k).2 < c.height := by
  have hw := hc.1
  have hr : k % c.height < c.height := Nat.mod_lt _ hc.2.1
  unfold scanCell
  generalize k / c.height = q
  exact ⟨by dsimp only; omega, by dsimp only; split <;> omega⟩

/-- The cell of an ordinal computed from a column and an offset in it (R150). -/
theorem scanCell_scanOrd {c : Config} {x y : Nat} (hx : x < c.width) (hy : y < c.height) :
    scanCell c (scanOrd c x y) = (x, y) := by
  have h := column_offset_lt (c := c) (x := x) hy
  have hd : scanOrd c x y / c.height = c.width - 1 - x := by
    unfold scanOrd
    rw [Nat.add_comm, Nat.add_mul_div_right _ _ (by omega), Nat.div_eq_of_lt h, Nat.zero_add]
  have hm : scanOrd c x y % c.height = if asc c x then y else c.height - 1 - y := by
    unfold scanOrd
    rw [Nat.add_comm, Nat.add_mul_mod_self_right, Nat.mod_eq_of_lt h]
  have hx' : c.width - 1 - (c.width - 1 - x) = x := by omega
  unfold scanCell
  rw [hd, hm, hx']
  split <;> simp only [Prod.mk.injEq, true_and]
  omega

/-- Everything SCANADV can do inside the ranges of R26: it ends the pass after the last ordinal, and otherwise goes to
the cell of the next one (R150, R154). -/
theorem State.advanceScan_cases {s : State} (hx : s.sx < s.cfg.width) (hy : s.sy < s.cfg.height) :
    (scanOrd s.cfg s.sx s.sy + 1 = s.cfg.ledCount ∧ s.sx = 0 ∧ s.sy = yEnd s.cfg 0 ∧
      s.advanceScan = { s with st := sWait }) ∨
    (∃ x y, x < s.cfg.width ∧ y < s.cfg.height ∧ scanOrd s.cfg x y = scanOrd s.cfg s.sx s.sy + 1 ∧
      ¬ (s.sx = 0 ∧ s.sy = yEnd s.cfg 0) ∧ s.advanceScan = { s with sx := x, sy := y }) := by
  unfold State.advanceScan
  by_cases h1 : s.sy = yEnd s.cfg s.sx
  · rw [if_neg (by simpa using h1)]
    have ho : scanOrd s.cfg s.sx s.sy + 1 = (s.cfg.width - 1 - s.sx + 1) * s.cfg.height := by
      rw [Nat.succ_mul, scanOrd, h1]
      unfold yEnd
      split <;> omega
    by_cases h2 : s.sx = 0
    · rw [if_neg (by simpa using h2)]
      refine .inl ⟨?_, h2, by rw [h1, h2], rfl⟩
      rw [ho, h2, Config.ledCount]; congr 1; omega
    · rw [if_pos h2]
      refine .inr ⟨s.sx - 1, yStart s.cfg (s.sx - 1), by omega, yStart_lt (by omega) _, ?_, fun h => h2 h.1, rfl⟩
      rw [ho, scanOrd, show s.cfg.width - 1 - (s.sx - 1) = s.cfg.width - 1 - s.sx + 1 by omega]
      unfold yStart
      split <;> omega
  · rw [if_pos h1]
    unfold yEnd at h1
    refine .inr ⟨s.sx, _, hx, ?_, ?_, fun h => h1 ?_, rfl⟩
    · split <;> rename_i ha <;> simp only [ha] at h1 <;> simp at h1 <;> omega
    · unfold scanOrd
      split <;> rename_i ha <;> simp only [ha, if_true, Bool.false_eq_true, if_false] at h1 ⊢ <;> omega
    · rw [h.1, h.2, yEnd]

end Sys2Proof.Machine
end

