-- ==== Sys2Proof/Laws/State.lean ====
section
/-! SUPPORT. What each named update of the state does to each field: one lemma per field per update, true by rfl. -/

namespace Sys2Proof.Machine

@[simp] theorem State.event_cfg (s : State) (e : Event) : (s.event e).cfg = s.cfg := rfl
@[simp] theorem State.event_st (s : State) (e : Event) : (s.event e).st = s.st := rfl
@[simp] theorem State.event_prev (s : State) (e : Event) : (s.event e).prev = s.prev := rfl
@[simp] theorem State.event_sync (s : State) (e : Event) : (s.event e).sync = s.sync := rfl
@[simp] theorem State.event_cur (s : State) (e : Event) : (s.event e).cur = s.cur := rfl
@[simp] theorem State.event_exp (s : State) (e : Event) : (s.event e).exp = s.exp := rfl
@[simp] theorem State.event_ux (s : State) (e : Event) : (s.event e).ux = s.ux := rfl
@[simp] theorem State.event_uy (s : State) (e : Event) : (s.event e).uy = s.uy := rfl
@[simp] theorem State.event_up (s : State) (e : Event) : (s.event e).up = s.up := rfl
@[simp] theorem State.event_sx (s : State) (e : Event) : (s.event e).sx = s.sx := rfl
@[simp] theorem State.event_sy (s : State) (e : Event) : (s.event e).sy = s.sy := rfl
@[simp] theorem State.event_col (s : State) (e : Event) : (s.event e).col = s.col := rfl
@[simp] theorem State.event_w24 (s : State) (e : Event) : (s.event e).w24 = s.w24 := rfl
@[simp] theorem State.event_ow (s : State) (e : Event) : (s.event e).ow = s.ow := rfl
@[simp] theorem State.event_rxbuf (s : State) (e : Event) : (s.event e).rxbuf = s.rxbuf := rfl
@[simp] theorem State.event_txbuf (s : State) (e : Event) : (s.event e).txbuf = s.txbuf := rfl
@[simp] theorem State.event_lattice (s : State) (e : Event) : (s.event e).lattice = s.lattice := rfl
@[simp] theorem State.event_txq (s : State) (e : Event) : (s.event e).txq = s.txq := rfl
@[simp] theorem State.event_diag (s : State) (e : Event) : (s.event e).diag = s.diag := rfl
@[simp] theorem State.event_trace (s : State) (e : Event) : (s.event e).trace = s.trace ++ [e] := rfl
@[simp] theorem State.event_upstream (s : State) (e : Event) : (s.event e).upstream = s.upstream := rfl
@[simp] theorem State.event_shiftedOut (s : State) (e : Event) : (s.event e).shiftedOut = s.shiftedOut := rfl
@[simp] theorem State.event_wire (s : State) (e : Event) : (s.event e).wire = s.wire := rfl
@[simp] theorem State.event_turns (s : State) (e : Event) : (s.event e).turns = s.turns := rfl

@[simp] theorem State.emit_cfg (s : State) (d : Diag) : (s.emit d).cfg = s.cfg := rfl
@[simp] theorem State.emit_st (s : State) (d : Diag) : (s.emit d).st = s.st := rfl
@[simp] theorem State.emit_prev (s : State) (d : Diag) : (s.emit d).prev = s.prev := rfl
@[simp] theorem State.emit_sync (s : State) (d : Diag) : (s.emit d).sync = s.sync := rfl
@[simp] theorem State.emit_cur (s : State) (d : Diag) : (s.emit d).cur = s.cur := rfl
@[simp] theorem State.emit_exp (s : State) (d : Diag) : (s.emit d).exp = s.exp := rfl
@[simp] theorem State.emit_ux (s : State) (d : Diag) : (s.emit d).ux = s.ux := rfl
@[simp] theorem State.emit_uy (s : State) (d : Diag) : (s.emit d).uy = s.uy := rfl
@[simp] theorem State.emit_up (s : State) (d : Diag) : (s.emit d).up = s.up := rfl
@[simp] theorem State.emit_sx (s : State) (d : Diag) : (s.emit d).sx = s.sx := rfl
@[simp] theorem State.emit_sy (s : State) (d : Diag) : (s.emit d).sy = s.sy := rfl
@[simp] theorem State.emit_col (s : State) (d : Diag) : (s.emit d).col = s.col := rfl
@[simp] theorem State.emit_w24 (s : State) (d : Diag) : (s.emit d).w24 = s.w24 := rfl
@[simp] theorem State.emit_ow (s : State) (d : Diag) : (s.emit d).ow = s.ow := rfl
@[simp] theorem State.emit_rxbuf (s : State) (d : Diag) : (s.emit d).rxbuf = s.rxbuf := rfl
@[simp] theorem State.emit_txbuf (s : State) (d : Diag) : (s.emit d).txbuf = s.txbuf := rfl
@[simp] theorem State.emit_lattice (s : State) (d : Diag) : (s.emit d).lattice = s.lattice := rfl
@[simp] theorem State.emit_txq (s : State) (d : Diag) : (s.emit d).txq = s.txq := rfl
@[simp] theorem State.emit_diag (s : State) (d : Diag) : (s.emit d).diag = s.diag ++ [d.record] := rfl
@[simp] theorem State.emit_trace (s : State) (d : Diag) : (s.emit d).trace = s.trace ++ [.diag d] := rfl
@[simp] theorem State.emit_upstream (s : State) (d : Diag) : (s.emit d).upstream = s.upstream := rfl
@[simp] theorem State.emit_shiftedOut (s : State) (d : Diag) : (s.emit d).shiftedOut = s.shiftedOut := rfl
@[simp] theorem State.emit_wire (s : State) (d : Diag) : (s.emit d).wire = s.wire := rfl
@[simp] theorem State.emit_turns (s : State) (d : Diag) : (s.emit d).turns = s.turns := rfl

@[simp] theorem State.txqPut_cfg (s : State) (w : Word32) : (s.txqPut w).cfg = s.cfg := rfl
@[simp] theorem State.txqPut_st (s : State) (w : Word32) : (s.txqPut w).st = s.st := rfl
@[simp] theorem State.txqPut_prev (s : State) (w : Word32) : (s.txqPut w).prev = s.prev := rfl
@[simp] theorem State.txqPut_sync (s : State) (w : Word32) : (s.txqPut w).sync = s.sync := rfl
@[simp] theorem State.txqPut_cur (s : State) (w : Word32) : (s.txqPut w).cur = s.cur := rfl
@[simp] theorem State.txqPut_exp (s : State) (w : Word32) : (s.txqPut w).exp = s.exp := rfl
@[simp] theorem State.txqPut_ux (s : State) (w : Word32) : (s.txqPut w).ux = s.ux := rfl
@[simp] theorem State.txqPut_uy (s : State) (w : Word32) : (s.txqPut w).uy = s.uy := rfl
@[simp] theorem State.txqPut_up (s : State) (w : Word32) : (s.txqPut w).up = s.up := rfl
@[simp] theorem State.txqPut_sx (s : State) (w : Word32) : (s.txqPut w).sx = s.sx := rfl
@[simp] theorem State.txqPut_sy (s : State) (w : Word32) : (s.txqPut w).sy = s.sy := rfl
@[simp] theorem State.txqPut_col (s : State) (w : Word32) : (s.txqPut w).col = s.col := rfl
@[simp] theorem State.txqPut_w24 (s : State) (w : Word32) : (s.txqPut w).w24 = s.w24 := rfl
@[simp] theorem State.txqPut_ow (s : State) (w : Word32) : (s.txqPut w).ow = s.ow := rfl
@[simp] theorem State.txqPut_rxbuf (s : State) (w : Word32) : (s.txqPut w).rxbuf = s.rxbuf := rfl
@[simp] theorem State.txqPut_txbuf (s : State) (w : Word32) : (s.txqPut w).txbuf = s.txbuf := rfl
@[simp] theorem State.txqPut_lattice (s : State) (w : Word32) : (s.txqPut w).lattice = s.lattice := rfl
@[simp] theorem State.txqPut_txq (s : State) (w : Word32) : (s.txqPut w).txq = s.txq ++ [w] := rfl
@[simp] theorem State.txqPut_diag (s : State) (w : Word32) : (s.txqPut w).diag = s.diag := rfl
@[simp] theorem State.txqPut_trace (s : State) (w : Word32) : (s.txqPut w).trace = s.trace ++ [.put w] := rfl
@[simp] theorem State.txqPut_upstream (s : State) (w : Word32) : (s.txqPut w).upstream = s.upstream := rfl
@[simp] theorem State.txqPut_shiftedOut (s : State) (w : Word32) : (s.txqPut w).shiftedOut = s.shiftedOut := rfl
@[simp] theorem State.txqPut_wire (s : State) (w : Word32) : (s.txqPut w).wire = s.wire := rfl
@[simp] theorem State.txqPut_turns (s : State) (w : Word32) : (s.txqPut w).turns = s.turns := rfl

@[simp] theorem State.clockIn_cfg (s : State) (bs : List Byte) : (s.clockIn bs).cfg = s.cfg := rfl
@[simp] theorem State.clockIn_st (s : State) (bs : List Byte) : (s.clockIn bs).st = s.st := rfl
@[simp] theorem State.clockIn_prev (s : State) (bs : List Byte) : (s.clockIn bs).prev = s.prev := rfl
@[simp] theorem State.clockIn_sync (s : State) (bs : List Byte) : (s.clockIn bs).sync = s.sync := rfl
@[simp] theorem State.clockIn_cur (s : State) (bs : List Byte) : (s.clockIn bs).cur = s.cur := rfl
@[simp] theorem State.clockIn_exp (s : State) (bs : List Byte) : (s.clockIn bs).exp = s.exp := rfl
@[simp] theorem State.clockIn_ux (s : State) (bs : List Byte) : (s.clockIn bs).ux = s.ux := rfl
@[simp] theorem State.clockIn_uy (s : State) (bs : List Byte) : (s.clockIn bs).uy = s.uy := rfl
@[simp] theorem State.clockIn_up (s : State) (bs : List Byte) : (s.clockIn bs).up = s.up := rfl
@[simp] theorem State.clockIn_sx (s : State) (bs : List Byte) : (s.clockIn bs).sx = s.sx := rfl
@[simp] theorem State.clockIn_sy (s : State) (bs : List Byte) : (s.clockIn bs).sy = s.sy := rfl
@[simp] theorem State.clockIn_col (s : State) (bs : List Byte) : (s.clockIn bs).col = s.col := rfl
@[simp] theorem State.clockIn_w24 (s : State) (bs : List Byte) : (s.clockIn bs).w24 = s.w24 := rfl
@[simp] theorem State.clockIn_ow (s : State) (bs : List Byte) : (s.clockIn bs).ow = s.ow := rfl
@[simp] theorem State.clockIn_rxbuf (s : State) (bs : List Byte) : (s.clockIn bs).rxbuf = s.rxbuf := rfl
@[simp] theorem State.clockIn_txbuf (s : State) (bs : List Byte) : (s.clockIn bs).txbuf = s.txbuf := rfl
@[simp] theorem State.clockIn_lattice (s : State) (bs : List Byte) : (s.clockIn bs).lattice = s.lattice := rfl
@[simp] theorem State.clockIn_txq (s : State) (bs : List Byte) : (s.clockIn bs).txq = s.txq := rfl
@[simp] theorem State.clockIn_diag (s : State) (bs : List Byte) : (s.clockIn bs).diag = s.diag := rfl
@[simp] theorem State.clockIn_trace (s : State) (bs : List Byte) : (s.clockIn bs).trace = s.trace := rfl
@[simp] theorem State.clockIn_upstream (s : State) (bs : List Byte) : (s.clockIn bs).upstream = s.upstream ++ bs := rfl
@[simp] theorem State.clockIn_shiftedOut (s : State) (bs : List Byte) : (s.clockIn bs).shiftedOut = s.shiftedOut := rfl
@[simp] theorem State.clockIn_wire (s : State) (bs : List Byte) : (s.clockIn bs).wire = s.wire := rfl
@[simp] theorem State.clockIn_turns (s : State) (bs : List Byte) : (s.clockIn bs).turns = s.turns := rfl

@[simp] theorem State.exchange_cfg (s : State) : s.exchange.cfg = s.cfg := rfl
@[simp] theorem State.exchange_st (s : State) : s.exchange.st = sValidate := rfl
@[simp] theorem State.exchange_prev (s : State) : s.exchange.prev = s.prev := rfl
@[simp] theorem State.exchange_sync (s : State) : s.exchange.sync = s.sync := rfl
@[simp] theorem State.exchange_cur (s : State) : s.exchange.cur = s.cur := rfl
@[simp] theorem State.exchange_exp (s : State) : s.exchange.exp = s.exp := rfl
@[simp] theorem State.exchange_ux (s : State) : s.exchange.ux = s.ux := rfl
@[simp] theorem State.exchange_uy (s : State) : s.exchange.uy = s.uy := rfl
@[simp] theorem State.exchange_up (s : State) : s.exchange.up = s.up := rfl
@[simp] theorem State.exchange_sx (s : State) : s.exchange.sx = s.sx := rfl
@[simp] theorem State.exchange_sy (s : State) : s.exchange.sy = s.sy := rfl
@[simp] theorem State.exchange_col (s : State) : s.exchange.col = s.col := rfl
@[simp] theorem State.exchange_w24 (s : State) : s.exchange.w24 = s.w24 := rfl
@[simp] theorem State.exchange_ow (s : State) : s.exchange.ow = s.ow := rfl
@[simp] theorem State.exchange_rxbuf (s : State) : s.exchange.rxbuf = Memory.ofList 0 (s.upstream.take s.cfg.frameLen) := rfl
@[simp] theorem State.exchange_txbuf (s : State) : s.exchange.txbuf = s.txbuf := rfl
@[simp] theorem State.exchange_lattice (s : State) : s.exchange.lattice = s.lattice := rfl
@[simp] theorem State.exchange_txq (s : State) : s.exchange.txq = s.txq := rfl
@[simp] theorem State.exchange_diag (s : State) : s.exchange.diag = s.diag := rfl
@[simp] theorem State.exchange_trace (s : State) : s.exchange.trace = s.trace ++ [.xchg (s.upstream.take s.cfg.frameLen)] := rfl
@[simp] theorem State.exchange_upstream (s : State) : s.exchange.upstream = s.upstream.drop s.cfg.frameLen := rfl
@[simp] theorem State.exchange_shiftedOut (s : State) : s.exchange.shiftedOut = s.shiftedOut ++ Memory.slice s.txbuf 0 s.cfg.frameLen := rfl
@[simp] theorem State.exchange_wire (s : State) : s.exchange.wire = s.wire := rfl
@[simp] theorem State.exchange_turns (s : State) : s.exchange.turns = s.turns := rfl

@[simp] theorem State.returnFromDesync_cfg (s : State) : s.returnFromDesync.cfg = s.cfg := rfl
@[simp] theorem State.returnFromDesync_st (s : State) : s.returnFromDesync.st = sWait := rfl
@[simp] theorem State.returnFromDesync_prev (s : State) : s.returnFromDesync.prev = s.prev := rfl
@[simp] theorem State.returnFromDesync_sync (s : State) : s.returnFromDesync.sync = s.sync := rfl
@[simp] theorem State.returnFromDesync_cur (s : State) : s.returnFromDesync.cur = s.cur := rfl
@[simp] theorem State.returnFromDesync_exp (s : State) : s.returnFromDesync.exp = s.exp := rfl
@[simp] theorem State.returnFromDesync_ux (s : State) : s.returnFromDesync.ux = s.ux := rfl
@[simp] theorem State.returnFromDesync_uy (s : State) : s.returnFromDesync.uy = s.uy := rfl
@[simp] theorem State.returnFromDesync_up (s : State) : s.returnFromDesync.up = s.up := rfl
@[simp] theorem State.returnFromDesync_sx (s : State) : s.returnFromDesync.sx = s.sx := rfl
@[simp] theorem State.returnFromDesync_sy (s : State) : s.returnFromDesync.sy = s.sy := rfl
@[simp] theorem State.returnFromDesync_col (s : State) : s.returnFromDesync.col = s.col := rfl
@[simp] theorem State.returnFromDesync_w24 (s : State) : s.returnFromDesync.w24 = s.w24 := rfl
@[simp] theorem State.returnFromDesync_ow (s : State) : s.returnFromDesync.ow = s.ow := rfl
@[simp] theorem State.returnFromDesync_rxbuf (s : State) : s.returnFromDesync.rxbuf = s.rxbuf := rfl
@[simp] theorem State.returnFromDesync_txbuf (s : State) : s.returnFromDesync.txbuf = s.txbuf := rfl
@[simp] theorem State.returnFromDesync_lattice (s : State) : s.returnFromDesync.lattice = s.lattice := rfl
@[simp] theorem State.returnFromDesync_txq (s : State) : s.returnFromDesync.txq = s.txq := rfl
@[simp] theorem State.returnFromDesync_diag (s : State) : s.returnFromDesync.diag = s.diag := rfl
@[simp] theorem State.returnFromDesync_trace (s : State) : s.returnFromDesync.trace = s.trace := rfl
@[simp] theorem State.returnFromDesync_upstream (s : State) : s.returnFromDesync.upstream = s.upstream := rfl
@[simp] theorem State.returnFromDesync_shiftedOut (s : State) : s.returnFromDesync.shiftedOut = s.shiftedOut := rfl
@[simp] theorem State.returnFromDesync_wire (s : State) : s.returnFromDesync.wire = s.wire := rfl
@[simp] theorem State.returnFromDesync_turns (s : State) : s.returnFromDesync.turns = s.turns := rfl

@[simp] theorem State.compareMagic_cfg (s : State) : s.compareMagic.cfg = s.cfg := rfl
@[simp] theorem State.compareMagic_st (s : State) : s.compareMagic.st = s.st := rfl
@[simp] theorem State.compareMagic_prev (s : State) : s.compareMagic.prev = s.prev := rfl
@[simp] theorem State.compareMagic_sync (s : State) : s.compareMagic.sync = s.syncNow := rfl
@[simp] theorem State.compareMagic_cur (s : State) : s.compareMagic.cur = s.cur := rfl
@[simp] theorem State.compareMagic_exp (s : State) : s.compareMagic.exp = s.exp := rfl
@[simp] theorem State.compareMagic_ux (s : State) : s.compareMagic.ux = s.ux := rfl
@[simp] theorem State.compareMagic_uy (s : State) : s.compareMagic.uy = s.uy := rfl
@[simp] theorem State.compareMagic_up (s : State) : s.compareMagic.up = s.up := rfl
@[simp] theorem State.compareMagic_sx (s : State) : s.compareMagic.sx = s.sx := rfl
@[simp] theorem State.compareMagic_sy (s : State) : s.compareMagic.sy = s.sy := rfl
@[simp] theorem State.compareMagic_col (s : State) : s.compareMagic.col = s.col := rfl
@[simp] theorem State.compareMagic_w24 (s : State) : s.compareMagic.w24 = s.w24 := rfl
@[simp] theorem State.compareMagic_ow (s : State) : s.compareMagic.ow = s.ow := rfl
@[simp] theorem State.compareMagic_rxbuf (s : State) : s.compareMagic.rxbuf = s.rxbuf := rfl
@[simp] theorem State.compareMagic_txbuf (s : State) : s.compareMagic.txbuf = s.txbuf := rfl
@[simp] theorem State.compareMagic_lattice (s : State) : s.compareMagic.lattice = s.lattice := rfl
@[simp] theorem State.compareMagic_txq (s : State) : s.compareMagic.txq = s.txq := rfl
@[simp] theorem State.compareMagic_diag (s : State) : s.compareMagic.diag = s.diag := rfl
@[simp] theorem State.compareMagic_trace (s : State) : s.compareMagic.trace = s.trace := rfl
@[simp] theorem State.compareMagic_upstream (s : State) : s.compareMagic.upstream = s.upstream := rfl
@[simp] theorem State.compareMagic_shiftedOut (s : State) : s.compareMagic.shiftedOut = s.shiftedOut := rfl
@[simp] theorem State.compareMagic_wire (s : State) : s.compareMagic.wire = s.wire := rfl
@[simp] theorem State.compareMagic_turns (s : State) : s.compareMagic.turns = s.turns := rfl

@[simp] theorem State.loadSequence_cfg (s : State) : s.loadSequence.cfg = s.cfg := rfl
@[simp] theorem State.loadSequence_st (s : State) : s.loadSequence.st = s.st := rfl
@[simp] theorem State.loadSequence_prev (s : State) : s.loadSequence.prev = s.prev := rfl
@[simp] theorem State.loadSequence_sync (s : State) : s.loadSequence.sync = s.sync := rfl
@[simp] theorem State.loadSequence_cur (s : State) : s.loadSequence.cur = s.rxByte 6 := rfl
@[simp] theorem State.loadSequence_exp (s : State) : s.loadSequence.exp = s.prev + 1 := rfl
@[simp] theorem State.loadSequence_ux (s : State) : s.loadSequence.ux = s.ux := rfl
@[simp] theorem State.loadSequence_uy (s : State) : s.loadSequence.uy = s.uy := rfl
@[simp] theorem State.loadSequence_up (s : State) : s.loadSequence.up = s.up := rfl
@[simp] theorem State.loadSequence_sx (s : State) : s.loadSequence.sx = s.sx := rfl
@[simp] theorem State.loadSequence_sy (s : State) : s.loadSequence.sy = s.sy := rfl
@[simp] theorem State.loadSequence_col (s : State) : s.loadSequence.col = s.col := rfl
@[simp] theorem State.loadSequence_w24 (s : State) : s.loadSequence.w24 = s.w24 := rfl
@[simp] theorem State.loadSequence_ow (s : State) : s.loadSequence.ow = s.ow := rfl
@[simp] theorem State.loadSequence_rxbuf (s : State) : s.loadSequence.rxbuf = s.rxbuf := rfl
@[simp] theorem State.loadSequence_txbuf (s : State) : s.loadSequence.txbuf = s.txbuf := rfl
@[simp] theorem State.loadSequence_lattice (s : State) : s.loadSequence.lattice = s.lattice := rfl
@[simp] theorem State.loadSequence_txq (s : State) : s.loadSequence.txq = s.txq := rfl
@[simp] theorem State.loadSequence_diag (s : State) : s.loadSequence.diag = s.diag := rfl
@[simp] theorem State.loadSequence_trace (s : State) : s.loadSequence.trace = s.trace := rfl
@[simp] theorem State.loadSequence_upstream (s : State) : s.loadSequence.upstream = s.upstream := rfl
@[simp] theorem State.loadSequence_shiftedOut (s : State) : s.loadSequence.shiftedOut = s.shiftedOut := rfl
@[simp] theorem State.loadSequence_wire (s : State) : s.loadSequence.wire = s.wire := rfl
@[simp] theorem State.loadSequence_turns (s : State) : s.loadSequence.turns = s.turns := rfl

@[simp] theorem State.acceptSequence_cfg (s : State) : s.acceptSequence.cfg = s.cfg := rfl
@[simp] theorem State.acceptSequence_st (s : State) : s.acceptSequence.st = s.st := rfl
@[simp] theorem State.acceptSequence_prev (s : State) : s.acceptSequence.prev = s.cur := rfl
@[simp] theorem State.acceptSequence_sync (s : State) : s.acceptSequence.sync = s.sync := rfl
@[simp] theorem State.acceptSequence_cur (s : State) : s.acceptSequence.cur = s.cur := rfl
@[simp] theorem State.acceptSequence_exp (s : State) : s.acceptSequence.exp = s.exp := rfl
@[simp] theorem State.acceptSequence_ux (s : State) : s.acceptSequence.ux = s.ux := rfl
@[simp] theorem State.acceptSequence_uy (s : State) : s.acceptSequence.uy = s.uy := rfl
@[simp] theorem State.acceptSequence_up (s : State) : s.acceptSequence.up = s.up := rfl
@[simp] theorem State.acceptSequence_sx (s : State) : s.acceptSequence.sx = s.sx := rfl
@[simp] theorem State.acceptSequence_sy (s : State) : s.acceptSequence.sy = s.sy := rfl
@[simp] theorem State.acceptSequence_col (s : State) : s.acceptSequence.col = s.col := rfl
@[simp] theorem State.acceptSequence_w24 (s : State) : s.acceptSequence.w24 = s.w24 := rfl
@[simp] theorem State.acceptSequence_ow (s : State) : s.acceptSequence.ow = s.ow := rfl
@[simp] theorem State.acceptSequence_rxbuf (s : State) : s.acceptSequence.rxbuf = s.rxbuf := rfl
@[simp] theorem State.acceptSequence_txbuf (s : State) : s.acceptSequence.txbuf = s.txbuf := rfl
@[simp] theorem State.acceptSequence_lattice (s : State) : s.acceptSequence.lattice = s.lattice := rfl
@[simp] theorem State.acceptSequence_txq (s : State) : s.acceptSequence.txq = s.txq := rfl
@[simp] theorem State.acceptSequence_diag (s : State) : s.acceptSequence.diag = s.diag := rfl
@[simp] theorem State.acceptSequence_trace (s : State) : s.acceptSequence.trace = s.trace := rfl
@[simp] theorem State.acceptSequence_upstream (s : State) : s.acceptSequence.upstream = s.upstream := rfl
@[simp] theorem State.acceptSequence_shiftedOut (s : State) : s.acceptSequence.shiftedOut = s.shiftedOut := rfl
@[simp] theorem State.acceptSequence_wire (s : State) : s.acceptSequence.wire = s.wire := rfl
@[simp] theorem State.acceptSequence_turns (s : State) : s.acceptSequence.turns = s.turns := rfl

@[simp] theorem State.startUnpack_cfg (s : State) : s.startUnpack.cfg = s.cfg := rfl
@[simp] theorem State.startUnpack_st (s : State) : s.startUnpack.st = sUnpack := rfl
@[simp] theorem State.startUnpack_prev (s : State) : s.startUnpack.prev = s.prev := rfl
@[simp] theorem State.startUnpack_sync (s : State) : s.startUnpack.sync = s.sync := rfl
@[simp] theorem State.startUnpack_cur (s : State) : s.startUnpack.cur = s.cur := rfl
@[simp] theorem State.startUnpack_exp (s : State) : s.startUnpack.exp = s.exp := rfl
@[simp] theorem State.startUnpack_ux (s : State) : s.startUnpack.ux = 0 := rfl
@[simp] theorem State.startUnpack_uy (s : State) : s.startUnpack.uy = 0 := rfl
@[simp] theorem State.startUnpack_up (s : State) : s.startUnpack.up = 8 := rfl
@[simp] theorem State.startUnpack_sx (s : State) : s.startUnpack.sx = s.sx := rfl
@[simp] theorem State.startUnpack_sy (s : State) : s.startUnpack.sy = s.sy := rfl
@[simp] theorem State.startUnpack_col (s : State) : s.startUnpack.col = s.col := rfl
@[simp] theorem State.startUnpack_w24 (s : State) : s.startUnpack.w24 = s.w24 := rfl
@[simp] theorem State.startUnpack_ow (s : State) : s.startUnpack.ow = s.ow := rfl
@[simp] theorem State.startUnpack_rxbuf (s : State) : s.startUnpack.rxbuf = s.rxbuf := rfl
@[simp] theorem State.startUnpack_txbuf (s : State) : s.startUnpack.txbuf = s.txbuf := rfl
@[simp] theorem State.startUnpack_lattice (s : State) : s.startUnpack.lattice = s.lattice := rfl
@[simp] theorem State.startUnpack_txq (s : State) : s.startUnpack.txq = s.txq := rfl
@[simp] theorem State.startUnpack_diag (s : State) : s.startUnpack.diag = s.diag := rfl
@[simp] theorem State.startUnpack_trace (s : State) : s.startUnpack.trace = s.trace := rfl
@[simp] theorem State.startUnpack_upstream (s : State) : s.startUnpack.upstream = s.upstream := rfl
@[simp] theorem State.startUnpack_shiftedOut (s : State) : s.startUnpack.shiftedOut = s.shiftedOut := rfl
@[simp] theorem State.startUnpack_wire (s : State) : s.startUnpack.wire = s.wire := rfl
@[simp] theorem State.startUnpack_turns (s : State) : s.startUnpack.turns = s.turns := rfl

@[simp] theorem State.storeRecord_cfg (s : State) : s.storeRecord.cfg = s.cfg := rfl
@[simp] theorem State.storeRecord_st (s : State) : s.storeRecord.st = s.st := rfl
@[simp] theorem State.storeRecord_prev (s : State) : s.storeRecord.prev = s.prev := rfl
@[simp] theorem State.storeRecord_sync (s : State) : s.storeRecord.sync = s.sync := rfl
@[simp] theorem State.storeRecord_cur (s : State) : s.storeRecord.cur = s.cur := rfl
@[simp] theorem State.storeRecord_exp (s : State) : s.storeRecord.exp = s.exp := rfl
@[simp] theorem State.storeRecord_ux (s : State) : s.storeRecord.ux = s.ux := rfl
@[simp] theorem State.storeRecord_uy (s : State) : s.storeRecord.uy = s.uy := rfl
@[simp] theorem State.storeRecord_up (s : State) : s.storeRecord.up = s.up + 3 := rfl
@[simp] theorem State.storeRecord_sx (s : State) : s.storeRecord.sx = s.sx := rfl
@[simp] theorem State.storeRecord_sy (s : State) : s.storeRecord.sy = s.sy := rfl
@[simp] theorem State.storeRecord_col (s : State) : s.storeRecord.col = s.pixelAt s.up := rfl
@[simp] theorem State.storeRecord_w24 (s : State) : s.storeRecord.w24 = s.w24 := rfl
@[simp] theorem State.storeRecord_ow (s : State) : s.storeRecord.ow = s.ow := rfl
@[simp] theorem State.storeRecord_rxbuf (s : State) : s.storeRecord.rxbuf = s.rxbuf := rfl
@[simp] theorem State.storeRecord_txbuf (s : State) : s.storeRecord.txbuf = s.txbuf := rfl
@[simp] theorem State.storeRecord_lattice (s : State) : s.storeRecord.lattice = Memory.write s.lattice (cellAddr s.cfg s.ux s.uy) (s.pixelAt s.up) := rfl
@[simp] theorem State.storeRecord_txq (s : State) : s.storeRecord.txq = s.txq := rfl
@[simp] theorem State.storeRecord_diag (s : State) : s.storeRecord.diag = s.diag := rfl
@[simp] theorem State.storeRecord_trace (s : State) : s.storeRecord.trace = s.trace := rfl
@[simp] theorem State.storeRecord_upstream (s : State) : s.storeRecord.upstream = s.upstream := rfl
@[simp] theorem State.storeRecord_shiftedOut (s : State) : s.storeRecord.shiftedOut = s.shiftedOut := rfl
@[simp] theorem State.storeRecord_wire (s : State) : s.storeRecord.wire = s.wire := rfl
@[simp] theorem State.storeRecord_turns (s : State) : s.storeRecord.turns = s.turns := rfl

@[simp] theorem State.startScan_cfg (s : State) : s.startScan.cfg = s.cfg := rfl
@[simp] theorem State.startScan_st (s : State) : s.startScan.st = sScan := rfl
@[simp] theorem State.startScan_prev (s : State) : s.startScan.prev = s.prev := rfl
@[simp] theorem State.startScan_sync (s : State) : s.startScan.sync = s.sync := rfl
@[simp] theorem State.startScan_cur (s : State) : s.startScan.cur = s.cur := rfl
@[simp] theorem State.startScan_exp (s : State) : s.startScan.exp = s.exp := rfl
@[simp] theorem State.startScan_ux (s : State) : s.startScan.ux = s.ux := rfl
@[simp] theorem State.startScan_uy (s : State) : s.startScan.uy = s.uy := rfl
@[simp] theorem State.startScan_up (s : State) : s.startScan.up = s.up := rfl
@[simp] theorem State.startScan_sx (s : State) : s.startScan.sx = s.cfg.width - 1 := rfl
@[simp] theorem State.startScan_sy (s : State) : s.startScan.sy = yStart s.cfg (s.cfg.width - 1) := rfl
@[simp] theorem State.startScan_col (s : State) : s.startScan.col = s.col := rfl
@[simp] theorem State.startScan_w24 (s : State) : s.startScan.w24 = s.w24 := rfl
@[simp] theorem State.startScan_ow (s : State) : s.startScan.ow = s.ow := rfl
@[simp] theorem State.startScan_rxbuf (s : State) : s.startScan.rxbuf = s.rxbuf := rfl
@[simp] theorem State.startScan_txbuf (s : State) : s.startScan.txbuf = s.txbuf := rfl
@[simp] theorem State.startScan_lattice (s : State) : s.startScan.lattice = s.lattice := rfl
@[simp] theorem State.startScan_txq (s : State) : s.startScan.txq = s.txq := rfl
@[simp] theorem State.startScan_diag (s : State) : s.startScan.diag = s.diag := rfl
@[simp] theorem State.startScan_trace (s : State) : s.startScan.trace = s.trace := rfl
@[simp] theorem State.startScan_upstream (s : State) : s.startScan.upstream = s.upstream := rfl
@[simp] theorem State.startScan_shiftedOut (s : State) : s.startScan.shiftedOut = s.shiftedOut := rfl
@[simp] theorem State.startScan_wire (s : State) : s.startScan.wire = s.wire := rfl
@[simp] theorem State.startScan_turns (s : State) : s.startScan.turns = s.turns := rfl

@[simp] theorem State.loadCell_cfg (s : State) : s.loadCell.cfg = s.cfg := rfl
@[simp] theorem State.loadCell_st (s : State) : s.loadCell.st = s.st := rfl
@[simp] theorem State.loadCell_prev (s : State) : s.loadCell.prev = s.prev := rfl
@[simp] theorem State.loadCell_sync (s : State) : s.loadCell.sync = s.sync := rfl
@[simp] theorem State.loadCell_cur (s : State) : s.loadCell.cur = s.cur := rfl
@[simp] theorem State.loadCell_exp (s : State) : s.loadCell.exp = s.exp := rfl
@[simp] theorem State.loadCell_ux (s : State) : s.loadCell.ux = s.ux := rfl
@[simp] theorem State.loadCell_uy (s : State) : s.loadCell.uy = s.uy := rfl
@[simp] theorem State.loadCell_up (s : State) : s.loadCell.up = s.up := rfl
@[simp] theorem State.loadCell_sx (s : State) : s.loadCell.sx = s.sx := rfl
@[simp] theorem State.loadCell_sy (s : State) : s.loadCell.sy = s.sy := rfl
@[simp] theorem State.loadCell_col (s : State) : s.loadCell.col = s.cell s.sx s.sy := rfl
@[simp] theorem State.loadCell_w24 (s : State) : s.loadCell.w24 = s.w24 := rfl
@[simp] theorem State.loadCell_ow (s : State) : s.loadCell.ow = s.ow := rfl
@[simp] theorem State.loadCell_rxbuf (s : State) : s.loadCell.rxbuf = s.rxbuf := rfl
@[simp] theorem State.loadCell_txbuf (s : State) : s.loadCell.txbuf = s.txbuf := rfl
@[simp] theorem State.loadCell_lattice (s : State) : s.loadCell.lattice = s.lattice := rfl
@[simp] theorem State.loadCell_txq (s : State) : s.loadCell.txq = s.txq := rfl
@[simp] theorem State.loadCell_diag (s : State) : s.loadCell.diag = s.diag := rfl
@[simp] theorem State.loadCell_trace (s : State) : s.loadCell.trace = s.trace := rfl
@[simp] theorem State.loadCell_upstream (s : State) : s.loadCell.upstream = s.upstream := rfl
@[simp] theorem State.loadCell_shiftedOut (s : State) : s.loadCell.shiftedOut = s.shiftedOut := rfl
@[simp] theorem State.loadCell_wire (s : State) : s.loadCell.wire = s.wire := rfl
@[simp] theorem State.loadCell_turns (s : State) : s.loadCell.turns = s.turns := rfl

@[simp] theorem State.serialize_cfg (s : State) : s.serialize.cfg = s.cfg := rfl
@[simp] theorem State.serialize_st (s : State) : s.serialize.st = s.st := rfl
@[simp] theorem State.serialize_prev (s : State) : s.serialize.prev = s.prev := rfl
@[simp] theorem State.serialize_sync (s : State) : s.serialize.sync = s.sync := rfl
@[simp] theorem State.serialize_cur (s : State) : s.serialize.cur = s.cur := rfl
@[simp] theorem State.serialize_exp (s : State) : s.serialize.exp = s.exp := rfl
@[simp] theorem State.serialize_ux (s : State) : s.serialize.ux = s.ux := rfl
@[simp] theorem State.serialize_uy (s : State) : s.serialize.uy = s.uy := rfl
@[simp] theorem State.serialize_up (s : State) : s.serialize.up = s.up := rfl
@[simp] theorem State.serialize_sx (s : State) : s.serialize.sx = s.sx := rfl
@[simp] theorem State.serialize_sy (s : State) : s.serialize.sy = s.sy := rfl
@[simp] theorem State.serialize_col (s : State) : s.serialize.col = s.col := rfl
@[simp] theorem State.serialize_w24 (s : State) : s.serialize.w24 = ser s.col := rfl
@[simp] theorem State.serialize_ow (s : State) : s.serialize.ow = s.ow := rfl
@[simp] theorem State.serialize_rxbuf (s : State) : s.serialize.rxbuf = s.rxbuf := rfl
@[simp] theorem State.serialize_txbuf (s : State) : s.serialize.txbuf = s.txbuf := rfl
@[simp] theorem State.serialize_lattice (s : State) : s.serialize.lattice = s.lattice := rfl
@[simp] theorem State.serialize_txq (s : State) : s.serialize.txq = s.txq := rfl
@[simp] theorem State.serialize_diag (s : State) : s.serialize.diag = s.diag := rfl
@[simp] theorem State.serialize_trace (s : State) : s.serialize.trace = s.trace := rfl
@[simp] theorem State.serialize_upstream (s : State) : s.serialize.upstream = s.upstream := rfl
@[simp] theorem State.serialize_shiftedOut (s : State) : s.serialize.shiftedOut = s.shiftedOut := rfl
@[simp] theorem State.serialize_wire (s : State) : s.serialize.wire = s.wire := rfl
@[simp] theorem State.serialize_turns (s : State) : s.serialize.turns = s.turns := rfl

@[simp] theorem State.align_cfg (s : State) : s.align.cfg = s.cfg := rfl
@[simp] theorem State.align_st (s : State) : s.align.st = s.st := rfl
@[simp] theorem State.align_prev (s : State) : s.align.prev = s.prev := rfl
@[simp] theorem State.align_sync (s : State) : s.align.sync = s.sync := rfl
@[simp] theorem State.align_cur (s : State) : s.align.cur = s.cur := rfl
@[simp] theorem State.align_exp (s : State) : s.align.exp = s.exp := rfl
@[simp] theorem State.align_ux (s : State) : s.align.ux = s.ux := rfl
@[simp] theorem State.align_uy (s : State) : s.align.uy = s.uy := rfl
@[simp] theorem State.align_up (s : State) : s.align.up = s.up := rfl
@[simp] theorem State.align_sx (s : State) : s.align.sx = s.sx := rfl
@[simp] theorem State.align_sy (s : State) : s.align.sy = s.sy := rfl
@[simp] theorem State.align_col (s : State) : s.align.col = s.col := rfl
@[simp] theorem State.align_w24 (s : State) : s.align.w24 = s.w24 := rfl
@[simp] theorem State.align_ow (s : State) : s.align.ow = pad s.w24 := rfl
@[simp] theorem State.align_rxbuf (s : State) : s.align.rxbuf = s.rxbuf := rfl
@[simp] theorem State.align_txbuf (s : State) : s.align.txbuf = s.txbuf := rfl
@[simp] theorem State.align_lattice (s : State) : s.align.lattice = s.lattice := rfl
@[simp] theorem State.align_txq (s : State) : s.align.txq = s.txq := rfl
@[simp] theorem State.align_diag (s : State) : s.align.diag = s.diag := rfl
@[simp] theorem State.align_trace (s : State) : s.align.trace = s.trace := rfl
@[simp] theorem State.align_upstream (s : State) : s.align.upstream = s.upstream := rfl
@[simp] theorem State.align_shiftedOut (s : State) : s.align.shiftedOut = s.shiftedOut := rfl
@[simp] theorem State.align_wire (s : State) : s.align.wire = s.wire := rfl
@[simp] theorem State.align_turns (s : State) : s.align.turns = s.turns := rfl

end Sys2Proof.Machine
end

