-- ==== Sys2Proof/Laws/Memory.lean ====
section
/-! SUPPORT. Laws of the sparse memories: read after write, the canonical form, the contents of a list. -/

namespace Sys2Proof.Machine

variable {w : Nat}

@[simp] theorem Memory.read_nil (a : Nat) : Memory.read ([] : Memory w) a = 0 := rfl

theorem Memory.read_cons (k : Nat) (v : BitVec w) (m : Memory w) (a : Nat) :
    Memory.read ((k, v) :: m) a = if k = a then v else Memory.read m a := rfl

theorem Memory.read_eq_zero_of_forall_ne (m : Memory w) (a : Nat) (h : ∀ p ∈ m, p.1 ≠ a) :
    Memory.read m a = 0 := by
  induction m with
  | nil => rfl
  | cons p m ih =>
    obtain ⟨k, v⟩ := p
    simp only [List.mem_cons, forall_eq_or_imp] at h
    rw [Memory.read_cons, if_neg h.1, ih h.2]

theorem Memory.read_erase (m : Memory w) (a b : Nat) :
    Memory.read (Memory.erase m a) b = if b = a then 0 else Memory.read m b := by
  induction m with
  | nil => simp [Memory.erase]
  | cons p m ih =>
    obtain ⟨k, v⟩ := p
    simp only [Memory.erase, List.filter_cons] at ih ⊢
    by_cases hk : k = a
    · subst hk
      simp only [ne_eq, not_true_eq_false, decide_false, Bool.false_eq_true, if_false, ih, Memory.read_cons]
      by_cases hb : b = k
      · simp [hb]
      · simp [hb, Ne.symm hb]
    · simp only [ne_eq, hk, not_false_eq_true, decide_true, if_true, Memory.read_cons, ih]
      by_cases hb : b = a
      · subst hb; simp [hk]
      · simp [hb]

theorem Memory.read_insert (m : Memory w) (a b : Nat) (v : BitVec w) (h : ∀ p ∈ m, p.1 ≠ a) :
    Memory.read (Memory.insert m a v) b = if b = a then v else Memory.read m b := by
  induction m with
  | nil => simp only [Memory.insert, Memory.read_cons, eq_comm]
  | cons p m ih =>
    obtain ⟨k, u⟩ := p
    simp only [List.mem_cons, forall_eq_or_imp] at h
    by_cases hk : a < k
    · simp only [Memory.insert, if_pos hk, Memory.read_cons a, eq_comm (a := a)]
    · simp only [Memory.insert, if_neg hk, Memory.read_cons, ih h.2]
      by_cases hb : k = b
      · subst hb; simp [h.1]
      · simp [hb]

theorem Memory.erase_ne (m : Memory w) (a : Nat) : ∀ p ∈ Memory.erase m a, p.1 ≠ a := by
  intro p hp
  simpa using (List.mem_filter.mp hp).2

/-- Read after write: the element written, and every other element as it was. -/
theorem Memory.read_write (m : Memory w) (a b : Nat) (v : BitVec w) :
    Memory.read (Memory.write m a v) b = if b = a then v else Memory.read m b := by
  unfold Memory.write
  split
  · rename_i h; rw [Memory.read_erase, h]
  · rw [Memory.read_insert _ _ _ _ (Memory.erase_ne m a), Memory.read_erase]; split <;> rfl

@[simp] theorem Memory.read_write_same (m : Memory w) (a : Nat) (v : BitVec w) :
    Memory.read (Memory.write m a v) a = v := by simp [Memory.read_write]

theorem Memory.read_write_other (m : Memory w) {a b : Nat} (v : BitVec w) (h : b ≠ a) :
    Memory.read (Memory.write m a v) b = Memory.read m b := by simp [Memory.read_write, h]

theorem Memory.mem_insert (m : Memory w) (a : Nat) (v : BitVec w) (p : Nat × BitVec w) :
    p ∈ Memory.insert m a v ↔ p = (a, v) ∨ p ∈ m := by
  induction m with
  | nil => simp [Memory.insert]
  | cons q m ih =>
    obtain ⟨k, u⟩ := q
    unfold Memory.insert
    split
    · simp
    · simp only [List.mem_cons, ih]; tauto

theorem Memory.wf_erase (m : Memory w) (a : Nat) (h : m.wf) : (Memory.erase m a).wf :=
  ⟨h.1.filter _, fun p hp => h.2 p (List.mem_filter.mp hp).1⟩

theorem Memory.wf_insert (m : Memory w) (a : Nat) (v : BitVec w) (h : m.wf) (hv : v ≠ 0)
    (ha : ∀ p ∈ m, p.1 ≠ a) : (Memory.insert m a v).wf := by
  refine ⟨?_, fun p hp => ?_⟩
  · induction m with
    | nil => simp [Memory.insert]
    | cons q m ih =>
      obtain ⟨k, u⟩ := q
      have hp := List.pairwise_cons.mp h.1
      simp only [List.mem_cons, forall_eq_or_imp] at ha
      unfold Memory.insert
      split
      · rename_i hk
        refine List.pairwise_cons.mpr ⟨fun p hpm => ?_, h.1⟩
        rcases List.mem_cons.mp hpm with rfl | hpm
        · exact hk
        · exact hk.trans (hp.1 p hpm)
      · refine List.pairwise_cons.mpr
          ⟨fun p hpm => ?_, ih ⟨hp.2, fun p hpm => h.2 p (List.mem_cons_of_mem _ hpm)⟩ ha.2⟩
        rcases (Memory.mem_insert m a v p).mp hpm with rfl | hpm
        · have := ha.1; simp only at this ⊢; omega
        · exact hp.1 p hpm
  · rcases (Memory.mem_insert m a v p).mp hp with rfl | hp
    · exact hv
    · exact h.2 p hp

/-- A write keeps the canonical form. -/
theorem Memory.wf_write (m : Memory w) (a : Nat) (v : BitVec w) (h : m.wf) : (Memory.write m a v).wf := by
  unfold Memory.write
  split
  · exact Memory.wf_erase m a h
  · exact Memory.wf_insert _ a v (Memory.wf_erase m a h) ‹_› (Memory.erase_ne m a)

/-- A write inside the space lists nothing outside it. -/
theorem Memory.below_write (m : Memory w) (a n : Nat) (v : BitVec w) (h : m.below n) (ha : a < n) :
    (Memory.write m a v).below n := by
  have he : (Memory.erase m a).below n := fun p hp => h p (List.mem_filter.mp hp).1
  unfold Memory.write
  split
  · exact he
  · intro p hp
    rcases (Memory.mem_insert _ a v p).mp hp with rfl | hp
    · exact ha
    · exact he p hp

theorem Memory.mem_ofList (a : Nat) (vs : List (BitVec w)) (p : Nat × BitVec w) (hp : p ∈ Memory.ofList a vs) :
    a ≤ p.1 ∧ p.1 < a + vs.length ∧ p.2 ≠ 0 := by
  induction vs generalizing a with
  | nil => simp [Memory.ofList] at hp
  | cons v vs ih =>
    unfold Memory.ofList at hp
    rw [List.length_cons]
    split at hp
    · have := ih (a + 1) hp; exact ⟨by omega, by omega, this.2.2⟩
    · rcases List.mem_cons.mp hp with rfl | hp
      · exact ⟨Nat.le_refl _, by simp, ‹_›⟩
      · have := ih (a + 1) hp; exact ⟨by omega, by omega, this.2.2⟩

/-- The memory of a list is in canonical form. -/
theorem Memory.wf_ofList (a : Nat) (vs : List (BitVec w)) : (Memory.ofList a vs).wf := by
  refine ⟨?_, fun p hp => (Memory.mem_ofList a vs p hp).2.2⟩
  induction vs generalizing a with
  | nil => simp [Memory.ofList]
  | cons v vs ih =>
    unfold Memory.ofList
    split
    · exact ih _
    · exact List.pairwise_cons.mpr ⟨fun p hp => by have := Memory.mem_ofList _ _ p hp; simp only; omega, ih _⟩

theorem Memory.below_ofList (vs : List (BitVec w)) (n : Nat) (h : vs.length ≤ n) : (Memory.ofList 0 vs).below n :=
  fun p hp => by have := Memory.mem_ofList 0 vs p hp; omega

theorem Memory.read_ofList_add (a k : Nat) (vs : List (BitVec w)) :
    Memory.read (Memory.ofList a vs) (a + k) = vs.getD k 0 := by
  induction vs generalizing a k with
  | nil => simp [Memory.ofList]
  | cons v vs ih =>
    unfold Memory.ofList
    cases k with
    | zero =>
      split
      · rename_i h
        rw [Memory.read_eq_zero_of_forall_ne _ _ fun p hp => by have := Memory.mem_ofList _ _ p hp; omega]
        simpa using h.symm
      · simp [Memory.read_cons]
    | succ k =>
      have hk : a + (k + 1) = a + 1 + k := by omega
      split
      · rw [hk, ih]; simp
      · rw [hk, Memory.read_cons, if_neg (by omega), ih]; simp

/-- Element k of the memory of a list is element k of the list. -/
@[simp] theorem Memory.read_ofList (k : Nat) (vs : List (BitVec w)) :
    Memory.read (Memory.ofList 0 vs) k = vs.getD k 0 := by
  simpa using Memory.read_ofList_add 0 k vs

@[simp] theorem Memory.length_slice (m : Memory w) (a n : Nat) : (Memory.slice m a n).length = n := by
  simp [Memory.slice]

theorem Memory.getD_slice (m : Memory w) (n k : Nat) (h : k < n) :
    (Memory.slice m 0 n).getD k 0 = Memory.read m k := by
  simp [Memory.slice, List.getD_eq_getElem?_getD, h]

theorem Memory.take_slice (m : Memory w) {k n : Nat} (h : k ≤ n) :
    (Memory.slice m 0 n).take k = Memory.slice m 0 k := by
  refine List.ext_getElem (by simp [h]) fun i h1 h2 => ?_
  simp [Memory.slice]

/-- The slice of the memory of a list is the list. -/
theorem Memory.slice_ofList (vs : List (BitVec w)) (n : Nat) (h : vs.length = n) :
    Memory.slice (Memory.ofList 0 vs) 0 n = vs := by
  refine List.ext_getElem (by simp [h]) fun i h1 h2 => ?_
  simp [Memory.slice, List.getD_eq_getElem?_getD, h2]

/-- A slice depends only on the elements in it. -/
theorem Memory.slice_congr (m m' : Memory w) (n : Nat) (h : ∀ k, k < n → Memory.read m k = Memory.read m' k) :
    Memory.slice m 0 n = Memory.slice m' 0 n := by
  refine List.map_congr_left fun k hk => h k ?_
  simpa using hk

end Sys2Proof.Machine
end

