-- ==== Sys2Proof/Laws/Select.lean ====
section
/-! SUPPORT. Which states select which operation: the SEL5 rows in terms of ST, SYNC's new value and SEQERR, and the
fetch of each state code. -/

namespace Sys2Proof.Machine

/-- The magic predicate of the buffer is what MCMP computes from its first six bytes. -/
theorem State.magicOk_rxFrame (s : State) : magicOk s.rxFrame = s.syncNow := by
  have h : (6 : Nat) ≤ s.cfg.frameLen := by simp only [Config.frameLen, Config.headerSize]; omega
  unfold State.syncNow magicOk State.rxFrame
  rw [Memory.take_slice _ h, Memory.take_slice _ (Nat.le_refl 6)]

/-- Bytes 0 to 5 of RXBUF, one by one (R121). -/
theorem State.syncNow_iff (s : State) :
    s.syncNow = true ↔ s.rxByte 0 = 0x01 ∧ s.rxByte 1 = 0x02 ∧ s.rxByte 2 = 0x04 ∧ s.rxByte 3 = 0x08 ∧
      s.rxByte 4 = 0x07 ∧ s.rxByte 5 = 0x05 := by
  simp [State.syncNow, magicOk, Memory.slice, Config.magic, List.range', State.rxByte]

@[simp] theorem State.selects_xchg (s : State) : s.selects .xchg = (s.st == sWait) := by
  simp only [State.selects, State.sel]
  generalize s.st = c; generalize s.syncNow = a; generalize s.seqerrNow = b
  revert c a b; decide

@[simp] theorem State.selects_validate (s : State) : s.selects .validate = (s.st == sValidate) := by
  simp only [State.selects, State.sel]
  generalize s.st = c; generalize s.syncNow = a; generalize s.seqerrNow = b
  revert c a b; decide

@[simp] theorem State.selects_mcmp (s : State) : s.selects .mcmp = (s.st == sValidate) := by
  simp only [State.selects, State.sel]
  generalize s.st = c; generalize s.syncNow = a; generalize s.seqerrNow = b
  revert c a b; decide

@[simp] theorem State.selects_seqchk (s : State) : s.selects .seqchk = (s.st == sValidate && s.syncNow) := by
  simp only [State.selects, State.sel]
  generalize s.st = c; generalize s.syncNow = a; generalize s.seqerrNow = b
  revert c a b; decide

@[simp] theorem State.selects_diagSeq (s : State) :
    s.selects .diagSeq = (s.st == sValidate && s.syncNow && s.seqerrNow) := by
  simp only [State.selects, State.sel]
  generalize s.st = c; generalize s.syncNow = a; generalize s.seqerrNow = b
  revert c a b; decide

@[simp] theorem State.selects_sequpd (s : State) : s.selects .sequpd = (s.st == sValidate && s.syncNow) := by
  simp only [State.selects, State.sel]
  generalize s.st = c; generalize s.syncNow = a; generalize s.seqerrNow = b
  revert c a b; decide

@[simp] theorem State.selects_unpk1 (s : State) : s.selects .unpk1 = (s.st == sUnpack) := by
  simp only [State.selects, State.sel]
  generalize s.st = c; generalize s.syncNow = a; generalize s.seqerrNow = b
  revert c a b; decide

@[simp] theorem State.selects_emit1 (s : State) : s.selects .emit1 = (s.st == sScan) := by
  simp only [State.selects, State.sel]
  generalize s.st = c; generalize s.syncNow = a; generalize s.seqerrNow = b
  revert c a b; decide

@[simp] theorem State.selects_ser (s : State) : s.selects .ser = (s.st == sScan) := by
  simp only [State.selects, State.sel]
  generalize s.st = c; generalize s.syncNow = a; generalize s.seqerrNow = b
  revert c a b; decide

@[simp] theorem State.selects_pad (s : State) : s.selects .pad = (s.st == sScan) := by
  simp only [State.selects, State.sel]
  generalize s.st = c; generalize s.syncNow = a; generalize s.seqerrNow = b
  revert c a b; decide

@[simp] theorem State.selects_put (s : State) : s.selects .put = (s.st == sScan) := by
  simp only [State.selects, State.sel]
  generalize s.st = c; generalize s.syncNow = a; generalize s.seqerrNow = b
  revert c a b; decide

@[simp] theorem State.selects_scanadv (s : State) : s.selects .scanadv = (s.st == sScan) := by
  simp only [State.selects, State.sel]
  generalize s.st = c; generalize s.syncNow = a; generalize s.seqerrNow = b
  revert c a b; decide

@[simp] theorem State.selects_resync (s : State) : s.selects .resync = (s.st == sResync) := by
  simp only [State.selects, State.sel]
  generalize s.st = c; generalize s.syncNow = a; generalize s.seqerrNow = b
  revert c a b; decide

@[simp] theorem State.selects_diagDesync (s : State) : s.selects .diagDesync = (s.st == sResync) := by
  simp only [State.selects, State.sel]
  generalize s.st = c; generalize s.syncNow = a; generalize s.seqerrNow = b
  revert c a b; decide

@[simp] theorem State.selects_reinit (s : State) : s.selects .reinit = (s.st == sResync) := by
  simp only [State.selects, State.sel]
  generalize s.st = c; generalize s.syncNow = a; generalize s.seqerrNow = b
  revert c a b; decide

/-- The operation a state fetches depends on ST alone (R95). -/
theorem State.fetch_eq (s : State) :
    s.fetch =
      if s.st = sWait then .ok .xchg else if s.st = sValidate then .ok .validate
      else if s.st = sUnpack then .ok .unpk1 else if s.st = sScan then .ok .emit1
      else if s.st = sResync then .ok .resync else .error .unusedState := by
  have h : ∀ (c : StCode) (a b : Bool), (decodeSel (c ++ BitVec.ofBool a ++ BitVec.ofBool b)) =
      if c = sWait then .ok .xchg else if c = sValidate then .ok .validate
      else if c = sUnpack then .ok .unpk1 else if c = sScan then .ok .emit1
      else if c = sResync then .ok .resync else .error .unusedState := by
    intro c a b
    have hc : c.toNat < 8 := c.isLt
    obtain rfl | rfl | rfl | rfl | rfl | rfl | rfl | rfl :
        c = 0 ∨ c = 1 ∨ c = 2 ∨ c = 3 ∨ c = 4 ∨ c = 5 ∨ c = 6 ∨ c = 7 := by bv_omega
    all_goals cases a <;> cases b <;> rfl
  exact h _ _ _

end Sys2Proof.Machine
end

