-- ==== Sys2Proof/Laws/Step.lean ====
section
/-! SUPPORT. Everything a step can do: the outcome of each shared operation, the sequencer's move by ST, and the inversion
of a step that answers a next state. -/

namespace Sys2Proof.Machine

theorem whenSelected_of {b : Bool} {s : State} {body : State → Result} (hc : s.cfg.Valid) (hb : b = true) :
    whenSelected b s body = body s := by
  simp only [whenSelected, if_pos hc, hb, if_true]

/-- An operation that answers a next state was selected, in a QFS configuration. -/
theorem whenSelected_next {b : Bool} {s t : State} {body : State → Result} (h : whenSelected b s body = .next t) :
    s.cfg.Valid ∧ b = true ∧ body s = .next t := by
  unfold whenSelected at h
  split at h
  · split at h
    · exact ⟨‹_›, ‹_›, h⟩
    · cases h
  · cases h

theorem whenSelected_invalid {b : Bool} {s : State} {body : State → Result} (hc : ¬ s.cfg.Valid) :
    whenSelected b s body = .refused .notAConfiguration := by
  simp only [whenSelected, if_neg hc]

theorem whenSelected_not {b : Bool} {s : State} {body : State → Result} (hc : s.cfg.Valid) (hb : b = false) :
    whenSelected b s body = .refused .notSelected := by
  simp only [whenSelected, if_pos hc, hb, Bool.false_eq_true, if_false]

@[simp] theorem andThen_next (s : State) (f : State → Result) : andThen (.next s) f = f s := rfl
@[simp] theorem andThen_fault (e : Fault) (f : State → Result) : andThen (.fault e) f = .fault e := rfl
@[simp] theorem andThen_refused (e : Refusal) (f : State → Result) : andThen (.refused e) f = .refused e := rfl

theorem andThen_eq_next {r : Result} {f : State → Result} {t : State} (h : andThen r f = .next t) :
    ∃ s, r = .next s ∧ f s = .next t := by
  cases r with
  | next s => exact ⟨s, rfl, h⟩
  | fault e => cases h
  | refused e => cases h

/-- What a turn can be: the sequencer's, with no turn scheduled or one, or an environment agent's. -/
theorem agentTurn_next {core : State → Result} {s t : State} (h : agentTurn core s = .next t) :
    (s.turns = [] ∧ core s = .next t) ∨
    (∃ ts, s.turns = .sequencer :: ts ∧ core { s with turns := ts } = .next t) ∨
    (∃ bs ts, s.turns = .transport bs :: ts ∧ t = { s with turns := ts }.clockIn bs) ∨
    (∃ ts, s.turns = .pulse :: ts ∧ t = { s with turns := ts }.pulseTake) := by
  unfold agentTurn at h
  split at h <;> rename_i hq
  · exact .inl ⟨hq, h⟩
  · exact .inr (.inl ⟨_, hq, h⟩)
  · cases h; exact .inr (.inr (.inl ⟨_, _, hq, rfl⟩))
  · cases h; exact .inr (.inr (.inr ⟨_, hq, rfl⟩))

@[simp] theorem agentTurn_nil {core : State → Result} {s : State} (h : s.turns = []) : agentTurn core s = core s := by
  simp only [agentTurn, h]

theorem step_of_turns_nil {s : State} (h : s.turns = []) : step s = sequencerMove s := agentTurn_nil h

/-- What the pulse engine's turn does. -/
theorem State.pulseTake_cases (s : State) :
    (s.txq = [] ∧ s.pulseTake = s) ∨
    (∃ w q, s.txq = w :: q ∧ s.pulseTake = { s with txq := q, wire := s.wire ++ [w] }) := by
  unfold State.pulseTake
  split <;> rename_i h
  · exact .inl ⟨h, rfl⟩
  · exact .inr ⟨_, _, h, rfl⟩

/-- The sequencer's move by ST (R95, R182). -/
theorem sequencerMove_eq {s : State} (hc : s.cfg.Valid) :
    sequencerMove s =
      if s.st = sWait then stepXchg s else if s.st = sValidate then stepValidate s
      else if s.st = sUnpack then stepUnpk1 s else if s.st = sScan then stepEmit1 s
      else if s.st = sResync then stepResync s else .fault .stuckState := by
  unfold sequencerMove
  rw [State.fetch_eq]
  split
  · rename_i i h
    split_ifs at h with h0 h1 h2 h3 h4
    · cases h; rw [if_pos h0]; exact whenSelected_of hc (by simp [h0])
    · cases h; rw [if_neg h0, if_pos h1]; exact whenSelected_of hc (by simp [h1])
    · cases h; rw [if_neg h0, if_neg h1, if_pos h2]; exact whenSelected_of hc (by simp [h2])
    · cases h; rw [if_neg h0, if_neg h1, if_neg h2, if_pos h3]; exact whenSelected_of hc (by simp [h3])
    · cases h; rw [if_neg h0, if_neg h1, if_neg h2, if_neg h3, if_pos h4]; exact whenSelected_of hc (by simp [h4])
  · rename_i h
    split_ifs at h with h0 h1 h2 h3 h4
    rw [if_neg h0, if_neg h1, if_neg h2, if_neg h3, if_neg h4]

theorem sequencerMove_wait {s : State} (hc : s.cfg.Valid) (h : s.st = sWait) : sequencerMove s = stepXchg s := by
  rw [sequencerMove_eq hc, if_pos h]

theorem sequencerMove_validate {s : State} (hc : s.cfg.Valid) (h : s.st = sValidate) :
    sequencerMove s = stepValidate s := by
  rw [sequencerMove_eq hc, if_neg (by rw [h]; decide), if_pos h]

theorem sequencerMove_unpack {s : State} (hc : s.cfg.Valid) (h : s.st = sUnpack) : sequencerMove s = stepUnpk1 s := by
  rw [sequencerMove_eq hc, if_neg (by rw [h]; decide), if_neg (by rw [h]; decide), if_pos h]

theorem sequencerMove_scan {s : State} (hc : s.cfg.Valid) (h : s.st = sScan) : sequencerMove s = stepEmit1 s := by
  rw [sequencerMove_eq hc, if_neg (by rw [h]; decide), if_neg (by rw [h]; decide), if_neg (by rw [h]; decide),
    if_pos h]

theorem sequencerMove_resync {s : State} (hc : s.cfg.Valid) (h : s.st = sResync) :
    sequencerMove s = stepResync s := by
  rw [sequencerMove_eq hc, if_neg (by rw [h]; decide), if_neg (by rw [h]; decide), if_neg (by rw [h]; decide),
    if_neg (by rw [h]; decide), if_pos h]

/-- The moves of the sequencer: the rows of R182, and the two holds (R111, R171). -/
inductive CoreMove (s : State) : State → Prop
  | exchange (st : s.st = sWait) (ready : s.exchangeReady = true) : CoreMove s s.exchange
  | heldWait (st : s.st = sWait) (busy : s.exchangeReady = false) : CoreMove s s
  | validate (st : s.st = sValidate) : CoreMove s s.validated
  | unpack (st : s.st = sUnpack) (ok : s.unpackIndexOk = true) : CoreMove s s.storeRecord.advanceUnpack
  | emit (st : s.st = sScan) (ok : s.scanIndexOk = true) (room : s.txqFull = false) : CoreMove s s.emitPixel
  | heldScan (st : s.st = sScan) (ok : s.scanIndexOk = true) (full : s.txqFull = true) : CoreMove s s
  | resync (st : s.st = sResync) : CoreMove s s.resynced

/-- Everything a sequencer's move can do. -/
theorem sequencerMove_next {s t : State} (h : sequencerMove s = .next t) : s.cfg.Valid ∧ CoreMove s t := by
  have hc : s.cfg.Valid := by
    unfold sequencerMove at h
    rw [State.fetch_eq] at h
    split at h
    · rename_i i hi
      split_ifs at hi <;> cases hi <;> exact (whenSelected_next h).1
    · cases h
  refine ⟨hc, ?_⟩
  rw [sequencerMove_eq hc] at h
  split_ifs at h with h0 h1 h2 h3 h4
  · unfold stepXchg at h
    split at h <;> cases h
    · exact .exchange h0 ‹_›
    · exact .heldWait h0 (Bool.eq_false_iff.mpr ‹_›)
  · cases h; exact .validate h1
  · unfold stepUnpk1 at h
    split at h <;> cases h
    exact .unpack h2 ‹_›
  · unfold stepEmit1 at h
    split at h
    · split at h <;> cases h
      · exact .heldScan h3 ‹_› ‹_›
      · exact .emit h3 ‹_› (Bool.eq_false_iff.mpr ‹_›)
    · cases h
  · cases h; exact .resync h4

/-- Each move of the sequencer is its move in a QFS configuration: the converse of `sequencerMove_next`. -/
theorem CoreMove.sequencerMove {s t : State} (h : CoreMove s t) (hc : s.cfg.Valid) :
    Machine.sequencerMove s = .next t := by
  cases h with
  | exchange st ready => rw [sequencerMove_wait hc st, stepXchg, if_pos ready]
  | heldWait st busy => rw [sequencerMove_wait hc st, stepXchg, if_neg (by rw [busy]; decide)]
  | validate st => rw [sequencerMove_validate hc st, stepValidate]
  | unpack st ok => rw [sequencerMove_unpack hc st, stepUnpk1, if_pos ok]
  | emit st ok room => rw [sequencerMove_scan hc st, stepEmit1, if_pos ok, if_neg (by rw [room]; decide)]
  | heldScan st ok full => rw [sequencerMove_scan hc st, stepEmit1, if_pos ok, if_pos full]
  | resync st => rw [sequencerMove_resync hc st, stepResync]

/-- A step that answers a next state: a sequencer's move from s with the turn taken, or an environment agent's turn. -/
theorem step_next {s t : State} (h : step s = .next t) :
    (∃ ts, s.cfg.Valid ∧ CoreMove { s with turns := ts } t) ∨
    (∃ bs ts, t = { s with turns := ts }.clockIn bs) ∨ (∃ ts, t = { s with turns := ts }.pulseTake) := by
  rcases agentTurn_next h with ⟨hq, h⟩ | ⟨ts, hq, h⟩ | ⟨bs, ts, hq, h⟩ | ⟨ts, hq, h⟩
  · have := sequencerMove_next h
    exact .inl ⟨s.turns, this.1, this.2⟩
  · exact .inl ⟨ts, sequencerMove_next h⟩
  · exact .inr (.inl ⟨bs, ts, h⟩)
  · exact .inr (.inr ⟨ts, h⟩)

end Sys2Proof.Machine
end

