-- ==== Sys2Proof/Laws/Passes.lean ====
section
/-! SUPPORT. The two passes over the lattice, by induction on what is left of them: the phase of the pseudo-operation, the
run of steps and the list of primary operations reach one and the same state. -/

namespace Sys2Proof.Machine

theorem phase_of_ne {code : StCode} {op : State → Result} {s : State} (h : s.st ≠ code) (n : Nat) :
    phase code op n s = .next s := by
  cases n with
  | zero => rfl
  | succ n => simp only [phase, if_neg h]

theorem phase_succ {code : StCode} {op : State → Result} {s : State} (h : s.st = code) (ht : s.turns = []) (n : Nat) :
    phase code op (n + 1) s = andThen (op s) (phase code op n) := by
  simp only [phase, if_pos h, agentTurn_nil ht]

/-- A phase of one step that leaves its state code. -/
theorem phase_one {code : StCode} {op : State → Result} {s t : State} (h : s.st = code) (ht : s.turns = [])
    (ho : op s = .next t) (hc : t.st ≠ code) {n : Nat} (hn : 1 ≤ n) : phase code op n s = .next t := by
  obtain ⟨n, rfl⟩ : ∃ m, n = m + 1 := ⟨n - 1, by omega⟩
  rw [phase_succ h ht, ho, andThen_next, phase_of_ne hc]

/-- A property that the step of a phase and the environment's turns keep is kept by the whole phase. -/
theorem phase_keeps {P : State → Prop} {code : StCode} {op : State → Result}
    (hop : ∀ s t, P s → op s = .next t → P t) (hturns : ∀ s ts, P s → P { s with turns := ts })
    (hclock : ∀ s bs, P s → P (s.clockIn bs)) (hpulse : ∀ s, P s → P s.pulseTake)
    (n : Nat) {s t : State} (hs : P s) (h : phase code op n s = .next t) : P t := by
  induction n generalizing s with
  | zero => cases h; exact hs
  | succ n ih =>
    unfold phase at h
    split at h
    · obtain ⟨u, hu, h⟩ := andThen_eq_next h
      refine ih ?_ h
      rcases agentTurn_next hu with ⟨_, hu⟩ | ⟨ts, _, hu⟩ | ⟨bs, ts, _, rfl⟩ | ⟨ts, _, rfl⟩
      · exact hop _ _ hs hu
      · exact hop _ _ (hturns _ ts hs) hu
      · exact hclock _ bs (hturns _ ts hs)
      · exact hpulse _ (hturns _ ts hs)
    · cases h; exact hs

theorem runSteps_succ {s t : State} (h : step s = .next t) (n : Nat) : runSteps (n + 1) s = runSteps n t := by
  rw [runSteps, h, andThen_next]

theorem runAll_cons {i : Instr} {s t : State} (h : exec i s = .next t) (is : List Instr) :
    runAll (i :: is) s = runAll is t := by
  simp only [runAll, h, andThen_next]

theorem runAll_append (is js : List Instr) (s : State) : runAll (is ++ js) s = andThen (runAll is s) (runAll js) := by
  induction is generalizing s with
  | nil => rfl
  | cons i is ih =>
    simp only [List.cons_append, runAll]
    cases exec i s with
    | next t => exact ih t
    | fault e => rfl
    | refused e => rfl

theorem runSteps_add (m n : Nat) (s : State) : runSteps (m + n) s = andThen (runSteps m s) (runSteps n) := by
  induction m generalizing s with
  | zero => rw [Nat.zero_add]; rfl
  | succ m ih =>
    rw [show m + 1 + n = m + n + 1 by omega]
    rw [runSteps, runSteps]
    cases step s with
    | next t => exact ih t
    | fault e => rfl
    | refused e => rfl

/-- Pixel record j of the buffer in RXBUF (R84). -/
theorem State.recordCell_rxFrame (s : State) {j : Nat} (h : j < s.cfg.ledCount) :
    recordCell s.rxFrame j = s.pixelAt (8 + 3 * j) := by
  have hl : 8 + 3 * j + 2 < s.cfg.frameLen := by simp only [Config.frameLen, Config.headerSize]; omega
  simp only [recordCell, State.rxFrame, State.pixelAt, State.rxByte]
  rw [Memory.getD_slice _ _ _ (by omega), Memory.getD_slice _ _ _ (by omega), Memory.getD_slice _ _ _ (by omega)]

theorem cellAddr_lt {c : Config} {x y : Nat} (hx : x < c.width) (hy : y < c.height) : cellAddr c x y < c.ledCount := by
  unfold cellAddr Config.ledCount
  calc _ < y * c.width + c.width := by omega
    _ = (y + 1) * c.width := by rw [Nat.succ_mul]
    _ ≤ c.height * c.width := Nat.mul_le_mul_right _ (by omega)
    _ = c.width * c.height := Nat.mul_comm _ _

/-- Everything UNPK1 can do to its indices inside the ranges of R25: it ends the pass after the last record, and otherwise
goes to the cell of the next one (R137). -/
theorem State.advanceUnpack_cases {s : State} (hx : s.ux < s.cfg.width) (hy : s.uy < s.cfg.height) :
    (cellAddr s.cfg s.ux s.uy + 1 = s.cfg.ledCount ∧ s.ux + 1 = s.cfg.width ∧ s.uy + 1 = s.cfg.height ∧
      s.advanceUnpack = { s with ux := 0 }.startScan) ∨
    (∃ x y, x < s.cfg.width ∧ y < s.cfg.height ∧ cellAddr s.cfg x y = cellAddr s.cfg s.ux s.uy + 1 ∧
      s.advanceUnpack = { s with ux := x, uy := y }) := by
  unfold State.advanceUnpack cellAddr
  by_cases h1 : s.ux + 1 = s.cfg.width
  · rw [if_pos h1]
    by_cases h2 : s.uy + 1 = s.cfg.height
    · rw [if_pos h2]
      refine .inl ⟨?_, h1, h2, rfl⟩
      rw [Config.ledCount, Nat.mul_comm s.cfg.width, ← h2, Nat.succ_mul]; omega
    · rw [if_neg h2]
      refine .inr ⟨0, s.uy + 1, by omega, by omega, ?_, rfl⟩
      rw [Nat.succ_mul]; omega
  · rw [if_neg h1]
    exact .inr ⟨s.ux + 1, s.uy, by omega, hy, by omega, rfl⟩

theorem State.unpackIndexOk_of {s : State} (hx : s.ux < s.cfg.width) (hy : s.uy < s.cfg.height)
    (hu : s.up = 8 + 3 * cellAddr s.cfg s.ux s.uy) : s.unpackIndexOk = true := by
  have := cellAddr_lt hx hy
  have hn : s.cfg.frameLen = 8 + 3 * s.cfg.ledCount := rfl
  simp only [State.unpackIndexOk, Bool.and_eq_true, decide_eq_true_eq, beq_iff_eq]
  refine ⟨⟨⟨⟨hx, hy⟩, ?_⟩, ?_⟩, ?_⟩ <;> omega

/-- What is true of a state t that the unpack pass reaches from s (R136 to R138). -/
structure UnpackPass (s t : State) : Prop where
  cells : ∀ j, cellAddr s.cfg s.ux s.uy ≤ j → j < s.cfg.ledCount → Memory.read t.lattice j = s.pixelAt (8 + 3 * j)
  rest : ∀ j, j < cellAddr s.cfg s.ux s.uy ∨ s.cfg.ledCount ≤ j → Memory.read t.lattice j = Memory.read s.lattice j
  frame : t = { s with
    col := t.col, lattice := t.lattice, ux := t.ux, uy := t.uy, up := t.up
    sx := s.cfg.width - 1, sy := yStart s.cfg (s.cfg.width - 1), st := sScan }

/-- The unpack pass from any of its cells, in its three forms. -/
theorem unpack_pass (k : Nat) {s : State} (hc : s.cfg.Valid) (hs : s.st = sUnpack) (ht : s.turns = [])
    (hx : s.ux < s.cfg.width) (hy : s.uy < s.cfg.height) (hu : s.up = 8 + 3 * cellAddr s.cfg s.ux s.uy)
    (hk : cellAddr s.cfg s.ux s.uy + k = s.cfg.ledCount) :
    ∃ t, UnpackPass s t ∧ (∀ n, k ≤ n → phase sUnpack stepUnpk1 n s = .next t) ∧ runSteps k s = .next t ∧
      runAll (List.replicate k .unpk1) s = .next t := by
  induction k generalizing s with
  | zero => have := cellAddr_lt hx hy; omega
  | succ k ih =>
    have hop : stepUnpk1 s = .next s.storeRecord.advanceUnpack := by
      rw [stepUnpk1, if_pos (State.unpackIndexOk_of hx hy hu)]
    have hst : step s = .next s.storeRecord.advanceUnpack := by
      rw [step_of_turns_nil ht, sequencerMove_eq hc]; simp [hs, hop]
    have hex : exec .unpk1 s = .next s.storeRecord.advanceUnpack := by
      rw [exec, execUnpk1, whenSelected_of hc (by simp [hs]), hop]
    have hw : ∀ j, Memory.read s.storeRecord.lattice j =
        if j = cellAddr s.cfg s.ux s.uy then s.pixelAt s.up else Memory.read s.lattice j := fun j =>
      Memory.read_write _ _ _ _
    rcases State.advanceUnpack_cases (s := s.storeRecord) hx hy with ⟨hl, _, _, ha⟩ | ⟨x, y, hx', hy', hn, ha⟩
    · have hk0 : k = 0 := by simp only [State.storeRecord_cfg, State.storeRecord_ux, State.storeRecord_uy] at hl; omega
      subst hk0
      rw [ha] at hop hst hex
      refine ⟨{ s.storeRecord with ux := 0 }.startScan, ⟨fun j h1 h2 => ?_, fun j h => ?_, rfl⟩, fun n hn => ?_, ?_, ?_⟩
      · refine (hw j).trans ?_
        rw [if_pos (by omega), hu]; congr 2; congr 1; omega
      · exact (hw j).trans (if_neg (by omega))
      · exact phase_one hs ht hop (by simp) hn
      · rw [runSteps_succ hst]; rfl
      · rw [List.replicate_succ, runAll_cons hex]; rfl
    · simp only [State.storeRecord_cfg, State.storeRecord_ux, State.storeRecord_uy] at hx' hy' hn
      rw [ha] at hop hst hex
      obtain ⟨t, ⟨h1, h2, h3⟩, h4, h5, h6⟩ := ih (s := { s.storeRecord with ux := x, uy := y }) hc hs ht hx' hy'
        (by simp only [State.storeRecord_cfg, State.storeRecord_up, hn, hu]; omega)
        (by simp only [State.storeRecord_cfg, hn]; omega)
      simp only [State.storeRecord_cfg, hn] at h1 h2 h3
      refine ⟨t, ⟨fun j h7 h8 => ?_, fun j h => ?_, h3⟩, fun n hn' => ?_, ?_, ?_⟩
      · by_cases hj : j = cellAddr s.cfg s.ux s.uy
        · refine (h2 j (by omega)).trans ((hw j).trans ?_)
          rw [if_pos hj, hu, hj]
        · exact h1 j (by omega) h8
      · refine (h2 j (by omega)).trans ((hw j).trans (if_neg ?_))
        have := cellAddr_lt hx hy
        omega
      · obtain ⟨n, rfl⟩ : ∃ m, n = m + 1 := ⟨n - 1, by omega⟩
        rw [phase_succ hs ht, hop, andThen_next]
        exact h4 n (by omega)
      · rw [runSteps_succ hst]; exact h5
      · rw [List.replicate_succ, runAll_cons hex]; exact h6

/-- The words a render pass still puts from ordinal k on (R150, R157). -/
theorem renderWords_drop (c : Config) (cellAt : Nat → Nat → Word24) {x y : Nat} (hx : x < c.width) (hy : y < c.height) :
    (renderWords c cellAt).drop (scanOrd c x y) =
      outWord (cellAt x y) :: (renderWords c cellAt).drop (scanOrd c x y + 1) := by
  have hl : (renderWords c cellAt).length = c.ledCount := by simp [renderWords]
  have ho := scanOrd_lt hx hy
  rw [List.drop_eq_getElem_cons (by omega)]
  congr 1
  simp [renderWords, scanCell_scanOrd hx hy]

/-- What is true of a state t that the render pass reaches from s (R150, R157). -/
structure RenderPass (s t : State) : Prop where
  events : t.trace = s.trace ++ ((renderWords s.cfg s.cell).drop (scanOrd s.cfg s.sx s.sy)).map .put
  queue : t.txq = s.txq ++ (renderWords s.cfg s.cell).drop (scanOrd s.cfg s.sx s.sy)
  frame : t = { s with
    col := t.col, w24 := t.w24, ow := t.ow, txq := t.txq, trace := t.trace, sx := t.sx, sy := t.sy, st := sWait }

/-- The render pass from any of its cells, with room in the queue for the words still to come, in its three forms. -/
theorem render_pass (k : Nat) {s : State} (hc : s.cfg.Valid) (hs : s.st = sScan) (ht : s.turns = [])
    (hx : s.sx < s.cfg.width) (hy : s.sy < s.cfg.height) (hk : scanOrd s.cfg s.sx s.sy + k = s.cfg.ledCount)
    (hq : s.txq.length + k ≤ s.cfg.txqDepth) :
    ∃ t, RenderPass s t ∧ (∀ n, k ≤ n → phase sScan stepEmit1 n s = .next t) ∧ runSteps k s = .next t ∧
      runAll (List.replicate k .emit1) s = .next t := by
  induction k generalizing s with
  | zero => have := scanOrd_lt hx hy; omega
  | succ k ih =>
    have hok : s.scanIndexOk = true := by simp [State.scanIndexOk, hx, hy]
    have hroom : s.txqFull = false := by simp only [State.txqFull, decide_eq_false_iff_not]; omega
    have hop : stepEmit1 s = .next s.emitPixel := by simp [stepEmit1, hok, hroom]
    have hst : step s = .next s.emitPixel := by rw [step_of_turns_nil ht, sequencerMove_eq hc]; simp [hs, hop]
    have hex : exec .emit1 s = .next s.emitPixel := by
      rw [exec, execEmit1, whenSelected_of hc (by simp [hs]), hop]
    have hd := renderWords_drop s.cfg s.cell hx hy
    obtain ⟨m, hm⟩ : ∃ m, m = s.loadCell.serialize.align.putWord := ⟨_, rfl⟩
    have hmf : m = { s with
        col := m.col, w24 := m.w24, ow := m.ow, txq := s.txq ++ [outWord (s.cell s.sx s.sy)]
        trace := s.trace ++ [.put (outWord (s.cell s.sx s.sy))] } := by rw [hm]; rfl
    have he : s.emitPixel = m.advanceScan := by rw [hm]; rfl
    have mcfg : m.cfg = s.cfg := by rw [hmf]
    have mlat : m.lattice = s.lattice := by rw [hmf]
    have msx : m.sx = s.sx := by rw [hmf]
    have msy : m.sy = s.sy := by rw [hmf]
    have mq : m.txq = s.txq ++ [outWord (s.cell s.sx s.sy)] := by rw [hmf]
    have mt : m.trace = s.trace ++ [.put (outWord (s.cell s.sx s.sy))] := by rw [hmf]
    rcases State.advanceScan_cases (s := m) (by rw [msx, mcfg]; exact hx) (by rw [msy, mcfg]; exact hy) with
      ⟨hl, _, _, ha⟩ | ⟨x, y, hx', hy', hn, _, ha⟩
    · rw [mcfg, msx, msy] at hl
      have hk0 : k = 0 := by omega
      subst hk0
      have hnil : (renderWords s.cfg s.cell).drop (scanOrd s.cfg s.sx s.sy + 1) = [] := by
        rw [List.drop_eq_nil_iff]; simp [renderWords, hl]
      rw [he, ha] at hop hst hex
      refine ⟨{ m with st := sWait }, ⟨?_, ?_, ?_⟩, fun n hn => phase_one hs ht hop (by simp) hn, ?_, ?_⟩
      · rw [hd, hnil]; exact mt
      · rw [hd, hnil]; exact mq
      · rw [hmf]
      · rw [runSteps_succ hst]; rfl
      · rw [List.replicate_succ, runAll_cons hex]; rfl
    · rw [mcfg] at hx' hy' hn
      rw [msx, msy] at hn
      rw [he, ha] at hop hst hex
      obtain ⟨p, hp⟩ : ∃ p, p = { m with sx := x, sy := y } := ⟨_, rfl⟩
      have hpf : p = { s with
          col := m.col, w24 := m.w24, ow := m.ow, txq := s.txq ++ [outWord (s.cell s.sx s.sy)]
          trace := s.trace ++ [.put (outWord (s.cell s.sx s.sy))], sx := x, sy := y } := by rw [hp, hmf]
      have pcell : p.cell = s.cell := by rw [hpf]; rfl
      have pcfg : p.cfg = s.cfg := by rw [hpf]
      have psx : p.sx = x := by rw [hpf]
      have psy : p.sy = y := by rw [hpf]
      have pq : p.txq = s.txq ++ [outWord (s.cell s.sx s.sy)] := by rw [hpf]
      have pt : p.trace = s.trace ++ [.put (outWord (s.cell s.sx s.sy))] := by rw [hpf]
      rw [← hp] at hop hst hex
      obtain ⟨t, ⟨h1, h2, h3⟩, h4, h5, h6⟩ := ih (s := p) (by rw [pcfg]; exact hc) (by rw [hpf]; exact hs)
        (by rw [hpf]; exact ht) (by rw [psx, pcfg]; exact hx') (by rw [psy, pcfg]; exact hy')
        (by rw [psx, psy, pcfg]; omega) (by rw [pq, pcfg, List.length_append]; simp only [List.length_cons, List.length_nil]; omega)
      rw [pcfg, pcell, psx, psy, pt, hn] at h1
      rw [pcfg, pcell, psx, psy, pq, hn] at h2
      refine ⟨t, ⟨?_, ?_, ?_⟩, fun n hn2 => ?_, ?_, ?_⟩
      · rw [h1, hd, List.map_cons, List.append_assoc]; rfl
      · rw [h2, hd, List.append_assoc]; rfl
      · rw [h3, hpf]
      · obtain ⟨n, rfl⟩ : ∃ m, n = m + 1 := ⟨n - 1, by omega⟩
        rw [phase_succ hs ht, hop, andThen_next]
        exact h4 n (by omega)
      · rw [runSteps_succ hst]; exact h5
      · rw [List.replicate_succ, runAll_cons hex]; exact h6

end Sys2Proof.Machine
end

