-- ==== Sys2Proof/Laws/Moves.lean ====
section
/-! SUPPORT. What the composite moves of the sequencer leave, as one record update each: VALIDATE, UNPK1, EMIT1, RESYNC, with
the parts of VALIDATE. Cited in place of unfolding the composite. -/

namespace Sys2Proof.Machine

theorem putsOf_append (a b : List Event) : putsOf (a ++ b) = putsOf a ++ putsOf b := List.filterMap_append ..

theorem diagsOf_append (a b : List Event) : diagsOf (a ++ b) = diagsOf a ++ diagsOf b := List.filterMap_append ..

theorem putsOf_map_put (ws : List Word32) : putsOf (ws.map .put) = ws := by
  induction ws with
  | nil => rfl
  | cons w ws ih => exact congrArg (w :: ·) ih

/-- What SEQCHK leaves (R123). -/
theorem State.checkSequence_cases (s : State) :
    (s.rxByte 6 = s.prev + 1 ∧ s.checkSequence = { s with cur := s.rxByte 6, exp := s.prev + 1 }) ∨
    (s.rxByte 6 ≠ s.prev + 1 ∧
      s.checkSequence = { s with
        cur := s.rxByte 6, exp := s.prev + 1
        diag := s.diag ++ [(Diag.seq (s.prev + 1) (s.rxByte 6)).record]
        trace := s.trace ++ [.diag (.seq (s.prev + 1) (s.rxByte 6))] }) := by
  unfold State.checkSequence
  by_cases h : s.rxByte 6 = s.prev + 1
  · exact .inl ⟨h, if_neg (by simpa using h)⟩
  · exact .inr ⟨h, if_pos (by simpa using h)⟩

theorem State.byte6_rxFrame (s : State) : s.rxFrame.getD 6 0 = s.rxByte 6 :=
  Memory.getD_slice _ _ _ (by simp only [Config.frameLen, Config.headerSize]; omega)

/-- What VALIDATE leaves of a buffer with the magic sequence (R125). -/
theorem State.validated_sync {s : State} (hm : magicOk s.rxFrame = true) :
    s.validated = { s with
      sync := true, cur := s.rxByte 6, exp := s.prev + 1, prev := s.rxByte 6, ux := 0, uy := 0, up := 8
      st := sUnpack
      diag := s.diag ++ (diagsOf (seqEvents s.prev s.rxFrame)).map Diag.record
      trace := s.trace ++ seqEvents s.prev s.rxFrame } := by
  rw [State.magicOk_rxFrame] at hm
  unfold State.validated
  rw [if_pos (by exact hm)]
  unfold seqEvents
  rw [State.byte6_rxFrame]
  have hc : s.compareMagic = { s with sync := true } := by rw [State.compareMagic, hm]
  rcases s.compareMagic.checkSequence_cases with ⟨h, e⟩ | ⟨h, e⟩
  · have h : s.rxByte 6 = s.prev + 1 := h
    rw [e, if_neg (by simpa using h), hc]
    simp [State.startUnpack, State.acceptSequence, diagsOf, State.rxByte]
  · have h : s.rxByte 6 ≠ s.prev + 1 := h
    rw [e, if_pos h, hc]
    simp [State.startUnpack, State.acceptSequence, diagsOf, State.rxByte]

/-- What VALIDATE leaves of any other buffer (R125, R203). -/
theorem State.validated_desync {s : State} (hm : magicOk s.rxFrame = false) :
    s.validated = { s with sync := false, st := sResync } := by
  rw [State.magicOk_rxFrame] at hm
  simp [State.validated, hm, State.raise, State.compareMagic]

/-- What VALIDATE leaves. -/
theorem State.validated_cases (s : State) :
    (magicOk s.rxFrame = true ∧ s.validated = { s with
      sync := true, cur := s.rxByte 6, exp := s.prev + 1, prev := s.rxByte 6, ux := 0, uy := 0, up := 8
      st := sUnpack
      diag := s.diag ++ (diagsOf (seqEvents s.prev s.rxFrame)).map Diag.record
      trace := s.trace ++ seqEvents s.prev s.rxFrame }) ∨
    (magicOk s.rxFrame = false ∧ s.validated = { s with sync := false, st := sResync }) := by
  cases hm : magicOk s.rxFrame
  · exact .inr ⟨rfl, State.validated_desync hm⟩
  · exact .inl ⟨rfl, State.validated_sync hm⟩

/-- The five parts of EMIT1 but the last, as one update (R156). -/
theorem State.emitPixel_eq (s : State) :
    s.emitPixel = State.advanceScan { s with
      col := s.cell s.sx s.sy, w24 := ser (s.cell s.sx s.sy), ow := outWord (s.cell s.sx s.sy)
      txq := s.txq ++ [outWord (s.cell s.sx s.sy)]
      trace := s.trace ++ [.put (outWord (s.cell s.sx s.sy))] } := rfl

/-- What EMIT1 leaves, inside the ranges of R26 (R154, R156). -/
theorem State.emitPixel_cases {s : State} (hx : s.sx < s.cfg.width) (hy : s.sy < s.cfg.height) :
    (scanOrd s.cfg s.sx s.sy + 1 = s.cfg.ledCount ∧ s.sx = 0 ∧ s.sy = yEnd s.cfg 0 ∧
      s.emitPixel = { s with
        col := s.cell s.sx s.sy, w24 := ser (s.cell s.sx s.sy), ow := outWord (s.cell s.sx s.sy)
        txq := s.txq ++ [outWord (s.cell s.sx s.sy)]
        trace := s.trace ++ [.put (outWord (s.cell s.sx s.sy))], st := sWait }) ∨
    (∃ x y, x < s.cfg.width ∧ y < s.cfg.height ∧ scanOrd s.cfg x y = scanOrd s.cfg s.sx s.sy + 1 ∧
      ¬ (s.sx = 0 ∧ s.sy = yEnd s.cfg 0) ∧
      s.emitPixel = { s with
        col := s.cell s.sx s.sy, w24 := ser (s.cell s.sx s.sy), ow := outWord (s.cell s.sx s.sy)
        txq := s.txq ++ [outWord (s.cell s.sx s.sy)]
        trace := s.trace ++ [.put (outWord (s.cell s.sx s.sy))], sx := x, sy := y }) := by
  rw [State.emitPixel_eq]
  exact State.advanceScan_cases (s := { s with
      col := s.cell s.sx s.sy, w24 := ser (s.cell s.sx s.sy), ow := outWord (s.cell s.sx s.sy)
      txq := s.txq ++ [outWord (s.cell s.sx s.sy)]
      trace := s.trace ++ [.put (outWord (s.cell s.sx s.sy))] }) hx hy

/-- What RESYNC leaves (R186). -/
theorem State.resynced_eq (s : State) :
    s.resynced = { s with
      diag := s.diag ++ [Diag.desync.record], trace := s.trace ++ [.diag .desync, .reinit], st := sWait } := by
  simp [State.resynced, State.reportDesync, State.reinitTransport, State.returnFromDesync, State.emit, State.event]

theorem State.scanIndexOk_iff (s : State) : s.scanIndexOk = true ↔ s.sx < s.cfg.width ∧ s.sy < s.cfg.height := by
  simp [State.scanIndexOk]

/-- What a step needs of the unpacker's indices (R25, R44). -/
theorem State.unpackIndexOk_iff (s : State) :
    s.unpackIndexOk = true ↔
      s.ux < s.cfg.width ∧ s.uy < s.cfg.height ∧ 8 ≤ s.up ∧ s.up + 3 ≤ s.cfg.frameLen ∧ (s.up - 8) % 3 = 0 := by
  simp [State.unpackIndexOk, and_assoc]

end Sys2Proof.Machine
end

