-- ==== Sys2Proof/Laws/Words.lean ====
section
/-! SUPPORT. Laws of byte concatenation, of the header value and of the buffer formats. -/

namespace Sys2Proof

/-- A concatenation determines both its parts. -/
theorem append_inj {n m : Nat} (a b : BitVec n) (x y : BitVec m) : a ++ x = b ++ y ↔ a = b ∧ x = y := by
  constructor
  · intro h
    constructor
    · ext i hi
      have := congrArg (fun v => BitVec.getLsbD v (i + m)) h
      simp only [BitVec.getLsbD_append, show ¬ i + m < m by omega, if_false, Nat.add_sub_cancel] at this
      simpa [BitVec.getLsbD_eq_getElem, hi] using this
    · ext i hi
      have := congrArg (fun v => BitVec.getLsbD v i) h
      simp only [BitVec.getLsbD_append, hi, if_true] at this
      simpa [BitVec.getLsbD_eq_getElem, hi] using this
  · rintro ⟨rfl, rfl⟩; rfl

/-- The bits of a three-byte word. -/
theorem getLsbD_three (r g b : Byte) (i : Nat) :
    BitVec.getLsbD (r ++ g ++ b : Word24) i =
      if i < 8 then b.getLsbD i else if i < 16 then g.getLsbD (i - 8) else r.getLsbD (i - 16) := by
  rw [BitVec.getLsbD_append, BitVec.getLsbD_append]
  by_cases h : i < 8
  · simp [h]
  · simp only [h, if_false]
    by_cases h' : i < 16
    · simp [h', show i - 8 < 8 by omega]
    · simp [h', show ¬ i - 8 < 8 by omega, show i - 8 - 8 = i - 16 by omega]

/-- The bytes of a three-byte word. -/
theorem extract_three (r g b : Byte) :
    BitVec.extractLsb' 16 8 (r ++ g ++ b : Word24) = r ∧ BitVec.extractLsb' 8 8 (r ++ g ++ b : Word24) = g ∧
      BitVec.extractLsb' 0 8 (r ++ g ++ b : Word24) = b := by
  refine ⟨?_, ?_, ?_⟩ <;> refine BitVec.eq_of_getLsbD_eq fun i hi => ?_ <;>
    rw [BitVec.getLsbD_extractLsb', getLsbD_three]
  · simp [hi, show ¬ 16 + i < 8 by omega]
  · simp [hi, show 8 + i < 16 by omega]
  · simp [hi]

/-- Every 24-bit value is three bytes. -/
theorem exists_three (v : Word24) : ∃ r g b : Byte, v = r ++ g ++ b := by
  refine ⟨v.extractLsb' 16 8, v.extractLsb' 8 8, v.extractLsb' 0 8, ?_⟩
  refine BitVec.eq_of_getLsbD_eq fun i hi => ?_
  rw [getLsbD_three]
  simp only [BitVec.getLsbD_extractLsb']
  split_ifs
  · simp [*]
  · simp [show i - 8 < 8 by omega, show 8 + (i - 8) = i by omega]
  · simp [show i - 16 < 8 by omega, show 16 + (i - 16) = i by omega]

theorem and_allOnes_byte (b : Byte) : b &&& 0xff#8 = b := by
  have : (0xff#8) = BitVec.allOnes 8 := by decide
  rw [this, BitVec.and_allOnes]

/-- The mask of R90 clears the last two bytes of a header. -/
theorem header_and_mask (b0 b1 b2 b3 b4 b5 b6 b7 : Byte) :
    ((b0 ++ b1 ++ b2 ++ b3 ++ b4 ++ b5 ++ b6 ++ b7 : BitVec 64) &&& syncMask) =
      (b0 ++ b1 ++ b2 ++ b3 ++ b4 ++ b5 ++ 0#8 ++ 0#8 : BitVec 64) := by
  have : syncMask =
      (0xff#8 ++ 0xff#8 ++ 0xff#8 ++ 0xff#8 ++ 0xff#8 ++ 0xff#8 ++ 0#8 ++ 0#8 : BitVec 64) := by decide
  rw [this]
  ext i hi
  simp only [BitVec.getElem_and, BitVec.getElem_append]
  split_ifs <;> simp [← BitVec.getElem_and, and_allOnes_byte]

/-- The six comparisons of R121, as one of the masked header. -/
theorem header_eq_match (b0 b1 b2 b3 b4 b5 b6 b7 : Byte) :
    ((b0 ++ b1 ++ b2 ++ b3 ++ b4 ++ b5 ++ b6 ++ b7 : BitVec 64) &&& syncMask) = syncMatch ↔
      b0 = 0x01 ∧ b1 = 0x02 ∧ b2 = 0x04 ∧ b3 = 0x08 ∧ b4 = 0x07 ∧ b5 = 0x05 := by
  have : syncMatch =
      (0x01#8 ++ 0x02#8 ++ 0x04#8 ++ 0x08#8 ++ 0x07#8 ++ 0x05#8 ++ 0#8 ++ 0#8 : BitVec 64) := by decide
  rw [header_and_mask, this]
  simp only [append_inj, and_true, and_assoc]
  rfl

/-- A list of at least eight bytes, taken apart. -/
theorem eight_bytes (b : List Byte) (h : 8 ≤ b.length) :
    ∃ b0 b1 b2 b3 b4 b5 b6 b7 rest, b = b0 :: b1 :: b2 :: b3 :: b4 :: b5 :: b6 :: b7 :: rest := by
  match b, h with
  | b0 :: b1 :: b2 :: b3 :: b4 :: b5 :: b6 :: b7 :: rest, _ => exact ⟨b0, b1, b2, b3, b4, b5, b6, b7, rest, rfl⟩

theorem length_flatMap_bytes (px : List Color) : (px.flatMap Color.bytes).length = 3 * px.length := by
  induction px with
  | nil => rfl
  | cons k px ih => simp only [List.flatMap_cons, List.length_append, ih, List.length_cons, Color.bytes, List.length_nil]; omega

theorem pixelsOf_flatMap (px : List Color) : pixelsOf (px.flatMap Color.bytes) = px := by
  induction px with
  | nil => rfl
  | cons k px ih => simp only [List.flatMap_cons, Color.bytes, List.cons_append, List.nil_append, pixelsOf, ih]

theorem flatMap_pixelsOf (n : Nat) (b : List Byte) (h : b.length = 3 * n) :
    (pixelsOf b).flatMap Color.bytes = b ∧ (pixelsOf b).length = n := by
  induction n generalizing b with
  | zero => rw [Nat.mul_zero, List.length_eq_zero_iff] at h; subst h; exact ⟨rfl, rfl⟩
  | succ n ih =>
    match b, h with
    | r :: g :: l :: rest, h =>
      have := ih rest (by simp only [List.length_cons] at h; omega)
      simp only [pixelsOf, List.flatMap_cons, this.1, List.length_cons, this.2, Color.bytes, List.cons_append,
        List.nil_append, and_self]

theorem length_frameBytes (seq rsv : Byte) (px : List Color) : (frameBytes seq rsv px).length = 8 + 3 * px.length := by
  simp only [frameBytes, List.length_append, length_flatMap_bytes, Config.magic, List.length_cons, List.length_nil]

/-- Byte j of pixel record i of a list of pixels. -/
theorem getD_flatMap_bytes (px : List Color) (i : Nat) :
    (px.flatMap Color.bytes).getD (3 * i) 0 = ((px[i]?).map Color.r).getD 0 ∧
    (px.flatMap Color.bytes).getD (3 * i + 1) 0 = ((px[i]?).map Color.g).getD 0 ∧
    (px.flatMap Color.bytes).getD (3 * i + 2) 0 = ((px[i]?).map Color.b).getD 0 := by
  induction px generalizing i with
  | nil => simp
  | cons k px ih =>
    cases i with
    | zero => simp [Color.bytes]
    | succ i =>
      have h := ih i
      have e0 : 3 * (i + 1) = 3 * i + 1 + 1 + 1 := by omega
      simpa [Color.bytes, e0] using h

end Sys2Proof

namespace Sys2Proof.Machine

/-- SER on a color (R166). -/
theorem ser_three (r g b : Byte) : ser (r ++ g ++ b) = g ++ r ++ b := by
  obtain ⟨hr, hg, hb⟩ := extract_three r g b
  simp only [ser, hr, hg, hb]

/-- PAD is the color word followed by a zero byte (R168). -/
theorem pad_eq_append (v : Word24) : pad v = v ++ (0x00#8) := by
  refine BitVec.eq_of_getLsbD_eq fun i hi => ?_
  change _ = BitVec.getLsbD (w := 24 + 8) (v ++ (0x00#8)) i
  rw [BitVec.getLsbD_append]
  simp only [pad, Config.padBits, BitVec.getLsbD_or, BitVec.getLsbD_shiftLeft, BitVec.getLsbD_setWidth]
  by_cases h : i < 8
  · simp [h, hi]
  · simp [h, hi, show i - 8 < 32 by omega]

end Sys2Proof.Machine
end

