-- ==== Sys2Proof/Laws/Cycle.lean ====
section
/-! SUPPORT. What the processing of a whole buffer leaves (R183): a SYNCHRONIZED buffer in three forms (the operation, the run
of steps, the list of primary operations), a DESYNCHRONIZED one likewise. -/

namespace Sys2Proof.Machine

/-- The words of a pass depend only on the cells of the lattice. -/
theorem renderWords_congr {c : Config} (hc : c.Valid) {f g : Nat → Nat → Word24}
    (h : ∀ x y, x < c.width → y < c.height → f x y = g x y) : renderWords c f = renderWords c g := by
  refine List.map_congr_left fun k _ => ?_
  obtain ⟨hx, hy⟩ := scanCell_lt hc k
  rw [h _ _ hx hy]

/-- What is true of a state t that the processing of a SYNCHRONIZED buffer reaches from s in S_VALIDATE (R183). -/
structure SyncPass (s t : State) : Prop where
  cells : ∀ x y, x < s.cfg.width → y < s.cfg.height → t.cell x y = recordCell s.rxFrame (cellAddr s.cfg x y)
  rest : ∀ a, s.cfg.ledCount ≤ a → Memory.read t.lattice a = Memory.read s.lattice a
  trace : t.trace = s.trace ++ seqEvents s.prev s.rxFrame ++ (bufferWords s.cfg s.rxFrame).map .put
  txq : t.txq = s.txq ++ bufferWords s.cfg s.rxFrame
  frame : t = { s with
    st := sWait, prev := s.rxByte 6, sync := true, cur := s.rxByte 6, exp := s.prev + 1
    diag := s.diag ++ (diagsOf (seqEvents s.prev s.rxFrame)).map Diag.record
    ux := t.ux, uy := t.uy, up := t.up, sx := t.sx, sy := t.sy, col := t.col, w24 := t.w24, ow := t.ow
    lattice := t.lattice, txq := t.txq, trace := t.trace }

/-- A SYNCHRONIZED buffer to the end of its cycle, with room in the queue for its words. -/
theorem process_sync {s : State} (hc : s.cfg.Valid) (hs : s.st = sValidate) (ht : s.turns = [])
    (hm : magicOk s.rxFrame = true) (hq : s.txq.length + s.cfg.ledCount ≤ s.cfg.txqDepth) :
    ∃ t, SyncPass s t ∧ processBuffer s = .next t ∧ runSteps (1 + 2 * s.cfg.ledCount) s = .next t ∧
      runAll (.validate :: (List.replicate s.cfg.ledCount .unpk1 ++ List.replicate s.cfg.ledCount .emit1)) s =
        .next t := by
  have hled : 1 ≤ s.cfg.ledCount := Nat.mul_pos hc.1 hc.2.1
  obtain ⟨v, hve⟩ : ∃ v, v = s.validated := ⟨_, rfl⟩
  have hvf := hve.trans (State.validated_sync hm)
  have vcfg : v.cfg = s.cfg := by rw [hvf]
  have vst : v.st = sUnpack := by rw [hvf]
  have vs : v.sync = true := by rw [hvf]
  have vt : v.turns = [] := by rw [hvf]; exact ht
  have vux : v.ux = 0 := by rw [hvf]
  have vuy : v.uy = 0 := by rw [hvf]
  have vup : v.up = 8 := by rw [hvf]
  have vq : v.txq = s.txq := by rw [hvf]
  have vtr : v.trace = s.trace ++ seqEvents s.prev s.rxFrame := by rw [hvf]
  have vfr : v.rxFrame = s.rxFrame := by rw [hvf]; rfl
  have vl : v.lattice = s.lattice := by rw [hvf]
  have va : cellAddr v.cfg v.ux v.uy = 0 := by simp [cellAddr, vux, vuy]
  obtain ⟨u, ⟨u1, u2, u3⟩, u4, u5, u6⟩ := unpack_pass s.cfg.ledCount (s := v) (by rw [vcfg]; exact hc) vst vt
    (by rw [vux, vcfg]; exact hc.1) (by rw [vuy, vcfg]; exact hc.2.1) (by rw [va, vup]) (by rw [va, vcfg]; omega)
  have ucfg : u.cfg = s.cfg := by rw [u3]; exact vcfg
  have ust : u.st = sScan := by rw [u3]
  have ut : u.turns = [] := by rw [u3]; exact vt
  have usx : u.sx = s.cfg.width - 1 := by rw [u3, ← vcfg]
  have usy : u.sy = yStart s.cfg (s.cfg.width - 1) := by rw [u3, ← vcfg]
  have uq : u.txq = s.txq := by rw [u3]; exact vq
  have utr : u.trace = s.trace ++ seqEvents s.prev s.rxFrame := by rw [u3]; exact vtr
  have ucell : ∀ x y, x < s.cfg.width → y < s.cfg.height →
      u.cell x y = recordCell s.rxFrame (cellAddr s.cfg x y) := fun x y hx hy => by
    have hl := cellAddr_lt hx hy
    rw [State.cell, ucfg, u1 _ (by omega) (by rw [vcfg]; exact hl), ← vfr,
      State.recordCell_rxFrame v (by rw [vcfg]; exact hl)]
  have uo : scanOrd u.cfg u.sx u.sy = 0 := by rw [usx, usy, ucfg, scanOrd_start]
  obtain ⟨t, ⟨t1, t2, t3⟩, t4, t5, t6⟩ := render_pass s.cfg.ledCount (s := u) (by rw [ucfg]; exact hc) ust ut
    (by rw [usx, ucfg]; have := hc.1; omega) (by rw [usy, ucfg]; exact yStart_lt hc.2.1 _) (by rw [uo, ucfg]; omega)
    (by rw [uq, ucfg]; exact hq)
  rw [uo, List.drop_zero, ucfg, renderWords_congr hc ucell] at t1 t2
  have tcfg : t.cfg = s.cfg := by rw [t3]; exact ucfg
  have tlat : t.lattice = u.lattice := by rw [t3]
  have tcell : t.cell = u.cell := by rw [t3]; rfl
  refine ⟨t, ⟨by rw [tcell]; exact ucell, fun a ha => ?_, ?_, ?_, ?_⟩, ?_, ?_, ?_⟩
  · rw [tlat, u2 a (.inr (by rw [vcfg]; exact ha)), vl]
  · rw [t1, utr]; rfl
  · rw [t2, uq]; rfl
  · rw [t3, u3, hvf]
  · unfold processBuffer runPhase
    rw [phase_one hs ht (t := v) (by rw [stepValidate, hve]) (by rw [vst]; decide) (by omega), andThen_next]
    rw [finishCycle, if_pos vs, runPhase, u4 _ (by rw [vcfg]; omega), andThen_next, runPhase, t4 _ (by rw [ucfg]; omega)]
  · have hst : step s = .next v := by
      rw [step_of_turns_nil ht, sequencerMove_validate hc hs, stepValidate, hve]
    rw [Nat.add_comm, runSteps_succ hst, Nat.two_mul, runSteps_add, u5, andThen_next, t5]
  · have hex : exec .validate s = .next v := by
      rw [exec, execValidate, whenSelected_of hc (by simp [hs]), stepValidate, hve]
    rw [runAll_cons hex, runAll_append, u6, andThen_next, t6]

/-- A DESYNCHRONIZED buffer to the end of its cycle (R186). -/
theorem process_desync {s : State} (hc : s.cfg.Valid) (hs : s.st = sValidate) (ht : s.turns = [])
    (hm : magicOk s.rxFrame = false) :
    ∃ t, t = { s with
        sync := false, st := sWait, diag := s.diag ++ [Diag.desync.record]
        trace := s.trace ++ [.diag .desync, .reinit] } ∧
      processBuffer s = .next t ∧ runSteps 2 s = .next t ∧ runAll [.validate, .resync] s = .next t := by
  have hled : 1 ≤ s.cfg.ledCount := Nat.mul_pos hc.1 hc.2.1
  obtain ⟨v, hve⟩ : ∃ v, v = s.validated := ⟨_, rfl⟩
  have hvf := hve.trans (State.validated_desync hm)
  have vcfg : v.cfg = s.cfg := by rw [hvf]
  have vst : v.st = sResync := by rw [hvf]
  have vt : v.turns = [] := by rw [hvf]; exact ht
  have vs : v.sync = false := by rw [hvf]
  refine ⟨v.resynced, by rw [State.resynced_eq, hvf], ?_, ?_, ?_⟩
  · unfold processBuffer runPhase
    rw [phase_one hs ht (t := v) (by rw [stepValidate, hve]) (by rw [vst]; decide) (by omega), andThen_next]
    rw [finishCycle, if_neg (by rw [vs]; decide), runPhase,
      phase_one vst vt (t := v.resynced) rfl (by rw [State.resynced_eq]; simp) (by rw [vcfg]; omega)]
  · have h1 : step s = .next v := by
      rw [step_of_turns_nil ht, sequencerMove_validate hc hs, stepValidate, hve]
    have h2 : step v = .next v.resynced := by
      rw [step_of_turns_nil vt, sequencerMove_resync (by rw [vcfg]; exact hc) vst, stepResync]
    rw [runSteps_succ h1, runSteps_succ h2]; rfl
  · have h1 : exec .validate s = .next v := by
      rw [exec, execValidate, whenSelected_of hc (by simp [hs]), stepValidate, hve]
    have h2 : exec .resync v = .next v.resynced := by
      rw [exec, execResync, whenSelected_of (by rw [vcfg]; exact hc) (by simp [vst]), stepResync]
    rw [runAll_cons h1, runAll_cons h2]; rfl

end Sys2Proof.Machine
end

