-- ==== Sys2Proof/Laws/PerInstr.lean ====
section
/-! SUPPORT. Statements about every operation, one lemma per constructor. `CodeShape`: what code an operation has. A frame's
code is a buffer of N bytes; a primary operation's is a selector of its own row; a sub-operation and a pseudo-operation
have none, because no buffer and no selector decodes to them (30_encoding.md R90, R94 to R96). -/

namespace Sys2Proof.Laws.CodeShape

/-- The code of a well-formed operation has the form its row gives it; an operation without a code is what no word
decodes to. -/
def Statement (i : Instr) : Prop :=
  ∀ c : Config, i.wellFormed c = true →
    match encode i with
    | some (.frame b) => b.length = c.frameLen
    | some (.select sel) => i.selectedBy sel = true
    | none => ∀ w, decode c w ≠ .ok i

/-- An operation that is no frame and no selector's primary operation is what no word decodes to. -/
theorem decode_ne {i : Instr} (hs : ∀ sel : Sel, decodeSel sel ≠ .ok i) (hf : ∀ seq rsv px, i ≠ .syncFrame seq rsv px)
    (hd : ∀ b, i ≠ .desyncFrame b) (c : Config) (w : Code) : decode c w ≠ .ok i := by
  cases w with
  | select sel => exact hs sel
  | frame b =>
    intro h
    simp only [decode, decodeFrame] at h
    split at h
    · split at h <;> cases h
      · exact hf _ _ _ rfl
      · exact hd _ rfl
    · cases h

theorem syncFrame (seq rsv : Byte) (px : List Color) : Statement (.syncFrame seq rsv px) := by
  intro c h
  have h : px.length = c.ledCount := by simpa [Instr.wellFormed] using h
  simp only [encode, length_frameBytes, h, Config.frameLen, Config.headerSize]

theorem desyncFrame (bytes : List Byte) : Statement (.desyncFrame bytes) := fun c h => by
  simp only [Instr.wellFormed, Bool.and_eq_true, beq_iff_eq] at h
  exact h.1

theorem xchg : Statement .xchg := fun _ _ => rfl
theorem validate : Statement .validate := fun _ _ => rfl
theorem mcmp : Statement .mcmp := fun c _ => decode_ne (by decide) (by simp) (by simp) c
theorem seqchk : Statement .seqchk := fun c _ => decode_ne (by decide) (by simp) (by simp) c
theorem diagSeq : Statement .diagSeq := fun c _ => decode_ne (by decide) (by simp) (by simp) c
theorem sequpd : Statement .sequpd := fun c _ => decode_ne (by decide) (by simp) (by simp) c
theorem unpk1 : Statement .unpk1 := fun _ _ => rfl
theorem emit1 : Statement .emit1 := fun _ _ => rfl
theorem ser : Statement .ser := fun c _ => decode_ne (by decide) (by simp) (by simp) c
theorem pad : Statement .pad := fun c _ => decode_ne (by decide) (by simp) (by simp) c
theorem put : Statement .put := fun c _ => decode_ne (by decide) (by simp) (by simp) c
theorem scanadv : Statement .scanadv := fun c _ => decode_ne (by decide) (by simp) (by simp) c
theorem resync : Statement .resync := fun _ _ => rfl
theorem diagDesync : Statement .diagDesync := fun c _ => decode_ne (by decide) (by simp) (by simp) c
theorem reinit : Statement .reinit := fun c _ => decode_ne (by decide) (by simp) (by simp) c
theorem unpack : Statement .unpack := fun c _ => decode_ne (by decide) (by simp) (by simp) c
theorem render : Statement .render := fun c _ => decode_ne (by decide) (by simp) (by simp) c
theorem cycle : Statement .cycle := fun c _ => decode_ne (by decide) (by simp) (by simp) c

end Sys2Proof.Laws.CodeShape
end

