-- ==== Sys2Proof/Laws/Schedule.lean ====
section
/-! SUPPORT. The phases of the pseudo-operations under any schedule of turns and any depth of the queue: what the environment's
turns leave alone, and how a phase ends. -/

namespace Sys2Proof.Machine

/-- What the environment's turns, and the sequencer's while it is held, do to a state (R39, R181). -/
structure EnvMoves (s t : State) : Prop where
  frame : t = { s with turns := t.turns, upstream := t.upstream, txq := t.txq, wire := t.wire }
  fifo : t.wire ++ t.txq = s.wire ++ s.txq
  fewer : t.txq.length ≤ s.txq.length
  spent : t.turns.length ≤ s.turns.length
  bytes : t.upstream ++ scheduledBytes t.turns = s.upstream ++ scheduledBytes s.turns

theorem EnvMoves.refl (s : State) : EnvMoves s s := ⟨rfl, rfl, le_rfl, le_rfl, rfl⟩

theorem EnvMoves.trans {s t u : State} (h : EnvMoves s t) (k : EnvMoves t u) : EnvMoves s u :=
  ⟨by rw [k.frame, h.frame], k.fifo.trans h.fifo, k.fewer.trans h.fewer, k.spent.trans h.spent,
    k.bytes.trans h.bytes⟩

/-- A turn with the sequencer's operation not reached, or reached with the rest of the schedule. -/
theorem agentTurn_cases (op : State → Result) (s : State) :
    (∃ u, EnvMoves s u ∧ agentTurn op s = op u ∧
      (s.turns = [] ∧ u = s ∨ ∃ ts, s.turns = .sequencer :: ts ∧ u = { s with turns := ts })) ∨
    (∃ u, EnvMoves s u ∧ agentTurn op s = .next u ∧ u.turns.length + 1 = s.turns.length) := by
  unfold agentTurn
  cases ht : s.turns with
  | nil => exact .inl ⟨s, .refl s, rfl, .inl ⟨rfl, rfl⟩⟩
  | cons a ts =>
    cases a with
    | sequencer =>
      exact .inl ⟨{ s with turns := ts }, ⟨rfl, rfl, le_rfl, by simp [ht], by simp [ht, scheduledBytes]⟩, rfl,
        .inr ⟨ts, rfl, rfl⟩⟩
    | transport bs =>
      exact .inr ⟨({ s with turns := ts } : State).clockIn bs,
        ⟨rfl, rfl, le_rfl, by simp [ht], by simp [ht, scheduledBytes]⟩, rfl, by simp⟩
    | pulse =>
      refine .inr ⟨({ s with turns := ts } : State).pulseTake, ?_, rfl, ?_⟩
      · rcases ({ s with turns := ts } : State).pulseTake_cases with ⟨_, e⟩ | ⟨w, q, hq, e⟩
        · rw [e]; exact ⟨rfl, rfl, le_rfl, by simp [ht], by simp [ht, scheduledBytes]⟩
        · rw [e]
          have hq : s.txq = w :: q := hq
          exact ⟨rfl, by simp [hq], by simp [hq], by simp [ht], by simp [ht, scheduledBytes]⟩
      · rcases ({ s with turns := ts } : State).pulseTake_cases with ⟨_, e⟩ | ⟨w, q, hq, e⟩ <;> rw [e] <;> simp

/-- A phase of one step that is never held: environment turns, then the step, which leaves its state code. -/
theorem phase_single {code : StCode} {op : State → Result} {f : State → State} (hop : ∀ u, u.st = code → op u = .next (f u))
    (hf : ∀ u, u.st = code → (f u).st ≠ code) (n : Nat) {s : State} (hs : s.st = code) (hn : s.turns.length < n) :
    ∃ u, EnvMoves s u ∧ phase code op n s = .next (f u) := by
  induction n generalizing s with
  | zero => omega
  | succ n ih =>
    simp only [phase, if_pos hs]
    rcases agentTurn_cases op s with ⟨u, hu, he, _⟩ | ⟨u, hu, he, hl⟩
    · have us : u.st = code := by rw [hu.frame]; exact hs
      refine ⟨u, hu, ?_⟩
      rw [he, hop u us, andThen_next, phase_of_ne (hf u us)]
    · have us : u.st = code := by rw [hu.frame]; exact hs
      obtain ⟨v, hv, hp⟩ := ih us (by omega)
      exact ⟨v, hu.trans hv, by rw [he, andThen_next, hp]⟩

/-- What is true of a state t that the unpack pass reaches from s under a schedule (R136 to R138). -/
structure UnpackSchedule (s t : State) : Prop where
  cells : ∀ j, cellAddr s.cfg s.ux s.uy ≤ j → j < s.cfg.ledCount → Memory.read t.lattice j = s.pixelAt (8 + 3 * j)
  rest : ∀ j, j < cellAddr s.cfg s.ux s.uy ∨ s.cfg.ledCount ≤ j → Memory.read t.lattice j = Memory.read s.lattice j
  fifo : t.wire ++ t.txq = s.wire ++ s.txq
  fewer : t.txq.length ≤ s.txq.length
  spent : t.turns.length ≤ s.turns.length
  bytes : t.upstream ++ scheduledBytes t.turns = s.upstream ++ scheduledBytes s.turns
  frame : t = { s with
    col := t.col, lattice := t.lattice, ux := t.ux, uy := t.uy, up := t.up
    sx := s.cfg.width - 1, sy := yStart s.cfg (s.cfg.width - 1), st := sScan
    turns := t.turns, upstream := t.upstream, txq := t.txq, wire := t.wire }

/-- The unpack pass from any of its cells, under any schedule: it is never held. -/
theorem unpack_schedule (n : Nat) {s : State} (hs : s.st = sUnpack)
    (hx : s.ux < s.cfg.width) (hy : s.uy < s.cfg.height) (hu : s.up = 8 + 3 * cellAddr s.cfg s.ux s.uy)
    (hn : s.turns.length + (s.cfg.ledCount - cellAddr s.cfg s.ux s.uy) ≤ n) :
    ∃ t, UnpackSchedule s t ∧ phase sUnpack stepUnpk1 n s = .next t := by
  induction n generalizing s with
  | zero => have := cellAddr_lt hx hy; omega
  | succ n ih =>
    have hlt := cellAddr_lt hx hy
    simp only [phase, if_pos hs]
    rcases agentTurn_cases stepUnpk1 s with ⟨v, hv, he, _⟩ | ⟨v, hv, he, hl⟩
    · have vf := hv.frame
      have vc : v.cfg = s.cfg := by rw [vf]
      have vx : v.ux = s.ux := by rw [vf]
      have vy : v.uy = s.uy := by rw [vf]
      have vu : v.up = s.up := by rw [vf]
      have vl : v.lattice = s.lattice := by rw [vf]
      have vp : ∀ p, v.pixelAt p = s.pixelAt p := fun p => by rw [vf]; rfl
      have hw : ∀ j, Memory.read v.storeRecord.lattice j =
          if j = cellAddr s.cfg s.ux s.uy then s.pixelAt s.up else Memory.read s.lattice j := fun j => by
        rw [← vl, ← vp, ← vc, ← vx, ← vy, ← vu]; exact Memory.read_write _ _ _ _
      have hok : v.unpackIndexOk = true :=
        State.unpackIndexOk_of (by rw [vx, vc]; exact hx) (by rw [vy, vc]; exact hy) (by rw [vu, vc, vx, vy]; exact hu)
      have hlen : v.turns.length ≤ s.turns.length := hv.spent
      rw [he, stepUnpk1, if_pos hok, andThen_next]
      rcases State.advanceUnpack_cases (s := v.storeRecord) (by rw [State.storeRecord_ux, State.storeRecord_cfg, vx, vc]; exact hx)
        (by rw [State.storeRecord_uy, State.storeRecord_cfg, vy, vc]; exact hy) with ⟨hl, _, _, ha⟩ | ⟨x, y, hx', hy', hn', ha⟩
      · simp only [State.storeRecord_cfg, State.storeRecord_ux, State.storeRecord_uy, vc, vx, vy] at hl
        obtain ⟨m, hm⟩ : ∃ m, m = v.storeRecord.advanceUnpack := ⟨_, rfl⟩
        rw [← hm] at ha ⊢
        have ml : m.lattice = v.storeRecord.lattice := by rw [ha]; rfl
        have mq : m.txq = v.txq := by rw [ha]; rfl
        have mw : m.wire = v.wire := by rw [ha]; rfl
        have mt : m.turns = v.turns := by rw [ha]; rfl
        have mup : m.upstream = v.upstream := by rw [ha]; rfl
        refine ⟨m, ⟨fun j h1 h2 => ?_, fun j h => ?_, ?_, ?_, ?_, ?_, ?_⟩, phase_of_ne (by rw [ha]; simp) n⟩
        · rw [ml, hw j, if_pos (by omega), hu]; congr 2; congr 1; omega
        · rw [ml, hw j, if_neg (by omega)]
        · rw [mq, mw]; exact hv.fifo
        · rw [mq]; exact hv.fewer
        · rw [mt]; exact hv.spent
        · rw [mt, mup]; exact hv.bytes
        · rw [ha]; rw [vf]; rfl
      · simp only [State.storeRecord_cfg, State.storeRecord_ux, State.storeRecord_uy, vc, vx, vy] at hx' hy' hn'
        obtain ⟨m, hm⟩ : ∃ m, m = { v.storeRecord with ux := x, uy := y } := ⟨_, rfl⟩
        have mf : m = { s with
            col := m.col, lattice := v.storeRecord.lattice, ux := x, uy := y, up := s.up + 3
            turns := v.turns, upstream := v.upstream, txq := v.txq, wire := v.wire } := by rw [hm]; rw [vf]; rfl
        have mc : m.cfg = s.cfg := by rw [mf]
        have mx : m.ux = x := by rw [mf]
        have my : m.uy = y := by rw [mf]
        have mu : m.up = s.up + 3 := by rw [mf]
        have ml : m.lattice = v.storeRecord.lattice := by rw [mf]
        have mt : m.turns = v.turns := by rw [mf]
        have mq : m.txq = v.txq := by rw [mf]
        have mw : m.wire = v.wire := by rw [mf]
        have mup : m.upstream = v.upstream := by rw [mf]
        have mp : ∀ p, m.pixelAt p = s.pixelAt p := fun p => by rw [mf]; rfl
        rw [ha, ← hm]
        obtain ⟨t, ⟨h1, h2, h3, h4, h5, h6, h7⟩, h8⟩ := ih (s := m) (by rw [mf]; exact hs) (by rw [mx, mc]; exact hx')
          (by rw [my, mc]; exact hy') (by rw [mu, mx, my, mc]; omega)
          (by rw [mt, mx, my, mc]; omega)
        rw [mc, mx, my, hn'] at h1 h2
        refine ⟨t, ⟨fun j h9 h10 => ?_, fun j h => ?_, ?_, ?_, ?_, ?_, ?_⟩, h8⟩
        · by_cases hj : j = cellAddr s.cfg s.ux s.uy
          · refine (h2 j (by omega)).trans ?_
            rw [ml, hw, if_pos hj, hu, hj]
          · rw [h1 j (by omega) h10, mp]
        · refine (h2 j (by omega)).trans ?_
          rw [ml, hw, if_neg (by omega)]
        · rw [h3, mq, mw]; exact hv.fifo
        · rw [mq] at h4; exact h4.trans hv.fewer
        · rw [mt] at h5; exact h5.trans hv.spent
        · rw [h6, mt, mup]; exact hv.bytes
        · rw [h7]; rw [mf]
    · have vf := hv.frame
      have vc : v.cfg = s.cfg := by rw [vf]
      have vx : v.ux = s.ux := by rw [vf]
      have vy : v.uy = s.uy := by rw [vf]
      have vu : v.up = s.up := by rw [vf]
      have vl : v.lattice = s.lattice := by rw [vf]
      have vp : ∀ p, v.pixelAt p = s.pixelAt p := fun p => by rw [vf]; rfl
      rw [he, andThen_next]
      obtain ⟨t, ⟨h1, h2, h3, h4, h5, h6, h7⟩, h8⟩ := ih (s := v) (by rw [vf]; exact hs) (by rw [vx, vc]; exact hx)
        (by rw [vy, vc]; exact hy) (by rw [vu, vc, vx, vy]; exact hu) (by rw [vc, vx, vy]; omega)
      rw [vc, vx, vy] at h1 h2
      refine ⟨t, ⟨fun j h9 h10 => by rw [h1 j h9 h10, vp], fun j h => by rw [h2 j h, vl], h3.trans hv.fifo,
        h4.trans hv.fewer, h5.trans hv.spent, h6.trans hv.bytes, ?_⟩, h8⟩
      rw [h7]; rw [vf]

/-- What is true of a state t in which the render pass from s has put k words under a schedule (R150, R157, R171): it has
ended, or the core is held with the queue full and no turn left. -/
structure RenderSchedule (s t : State) (k : Nat) : Prop where
  events : t.trace = s.trace ++ (((renderWords s.cfg s.cell).drop (scanOrd s.cfg s.sx s.sy)).take k).map .put
  fifo : t.wire ++ t.txq = s.wire ++ s.txq ++ ((renderWords s.cfg s.cell).drop (scanOrd s.cfg s.sx s.sy)).take k
  bytes : t.upstream ++ scheduledBytes t.turns = s.upstream ++ scheduledBytes s.turns
  ending : (t.st = sWait ∧ scanOrd s.cfg s.sx s.sy + k = s.cfg.ledCount) ∨
    (t.st = sScan ∧ t.turns = [] ∧ s.cfg.txqDepth ≤ t.txq.length ∧ scanOrd s.cfg s.sx s.sy + k < s.cfg.ledCount)
  frame : t = { s with
    col := t.col, w24 := t.w24, ow := t.ow, trace := t.trace, sx := t.sx, sy := t.sy, st := t.st
    turns := t.turns, upstream := t.upstream, txq := t.txq, wire := t.wire }

/-- A render pass that the environment's turns only precede. -/
theorem RenderSchedule.of_env {s v t : State} {k : Nat} (hv : EnvMoves s v) (h : RenderSchedule v t k) :
    RenderSchedule s t k := by
  have vf := hv.frame
  have vc : v.cfg = s.cfg := by rw [vf]
  have vx : v.sx = s.sx := by rw [vf]
  have vy : v.sy = s.sy := by rw [vf]
  have vtr : v.trace = s.trace := by rw [vf]
  have vcell : v.cell = s.cell := by rw [vf]; rfl
  obtain ⟨h1, h2, h3, h4, h5⟩ := h
  rw [vc, vx, vy, vcell, vtr] at h1
  rw [vc, vx, vy, vcell, hv.fifo] at h2
  rw [vc, vx, vy] at h4
  exact ⟨h1, h2, h3.trans hv.bytes, h4, by rw [h5]; rw [vf]⟩

/-- The render pass from any of its cells, under any schedule and with any depth of the queue. -/
theorem render_schedule (n : Nat) {s : State} (hs : s.st = sScan) (hx : s.sx < s.cfg.width) (hy : s.sy < s.cfg.height)
    (hn : s.turns.length + (s.cfg.ledCount - scanOrd s.cfg s.sx s.sy) ≤ n) :
    ∃ t k, RenderSchedule s t k ∧ phase sScan stepEmit1 n s = .next t := by
  induction n generalizing s with
  | zero => have := scanOrd_lt hx hy; omega
  | succ n ih =>
    have hlt := scanOrd_lt hx hy
    simp only [phase, if_pos hs]
    rcases agentTurn_cases stepEmit1 s with ⟨v, hv, he, hcase⟩ | ⟨v, hv, he, hl⟩
    · have vf := hv.frame
      have vc : v.cfg = s.cfg := by rw [vf]
      have vst : v.st = sScan := by rw [vf]; exact hs
      have vx : v.sx < v.cfg.width := by rw [vf]; exact hx
      have vy : v.sy < v.cfg.height := by rw [vf]; exact hy
      have vo : scanOrd v.cfg v.sx v.sy = scanOrd s.cfg s.sx s.sy := by rw [vf]
      have hok : v.scanIndexOk = true := by simp [State.scanIndexOk, vx, vy]
      have hsp := hv.spent
      rw [he, stepEmit1, if_pos hok]
      by_cases hq : v.txqFull = true
      · rw [if_pos hq, andThen_next]
        have hfull : s.cfg.txqDepth ≤ v.txq.length := by simpa [State.txqFull, vc] using hq
        rcases hcase with ⟨hnil, rfl⟩ | ⟨ts, hts, rfl⟩
        · refine ⟨v, 0, ⟨by simp, by simp, rfl, .inr ⟨hs, hnil, hfull, by omega⟩, rfl⟩, ?_⟩
          have hstep : stepEmit1 v = .next v := by rw [stepEmit1, if_pos hok, if_pos hq]
          clear hn ih
          induction n with
          | zero => rfl
          | succ n ih => rw [phase_succ hs hnil, hstep, andThen_next, ih]
        · obtain ⟨t, k, ht, hp⟩ := ih (s := { s with turns := ts }) hs hx hy (by
            simp only [hts, List.length_cons] at hn; simp only; omega)
          exact ⟨t, k, .of_env hv ht, hp⟩
      · rw [if_neg hq, andThen_next]
        have hd := renderWords_drop v.cfg v.cell vx vy
        rcases State.emitPixel_cases vx vy with ⟨hl, _, _, ha⟩ | ⟨x, y, hx', hy', ho, _, ha⟩
        · obtain ⟨m, hm⟩ : ∃ m, m = v.emitPixel := ⟨_, rfl⟩
          rw [← hm] at ha ⊢
          refine ⟨m, 1, .of_env hv ⟨?_, ?_, ?_, .inl ⟨by rw [ha], hl⟩, ?_⟩, phase_of_ne (by rw [ha]; simp) n⟩
          · rw [hd]; rw [ha]; rfl
          · rw [hd]; rw [ha]; simp
          · rw [ha]
          · rw [ha]
        · obtain ⟨m, hm⟩ : ∃ m, m = v.emitPixel := ⟨_, rfl⟩
          rw [← hm] at ha ⊢
          have mst : m.st = sScan := by rw [ha]; exact vst
          have mc : m.cfg = v.cfg := by rw [ha]
          have mx : m.sx = x := by rw [ha]
          have my : m.sy = y := by rw [ha]
          have mt : m.turns = v.turns := by rw [ha]
          have mup : m.upstream = v.upstream := by rw [ha]
          have mcell : m.cell = v.cell := by rw [ha]; rfl
          have mtr : m.trace = v.trace ++ [.put (outWord (v.cell v.sx v.sy))] := by rw [ha]
          have mq : m.txq = v.txq ++ [outWord (v.cell v.sx v.sy)] := by rw [ha]
          have mw : m.wire = v.wire := by rw [ha]
          have mo : scanOrd m.cfg m.sx m.sy = scanOrd v.cfg v.sx v.sy + 1 := by rw [mc, mx, my, ho]
          obtain ⟨t, k, ⟨h1, h2, h3, h4, h5⟩, hp⟩ := ih (s := m) mst (by rw [mx, mc]; exact hx') (by rw [my, mc]; exact hy')
            (by rw [mo, mt, vo, mc, vc]; omega)
          rw [mo, mc, mcell, mtr] at h1
          rw [mo, mc, mcell, mq, mw] at h2
          rw [mo, mc] at h4
          refine ⟨t, k + 1, .of_env hv ⟨?_, ?_, ?_, ?_, ?_⟩, hp⟩
          · rw [h1, hd, List.take_succ_cons, List.map_cons, List.append_assoc]; rfl
          · rw [h2, hd, List.take_succ_cons]; simp
          · rw [h3, mt, mup]
          · rcases h4 with ⟨h4, h6⟩ | ⟨h4, h6, h7, h8⟩
            · exact .inl ⟨h4, by omega⟩
            · exact .inr ⟨h4, h6, h7, by omega⟩
          · rw [h5]; rw [ha]
    · have vf := hv.frame
      have vo : scanOrd v.cfg v.sx v.sy = scanOrd s.cfg s.sx s.sy := by rw [vf]
      have vc : v.cfg = s.cfg := by rw [vf]
      rw [he, andThen_next]
      obtain ⟨t, k, ht, hp⟩ := ih (s := v) (by rw [vf]; exact hs) (by rw [vf]; exact hx) (by rw [vf]; exact hy)
        (by rw [vo, vc]; omega)
      exact ⟨t, k, .of_env hv ht, hp⟩

/-- The exchange under any schedule: it happens once N bytes have come, with whatever turns came before, or the core is
held with no turn left (R111, R241). -/
theorem xchg_schedule (n : Nat) {s : State} (hs : s.st = sWait) (hn : s.turns.length < n) :
    ∃ u, EnvMoves s u ∧
      (u.cfg.frameLen ≤ u.upstream.length ∧ phase sWait stepXchg n s = .next u.exchange ∨
        u.upstream.length < u.cfg.frameLen ∧ u.turns = [] ∧ phase sWait stepXchg n s = .next u) := by
  induction n generalizing s with
  | zero => omega
  | succ n ih =>
    simp only [phase, if_pos hs]
    rcases agentTurn_cases stepXchg s with ⟨u, hu, he, hcase⟩ | ⟨u, hu, he, hl⟩
    · have us : u.st = sWait := by rw [hu.frame]; exact hs
      rw [he, stepXchg]
      by_cases hr : u.exchangeReady = true
      · rw [if_pos hr, andThen_next]
        exact ⟨u, hu, .inl ⟨by simpa [State.exchangeReady] using hr, phase_of_ne (by simp [State.exchange]) n⟩⟩
      · rw [if_neg hr, andThen_next]
        have hshort : u.upstream.length < u.cfg.frameLen := by simpa [State.exchangeReady] using hr
        rcases hcase with ⟨hnil, rfl⟩ | ⟨ts, hts, rfl⟩
        · refine ⟨u, hu, .inr ⟨hshort, hnil, ?_⟩⟩
          have hstep : stepXchg u = .next u := by rw [stepXchg, if_neg hr]
          clear hn ih
          induction n with
          | zero => rfl
          | succ n ih => rw [phase_succ hs hnil, hstep, andThen_next, ih]
        · obtain ⟨v, hv, hp⟩ := ih (s := { s with turns := ts }) hs (by
            simp only [hts, List.length_cons] at hn; simp only; omega)
          exact ⟨v, hu.trans hv, hp⟩
    · have us : u.st = sWait := by rw [hu.frame]; exact hs
      obtain ⟨v, hv, hp⟩ := ih us (by omega)
      exact ⟨v, hu.trans hv, by rw [he, andThen_next]; exact hp⟩

/-- The render pass as the queue drains: one turn of the pulse engine after each turn of the sequencer is enough, whatever
the depth of the queue (R171, R242). -/
theorem render_drains (k : Nat) {s : State} (hs : s.st = sScan) (hx : s.sx < s.cfg.width) (hy : s.sy < s.cfg.height)
    (hk : scanOrd s.cfg s.sx s.sy + k = s.cfg.ledCount) (hq : s.txq.length < s.cfg.txqDepth)
    (ht : s.turns = (List.replicate k [Turn.sequencer, .pulse]).flatten) {n : Nat} (hn : 2 * k ≤ n) :
    ∃ t, phase sScan stepEmit1 n s = .next t ∧ t.st = sWait ∧ t.turns = [.pulse] ∧
      t.txq.length = s.txq.length + 1 := by
  induction k generalizing s n with
  | zero => have := scanOrd_lt hx hy; omega
  | succ k ih =>
    obtain ⟨n, rfl⟩ : ∃ m, n = m + 2 := ⟨n - 2, by omega⟩
    rw [List.replicate_succ, List.flatten_cons] at ht
    obtain ⟨v, hv⟩ : ∃ v, v = { s with turns := Turn.pulse :: (List.replicate k [Turn.sequencer, .pulse]).flatten } :=
      ⟨_, rfl⟩
    have hturn : agentTurn stepEmit1 s = stepEmit1 v := by rw [agentTurn, ht, hv]; rfl
    have vx : v.sx < v.cfg.width := by rw [hv]; exact hx
    have vy : v.sy < v.cfg.height := by rw [hv]; exact hy
    have vc : v.cfg = s.cfg := by rw [hv]
    have vq : v.txq = s.txq := by rw [hv]
    have vt : v.turns = Turn.pulse :: (List.replicate k [Turn.sequencer, .pulse]).flatten := by rw [hv]
    have vo : scanOrd v.cfg v.sx v.sy = scanOrd s.cfg s.sx s.sy := by rw [hv]
    have hop : stepEmit1 v = .next v.emitPixel := by
      have h1 : v.scanIndexOk = true := by simp [State.scanIndexOk, vx, vy]
      have h2 : v.txqFull = false := by simp only [State.txqFull, vc, vq, decide_eq_false_iff_not]; omega
      simp [stepEmit1, h1, h2]
    rw [phase, if_pos hs, hturn, hop, andThen_next]
    obtain ⟨m, hm⟩ : ∃ m, m = v.emitPixel := ⟨_, rfl⟩
    rw [← hm]
    rcases State.emitPixel_cases vx vy with ⟨hl, _, _, ha⟩ | ⟨x, y, hx', hy', ho, _, ha⟩
    · have hk0 : k = 0 := by rw [vo, vc] at hl; omega
      subst hk0
      rw [← hm] at ha
      refine ⟨m, phase_of_ne (by rw [ha]; simp) _, by rw [ha], by rw [ha]; exact vt, by rw [ha]; simp [vq]⟩
    · rw [← hm] at ha
      have mst : m.st = sScan := by rw [ha, hv]; exact hs
      obtain ⟨p, hp⟩ : ∃ p, p = ({ m with turns := (List.replicate k [Turn.sequencer, .pulse]).flatten } : State).pulseTake :=
        ⟨_, rfl⟩
      have hturn2 : agentTurn stepEmit1 m = .next p := by
        have : m.turns = Turn.pulse :: (List.replicate k [Turn.sequencer, .pulse]).flatten := by rw [ha]; exact vt
        rw [agentTurn, this, hp]
      rw [phase, if_pos mst, hturn2, andThen_next]
      have mq : m.txq = s.txq ++ [outWord (v.cell v.sx v.sy)] := by rw [ha, ← vq]
      have hpf : p = { m with turns := p.turns, txq := p.txq, wire := p.wire } ∧ p.txq.length = s.txq.length ∧
          p.turns = (List.replicate k [Turn.sequencer, .pulse]).flatten := by
        rcases State.pulseTake_cases ({ m with turns := (List.replicate k [Turn.sequencer, .pulse]).flatten } : State) with
          ⟨h, _⟩ | ⟨w, q, h, e⟩
        · exact absurd (h.symm.trans mq) (by simp)
        · have h : m.txq = w :: q := h
          rw [hp, e]
          refine ⟨rfl, ?_, rfl⟩
          have := congrArg List.length (h.symm.trans mq)
          simpa using this
      obtain ⟨pf, pq, pt⟩ := hpf
      have pc : p.cfg = s.cfg := by rw [pf, ha]; exact vc
      have psx : p.sx = x := by rw [pf, ha]
      have psy : p.sy = y := by rw [pf, ha]
      obtain ⟨t, h1, h2, h3, h4⟩ := ih (s := p) (by rw [pf]; exact mst) (by rw [psx, pc, ← vc]; exact hx')
        (by rw [psy, pc, ← vc]; exact hy') (by rw [psx, psy, pc, ← vc, ho, vo, vc]; omega) (by rw [pq, pc]; exact hq) pt
        (n := n) (by omega)
      exact ⟨t, h1, h2, h3, by rw [h4, pq]⟩

theorem putsOf_seqEvents (p : Byte) (b : List Byte) : putsOf (seqEvents p b) = [] := by
  unfold seqEvents; split <;> rfl

theorem diagsOf_map_put (ws : List Word32) : diagsOf (ws.map .put) = [] := by
  induction ws with
  | nil => rfl
  | cons w ws ih => exact ih

theorem stepValidate_leaves (n : Nat) {s : State} (hs : s.st = sValidate) (hn : s.turns.length < n) :
    ∃ u, EnvMoves s u ∧ phase sValidate stepValidate n s = .next u.validated :=
  phase_single (fun _ _ => rfl)
    (fun u _ => by rcases u.validated_cases with ⟨_, h⟩ | ⟨_, h⟩ <;> rw [h] <;> simp) n hs hn

/-- What is true of a state t in which the processing of a SYNCHRONIZED buffer from s in S_VALIDATE has put k words under a
schedule (R171, R183). -/
structure SyncSchedule (s t : State) (k : Nat) : Prop where
  cells : ∀ x y, x < s.cfg.width → y < s.cfg.height → t.cell x y = recordCell s.rxFrame (cellAddr s.cfg x y)
  rest : ∀ a, s.cfg.ledCount ≤ a → Memory.read t.lattice a = Memory.read s.lattice a
  trace : t.trace = s.trace ++ (seqEvents s.prev s.rxFrame ++ ((bufferWords s.cfg s.rxFrame).take k).map .put)
  fifo : t.wire ++ t.txq = s.wire ++ s.txq ++ (bufferWords s.cfg s.rxFrame).take k
  bytes : t.upstream ++ scheduledBytes t.turns = s.upstream ++ scheduledBytes s.turns
  ending : (t.st = sWait ∧ k = s.cfg.ledCount) ∨
    (t.st = sScan ∧ t.turns = [] ∧ s.cfg.txqDepth ≤ t.txq.length ∧ k < s.cfg.ledCount)
  frame : t = { s with
    prev := s.rxByte 6, sync := true, cur := s.rxByte 6, exp := s.prev + 1
    diag := s.diag ++ (diagsOf (seqEvents s.prev s.rxFrame)).map Diag.record
    st := t.st, ux := t.ux, uy := t.uy, up := t.up, sx := t.sx, sy := t.sy, col := t.col, w24 := t.w24, ow := t.ow
    lattice := t.lattice, trace := t.trace, turns := t.turns, upstream := t.upstream, txq := t.txq, wire := t.wire }

/-- VALIDATE of a SYNCHRONIZED buffer and the unpack pass, under any schedule. -/
theorem validate_unpack_schedule {s : State} (hc : s.cfg.Valid) (hs : s.st = sValidate) (hm : magicOk s.rxFrame = true) :
    ∃ v p, runPhase sValidate stepValidate s = .next v ∧ v.sync = true ∧ runPhase sUnpack stepUnpk1 v = .next p ∧
      (∀ x y, x < s.cfg.width → y < s.cfg.height → p.cell x y = recordCell s.rxFrame (cellAddr s.cfg x y)) ∧
      (∀ a, s.cfg.ledCount ≤ a → Memory.read p.lattice a = Memory.read s.lattice a) ∧
      p.wire ++ p.txq = s.wire ++ s.txq ∧
      p.upstream ++ scheduledBytes p.turns = s.upstream ++ scheduledBytes s.turns ∧
      p = { s with
        prev := s.rxByte 6, sync := true, cur := s.rxByte 6, exp := s.prev + 1
        diag := s.diag ++ (diagsOf (seqEvents s.prev s.rxFrame)).map Diag.record
        trace := s.trace ++ seqEvents s.prev s.rxFrame
        st := sScan, sx := s.cfg.width - 1, sy := yStart s.cfg (s.cfg.width - 1)
        ux := p.ux, uy := p.uy, up := p.up, col := p.col, lattice := p.lattice
        turns := p.turns, upstream := p.upstream, txq := p.txq, wire := p.wire } := by
  have hled : 1 ≤ s.cfg.ledCount := Nat.mul_pos hc.1 hc.2.1
  obtain ⟨w, hw, hpw⟩ := stepValidate_leaves (s.cfg.ledCount + s.turns.length) hs (by omega)
  have wf := hw.frame
  have wx : w.rxFrame = s.rxFrame := by rw [wf]; rfl
  have w6 : w.rxByte 6 = s.rxByte 6 := by rw [wf]; rfl
  have wp : w.prev = s.prev := by rw [wf]
  have wm : magicOk w.rxFrame = true := by rw [wx]; exact hm
  obtain ⟨v, hv⟩ : ∃ v, v = w.validated := ⟨_, rfl⟩
  have hvf := hv.trans (State.validated_sync wm)
  rw [← hv] at hpw
  rw [wx, w6, wp] at hvf
  have vcfg : v.cfg = s.cfg := by rw [hvf, wf]
  have vst : v.st = sUnpack := by rw [hvf]
  have va : cellAddr v.cfg v.ux v.uy = 0 := by rw [hvf]; simp [cellAddr]
  have vx : v.rxFrame = s.rxFrame := by rw [hvf]; exact wx
  have vlat : v.lattice = s.lattice := by rw [hvf, wf]
  have vux : v.ux = 0 := by rw [hvf]
  have vuy : v.uy = 0 := by rw [hvf]
  have vup : v.up = 8 := by rw [hvf]
  have vfifo : v.wire ++ v.txq = s.wire ++ s.txq := by rw [← hw.fifo]; rw [hvf]
  have vbytes : v.upstream ++ scheduledBytes v.turns = s.upstream ++ scheduledBytes s.turns := by
    rw [← hw.bytes]; rw [hvf]
  obtain ⟨p, ⟨p1, p2, p3, _, _, p6, p7⟩, p8⟩ := unpack_schedule (v.cfg.ledCount + v.turns.length) vst
    (by rw [vux, vcfg]; exact hc.1) (by rw [vuy, vcfg]; exact hc.2.1) (by rw [va, vup]) (by omega)
  have pcfg : p.cfg = s.cfg := by rw [p7]; exact vcfg
  refine ⟨v, p, hpw, by rw [hvf], p8, fun x y hx hy => ?_, fun a ha => ?_, p3.trans vfifo, p6.trans vbytes, ?_⟩
  · have hl := cellAddr_lt hx hy
    rw [State.cell, pcfg, p1 _ (by omega) (by rw [vcfg]; exact hl), ← vx,
      State.recordCell_rxFrame v (by rw [vcfg]; exact hl)]
  · rw [p2 a (.inr (by rw [vcfg]; exact ha)), vlat]
  · rw [p7]; rw [vcfg]; rw [hvf]; rw [wf]

/-- A SYNCHRONIZED buffer under any schedule and with any depth of the queue. -/
theorem process_sync_schedule {s : State} (hc : s.cfg.Valid) (hs : s.st = sValidate) (hm : magicOk s.rxFrame = true) :
    ∃ t k, SyncSchedule s t k ∧ processBuffer s = .next t := by
  obtain ⟨v, p, hv, vs, hp, p1, p2, p3, p4, pf⟩ := validate_unpack_schedule hc hs hm
  have pcfg : p.cfg = s.cfg := by rw [pf]
  have pst : p.st = sScan := by rw [pf]
  have psx : p.sx = s.cfg.width - 1 := by rw [pf]
  have psy : p.sy = yStart s.cfg (s.cfg.width - 1) := by rw [pf]
  have po : scanOrd p.cfg p.sx p.sy = 0 := by rw [psx, psy, pcfg, scanOrd_start]
  have ptr : p.trace = s.trace ++ seqEvents s.prev s.rxFrame := by rw [pf]
  obtain ⟨t, k, ⟨t1, t2, t3, t4, t5⟩, t6⟩ := render_schedule (p.cfg.ledCount + p.turns.length) pst
    (by rw [psx, pcfg]; have := hc.1; omega) (by rw [psy, pcfg]; exact yStart_lt hc.2.1 _) (by omega)
  rw [po, List.drop_zero, pcfg, renderWords_congr hc p1] at t1 t2
  rw [po, Nat.zero_add, pcfg] at t4
  have tcell : t.cell = p.cell := by rw [t5]; rfl
  have tlat : t.lattice = p.lattice := by rw [t5]
  refine ⟨t, k, ⟨fun x y hx hy => by rw [tcell]; exact p1 x y hx hy, fun a ha => by rw [tlat]; exact p2 a ha, ?_, ?_,
    t3.trans p4, t4, ?_⟩, ?_⟩
  · rw [t1, ptr, List.append_assoc]; rfl
  · rw [t2, p3]; rfl
  · rw [t5]; rw [pf]
  · rw [processBuffer, hv, andThen_next, finishCycle, if_pos vs, hp, andThen_next]; exact t6

/-- A DESYNCHRONIZED buffer under any schedule. -/
theorem process_desync_schedule {s : State} (hc : s.cfg.Valid) (hs : s.st = sValidate) (hm : magicOk s.rxFrame = false) :
    ∃ t, processBuffer s = .next t ∧ t.wire ++ t.txq = s.wire ++ s.txq ∧
      t.upstream ++ scheduledBytes t.turns = s.upstream ++ scheduledBytes s.turns ∧
      t = { s with
        sync := false, st := sWait, diag := s.diag ++ [Diag.desync.record]
        trace := s.trace ++ [.diag .desync, .reinit]
        turns := t.turns, upstream := t.upstream, txq := t.txq, wire := t.wire } := by
  have hled : 1 ≤ s.cfg.ledCount := Nat.mul_pos hc.1 hc.2.1
  obtain ⟨w, hw, hpw⟩ := stepValidate_leaves (s.cfg.ledCount + s.turns.length) hs (by omega)
  have wf := hw.frame
  have wm : magicOk w.rxFrame = false := by rw [← hm, wf]; rfl
  obtain ⟨v, hv⟩ : ∃ v, v = w.validated := ⟨_, rfl⟩
  have hvf := hv.trans (State.validated_desync wm)
  rw [← hv] at hpw
  have vcfg : v.cfg = s.cfg := by rw [hvf, wf]
  have vst : v.st = sResync := by rw [hvf]
  have vs : v.sync = false := by rw [hvf]
  have vfifo : v.wire ++ v.txq = s.wire ++ s.txq := by rw [← hw.fifo]; rw [hvf]
  have vbytes : v.upstream ++ scheduledBytes v.turns = s.upstream ++ scheduledBytes s.turns := by
    rw [← hw.bytes]; rw [hvf]
  obtain ⟨q, hq, hpq⟩ := phase_single (code := sResync) (op := stepResync) (f := State.resynced) (fun _ _ => rfl)
    (fun u _ => by rw [State.resynced_eq]; simp) (v.cfg.ledCount + v.turns.length) vst (by rw [vcfg]; omega)
  have qf := hq.frame
  obtain ⟨t, ht⟩ : ∃ t, t = q.resynced := ⟨_, rfl⟩
  have htf := ht.trans q.resynced_eq
  rw [← ht] at hpq
  refine ⟨t, ?_, ?_, ?_, ?_⟩
  · rw [processBuffer, runPhase, hpw, andThen_next, finishCycle, if_neg (by rw [vs]; decide), runPhase, hpq]
  · rw [← vfifo, ← hq.fifo]; rw [htf]
  · rw [← vbytes, ← hq.bytes]; rw [htf]
  · rw [htf]; rw [qf]; rw [hvf]; rw [wf]

end Sys2Proof.Machine
end

