-- ==== Sys2Proof/Tests/Slice0.lean ====
section
/-! SUPPORT. Tests of the model on single operations, with expected values from spec/95_test_vectors.md or computed by hand
from the rule a comment names, and one witness per obligation that its hypotheses can be met, at the ends of their
ranges. -/

namespace Sys2Proof.Tests

open Sys2Proof.Machine

/-! ### Helpers -/

/-- A machine of w by h pixels after reset, with a queue of d words. -/
def machine (w h d : Nat) : State :=
  State.resetWith
    { width := w, height := h, txqDepth := d, txbufInit := List.replicate (8 + 3 * (w * h)) 0 }

/-- The same machine in a state code, with bytes in RXBUF. -/
def inState (s : State) (st : StCode) (rx : List Byte) : State := { s with st := st, rxbuf := Memory.ofList 0 rx }

/-- The magic sequence, a counter, a reserved byte, and a payload. -/
def frame (seq rsv : Byte) (payload : List Byte) : List Byte := [0x01, 0x02, 0x04, 0x08, 0x07, 0x05, seq, rsv] ++ payload

/-- A view of the next state, if there is one. -/
def after {α : Type} (r : Result) (f : State → α) : Option α :=
  match r with
  | .next t => some (f t)
  | .fault _ => none
  | .refused _ => none

/-- The fault of an outcome, if it is one. -/
def faultOf (r : Result) : Option Fault :=
  match r with
  | .next _ => none
  | .fault e => some e
  | .refused _ => none

/-- The refusal of an outcome, if it is one. -/
def refusalOf (r : Result) : Option Refusal :=
  match r with
  | .next _ => none
  | .fault _ => none
  | .refused e => some e

/-- A one-pixel machine with a valid frame in RXBUF. -/
def onePixel (st : StCode) (seq : Byte) : State := inState (machine 1 1 1) st (frame seq 0 [0x11, 0x22, 0x33])

/-- A one-pixel machine with a buffer that has lost its alignment (95_test_vectors.md V3). -/
def misaligned (st : StCode) : State :=
  inState (machine 1 1 1) st [0x00, 0x02, 0x04, 0x08, 0x07, 0x05, 0x00, 0x00, 0x11, 0x22, 0x33]

/-- The frame of 95_test_vectors.md 2.3 (payload `xy`, 4 by 2). -/
def xyFrame : List Byte :=
  [0x01, 0x02, 0x04, 0x08, 0x07, 0x05, 0x05, 0x00, 0, 0, 0, 1, 0, 0, 2, 0, 0, 3, 0, 0, 0, 1, 0, 1, 1, 0, 2, 1, 0, 3, 1, 0]

/-- A 4 by 2 machine in S_UNPACK with that frame and given indices. -/
def unpacking (ux uy up : Nat) : State :=
  { inState (machine 4 2 64) sUnpack xyFrame with ux := ux, uy := uy, up := up, sync := true }

/-- A 4 by 2 machine in S_SCAN at a cell, with n words in its queue of 8. -/
def scanning (sx sy n : Nat) : State :=
  { inState (machine 4 2 8) sScan xyFrame with sx := sx, sy := sy, sync := true, txq := List.replicate n 0 }

/-! ### Well-formedness: an ill-formed term for each check -/

/-- R81: a SYNC_FRAME has LED_COUNT records, here 1. -/
theorem test_wf_payload :
    (Instr.syncFrame 0 0 [⟨1, 2, 3⟩]).wellFormed (machine 1 1 1).cfg = true ∧
      (Instr.syncFrame 0 0 []).wellFormed (machine 1 1 1).cfg = false ∧
      (Instr.syncFrame 0 0 [⟨1, 2, 3⟩, ⟨4, 5, 6⟩]).wellFormed (machine 1 1 1).cfg = false := by decide

/-- R94: a buffer has N bytes. R90: a DESYNC_FRAME does not begin with the magic sequence. -/
theorem test_wf_desync :
    (Instr.desyncFrame (List.replicate 11 0)).wellFormed (machine 1 1 1).cfg = true ∧
      (Instr.desyncFrame (List.replicate 10 0)).wellFormed (machine 1 1 1).cfg = false ∧
      (Instr.desyncFrame (frame 0 0 [1, 2, 3])).wellFormed (machine 1 1 1).cfg = false := by decide

/-- R9, R10: what is no configuration. -/
theorem test_config_valid :
    Config.default.Valid ∧ ¬ (machine 0 1 1).cfg.Valid ∧ ¬ (machine 1 0 1).cfg.Valid ∧ ¬ (machine 1 1 0).cfg.Valid ∧
      ¬ { Config.default with txbufInit := [] }.Valid := by decide

/-! ### Decoding, from words written out from the encodings -/

/-- R90, V1, V4: header words, in the numbering of the table. -/
theorem test_decode_header :
    decodeTableWord 64 0x0102040807052A07 = some (.syncFrame 0x2A 0x07 (List.replicate 8 ⟨0, 0, 0⟩)) ∧
      (decodeTableWord 64 0x0102040807040000).map (encode ·) =
        some (some (.frame ([0x01, 0x02, 0x04, 0x08, 0x07, 0x04, 0x00, 0x00] ++ List.replicate 24 0))) ∧
      decodeTableWord 64 0 = some (.desyncFrame (List.replicate 32 0)) := by decide

/-- R95, R96: the selectors of the five primary operations, with don't-care bits set, and unused state codes. -/
theorem test_decode_selector :
    decodeTableWord 8 0b00011 = some .xchg ∧ decodeTableWord 8 0b00111 = some .validate ∧
      decodeTableWord 8 0b01000 = some .unpk1 ∧ decodeTableWord 5 0b01110 = some .emit1 ∧
      decodeTableWord 8 0b10001 = some .resync ∧ decodeTableWord 8 0b10100 = none ∧
      decodeTableWord 8 0b11111 = none ∧ decodeTableWord 8 32 = none := by decide

/-- R84: the bytes of a pixel record; R85: the cell; R81: the buffer. -/
theorem test_frame_bytes :
    frameBytes 0x01 0x00 [⟨0x10, 0x00, 0xF0⟩, ⟨0x20, 0x01, 0xEF⟩] =
        [0x01, 0x02, 0x04, 0x08, 0x07, 0x05, 0x01, 0x00, 0x10, 0x00, 0xF0, 0x20, 0x01, 0xEF] ∧
      Color.cell ⟨0x10, 0x00, 0xF0⟩ = 0x1000F0 ∧
      pixelsOf [0x10, 0x00, 0xF0, 0x20, 0x01, 0xEF] = [⟨0x10, 0x00, 0xF0⟩, ⟨0x20, 0x01, 0xEF⟩] := by decide

/-- R97: `xy` of the notation, for 4 by 2, is the payload of 2.3. -/
theorem test_notation_xy :
    frameBytes 0x05 0x00 (xyPixels (machine 4 2 1).cfg) = xyFrame ∧
      (fillPixels (machine 4 2 1).cfg ⟨1, 2, 3⟩).length = 8 := by decide

/-- R88, V44 to V47. -/
theorem test_diag_record :
    Diag.record .desync = 0x000000 ∧ Diag.record (.seq 0x06 0x07) = 0x010607 ∧
      Diag.record (.seq 0x00 0xFF) = 0x0100FF ∧ Diag.record (.seq 0x01 0x00) = 0x010100 := by decide

/-! ### Placing a word and running it first after reset -/

theorem test_fetch_selector :
    after (step (State.reset.withFetchWord 8 0b00000)) State.st = some sValidate ∧
      (State.reset.withFetchWord 8 0b00111).sel = 0b00111 ∧
      after (step (State.reset.withFetchWord 8 0b00111)) State.diag = some [0x010100] ∧
      after (step (State.reset.withFetchWord 8 0b01000)) State.ux = some 1 ∧
      after (step (State.reset.withFetchWord 8 0b01100)) State.txq = some [0x00000000] ∧
      after (step (State.reset.withFetchWord 8 0b10000)) State.st = some sWait ∧
      faultOf (step (State.reset.withFetchWord 8 0b10100)) = some .stuckState := by decide

theorem test_fetch_header :
    after (step (State.reset.withFetchWord 64 0x0102040807050100)) (fun t => (t.st, t.prev)) = some (sUnpack, 0x01) ∧
      after (step (State.reset.withFetchWord 64 0)) State.st = some sResync ∧
      after (exec (.desyncFrame (List.replicate 32 0)) (State.reset.withFetchWord 64 0)) State.trace =
        some [.diag .desync, .reinit] := by decide

/-! ### Reset and memory -/

/-- R40, and the canonical form. -/
theorem test_reset :
    State.reset.st = sWait ∧ State.reset.prev = 0x00 ∧ State.reset.txq = [] ∧ State.reset.rxbuf.wf ∧
      State.reset.txbuf.wf ∧ State.reset.lattice.wf ∧ after (step State.reset) id = some State.reset := by decide

/-- A write puts its entry in place, and the value an unlisted index reads as removes it. -/
theorem test_memory_write :
    Memory.write [(1, 0x0A#8), (5, 0x0B#8)] 3 0x0C = [(1, 0x0A), (3, 0x0C), (5, 0x0B)] ∧
      Memory.write [(1, 0x0A#8), (5, 0x0B#8)] 1 0 = [(5, 0x0B)] ∧
      Memory.write [(1, 0x0A#8), (5, 0x0B#8)] 5 0x0D = [(1, 0x0A), (5, 0x0D)] := by decide

/-! ### One step of each operation -/

/-- V1 to V8: the bit MCMP leaves. -/
theorem test_mcmp_vectors :
    ([[0x01, 0x02, 0x04, 0x08, 0x07, 0x05, 0x00, 0x00], [0x01, 0x02, 0x04, 0x08, 0x07, 0x05, 0xFF, 0xFF],
        [0x00, 0x02, 0x04, 0x08, 0x07, 0x05, 0x00, 0x00], [0x01, 0x02, 0x04, 0x08, 0x07, 0x04, 0x00, 0x00],
        [0x00, 0x01, 0x02, 0x04, 0x08, 0x07, 0x05, 0x00], [0x02, 0x04, 0x08, 0x07, 0x05, 0x00, 0x00, 0x00],
        [0x00, 0x00, 0x00, 0x00, 0x00, 0x00, 0x00, 0x00], [0x05, 0x07, 0x08, 0x04, 0x02, 0x01, 0x00, 0x00]].map
      fun h => after (exec .mcmp (inState (machine 1 1 1) sValidate h)) State.sync) =
      [some true, some true, some false, some false, some false, some false, some false, some false] := by decide

/-- V9 to V16 through VALIDATE: records and PREV. -/
theorem test_validate_vectors :
    ([(0x05, 0x06), (0x05, 0x07), (0xFF, 0x00), (0xFF, 0x01), (0x05, 0x05), (0x05, 0x04), (0x00, 0x00), (0x00, 0x01)].map
      fun (p, b) => after (exec .validate { onePixel sValidate b with prev := p }) fun t => (t.diag, t.prev)) =
      [some ([], 0x06), some ([0x010607], 0x07), some ([], 0x00), some ([0x010001], 0x01), some ([0x010605], 0x05),
        some ([0x010604], 0x04), some ([0x010100], 0x00), some ([], 0x01)] := by decide

/-- V50, V51. -/
theorem test_validate_control :
    after (exec .validate { onePixel sValidate 0x00 with prev := 0xFF, ux := 7, uy := 7, up := 7 })
        (fun t => (t.st, t.prev, t.ux, t.uy, t.up)) = some (sUnpack, 0x00, 0, 0, 8) ∧
      after (exec .validate { misaligned sValidate with prev := 0x05, ux := 7 })
        (fun t => (t.st, t.prev, t.ux, t.diag)) = some (sResync, 0x05, 7, []) := by decide

/-- V10 by SEQCHK alone: CUR and EXP, and PREV not yet. -/
theorem test_seqchk :
    after (exec .seqchk { onePixel sValidate 0x07 with prev := 0x05, sync := true })
      (fun t => (t.cur, t.exp, t.prev, t.diag)) = some (0x07, 0x06, 0x05, [0x010607]) := by decide

/-- With SYNC = 0 the parts of VALIDATE do not execute (R95, 95_test_vectors.md 2.2). -/
theorem test_parts_need_sync :
    refusalOf (exec .seqchk (onePixel sValidate 0x07)) = some .notSelected ∧
      refusalOf (exec .sequpd (onePixel sValidate 0x07)) = some .notSelected ∧
      refusalOf (exec .diagSeq (onePixel sValidate 0x07)) = some .notSelected := by decide

/-- V46. -/
theorem test_diagSeq :
    after (exec .diagSeq { onePixel sValidate 0xFF with prev := 0xFF, sync := true, exp := 0x00, cur := 0xFF })
      (fun t => (t.diag, t.trace)) = some ([0x0100FF], [.diag (.seq 0x00 0xFF)]) := by decide

/-- R124. -/
theorem test_sequpd :
    after (exec .sequpd { onePixel sValidate 0x07 with sync := true, cur := 0x07 }) State.prev = some 0x07 := by decide

/-- V49: the buffer delivered, the next one left, TXBUF out. -/
theorem test_xchg :
    after (exec .xchg { machine 1 1 1 with upstream := frame 9 0 [1, 2, 3] ++ [0xAA], txbuf := [(10, 0x55)] })
      (fun t => (t.rxFrame, t.upstream, t.shiftedOut, t.st)) =
      some (frame 9 0 [1, 2, 3], [0xAA], [0, 0, 0, 0, 0, 0, 0, 0, 0, 0, 0x55], sValidate) := by decide

/-- V48. -/
theorem test_xchg_held :
    after (exec .xchg { machine 1 1 1 with upstream := List.replicate 10 1 }) id =
      some { machine 1 1 1 with upstream := List.replicate 10 1 } := by decide

/-- V17 to V19. -/
theorem test_unpk1_vectors :
    ([(0, 0, 8), (3, 0, 17), (0, 1, 20)].map fun (x, y, p) =>
        after (exec .unpk1 (unpacking x y p)) fun t => (t.cell x y, t.ux, t.uy, t.up, t.st)) =
      [some (0x000000, 1, 0, 11, sUnpack), some (0x030000, 0, 1, 20, sUnpack),
        some (0x000100, 1, 1, 23, sUnpack)] := by decide

/-- V20, and the one-pixel corner of 2.3. -/
theorem test_unpk1_last :
    after (exec .unpk1 (unpacking 3 1 29)) (fun t => (t.cell 3 1, t.st, t.sx, t.sy)) =
        some (0x030100, sScan, 3, 0) ∧
      after (exec .unpk1 (onePixel sUnpack 0)) (fun t => (t.cell 0 0, t.st, t.sx, t.sy)) =
        some (0x112233, sScan, 0, 0) := by decide

/-- S7, record by record, for 4 by 2. -/
theorem test_unpack :
    after (exec .unpack (unpacking 0 0 8)) (fun t => (t.cell 2 0, t.cell 0 1, t.cell 3 1, t.st, t.sx, t.sy)) =
      some (0x020000, 0x000100, 0x030100, sScan, 3, 0) := by decide

/-- S6 and V42. -/
theorem test_ser :
    after (exec .ser { onePixel sScan 0 with col := 0x112233 }) State.w24 = some 0x221133 ∧
      after (exec .ser { onePixel sScan 0 with col := 0x80017F }) State.w24 = some 0x01807F := by decide

/-- S6. -/
theorem test_pad : after (exec .pad { onePixel sScan 0 with w24 := 0x221133 }) State.ow = some 0x22113300 := by decide

/-- R170: at the tail. -/
theorem test_put :
    after (exec .put { scanning 0 0 0 with ow := 0x22113300, txq := [0x01020300] })
      (fun t => (t.txq, t.trace)) = some ([0x01020300, 0x22113300], [.put 0x22113300]) := by decide

/-- V30 to V35. -/
theorem test_scanadv_vectors :
    ([(3, 0), (3, 1), (2, 1), (2, 0), (0, 1)].map fun (x, y) =>
        after (exec .scanadv (scanning x y 0)) fun t => (t.sx, t.sy, t.st)) =
      [some (3, 1, sScan), some (2, 1, sScan), some (2, 0, sScan), some (1, 0, sScan), some (0, 0, sScan)] ∧
      after (exec .scanadv (scanning 0 0 0)) State.st = some sWait := by decide

/-- V54 with V36. -/
theorem test_emit1 :
    after (exec .emit1 { onePixel sScan 0 with lattice := [(0, 0x112233)] })
      (fun t => (t.col, t.ow, t.txq, t.trace, t.st)) =
      some (0x112233, 0x22113300, [0x22113300], [.put 0x22113300], sWait) := by decide

/-- V53. -/
theorem test_emit1_held : after (exec .emit1 (scanning 2 1 8)) id = some (scanning 2 1 8) := by decide

/-- P4: the words of a 4 by 1 pass. -/
theorem test_render :
    after (exec .render { machine 4 1 4 with
        st := sScan, sx := 3, lattice := [(0, 0x010203), (1, 0x040506), (2, 0x070809), (3, 0x0A0B0C)] })
      (fun t => (t.txq, t.st)) = some ([0x0B0A0C00, 0x08070900, 0x05040600, 0x02010300], sWait) := by decide

/-- A render pass that finds the queue full stops where it is held (R157, R171; log entry 10), and the pulse engine's turns
let it go on (R39(a)). -/
theorem test_render_held :
    after (exec .render { machine 4 1 3 with st := sScan, sx := 3 }) (fun t => (t.txq.length, t.sx, t.st)) =
        some (3, 0, sScan) ∧
      after (exec .render { machine 4 1 3 with st := sScan, sx := 3, turns := [.pulse, .sequencer, .pulse] })
        (fun t => (t.txq.length, t.wire.length, t.st)) = some (3, 1, sWait) := by decide

/-- V52. -/
theorem test_resync :
    after (exec .resync { misaligned sResync with prev := 0x05, lattice := [(0, 0x112233)] })
      (fun t => (t.st, t.prev, t.cell 0 0, t.trace, t.diag)) =
      some (sWait, 0x05, 0x112233, [.diag .desync, .reinit], [0x000000]) := by decide

/-- R114, R205: the two parts, each alone. -/
theorem test_resync_parts :
    after (exec .reinit (misaligned sResync)) (fun t => (t.trace, t.diag, t.st)) = some ([.reinit], [], sResync) ∧
      after (exec .diagDesync (misaligned sResync)) (fun t => (t.trace, t.diag, t.st)) =
        some ([.diag .desync], [0x000000], sResync) := by decide

/-- P5's machine, 1 by 2, with PREV 08 and a buffer in the transport. -/
def beforeCycle (b : List Byte) : State := { machine 1 2 2 with prev := 0x08, upstream := b }

/-- P5's last buffer, one CYCLE. -/
theorem test_cycle_sync :
    after (exec .cycle
        (beforeCycle [0x01, 0x02, 0x04, 0x08, 0x07, 0x05, 0x09, 0x00, 0xAA, 0xBB, 0xCC, 0x11, 0x22, 0x33]))
      (fun t => (t.prev, t.txq, [t.cell 0 0, t.cell 0 1])) =
      some (0x09, [0x22113300, 0xBBAACC00], [0xAABBCC, 0x112233]) := by decide

/-- P5's third buffer, one CYCLE. -/
theorem test_cycle_desync :
    after (exec .cycle
        (beforeCycle [0x01, 0x02, 0x04, 0x08, 0x07, 0x04, 0x09, 0x00, 0xAA, 0xBB, 0xCC, 0x11, 0x22, 0x33]))
      (fun t => (t.prev, t.txq, t.trace.drop 1)) = some (0x08, [], [.diag .desync, .reinit]) := by decide

/-- P3, first frame shortened to one pixel: the reserved byte has no effect. -/
theorem test_syncFrame :
    after (exec (.syncFrame 0x00 0x5A [⟨0xFF, 0x00, 0x00⟩])
        { inState (machine 1 1 1) sValidate (frame 0x00 0x5A [0xFF, 0x00, 0x00]) with prev := 0xFF })
      (fun t => (t.prev, t.txq, t.diag, t.st)) = some (0x00, [0x00FF0000], [], sWait) := by decide

/-- R90: a frame operation executes only on its own buffer. -/
theorem test_frames_need_their_buffer :
    refusalOf (exec (.syncFrame 0x01 0x00 [⟨0x11, 0x22, 0x33⟩]) (onePixel sValidate 0x02)) = some .notSelected ∧
      refusalOf (exec (.desyncFrame (frame 2 0 [0x11, 0x22, 0x33])) (onePixel sValidate 0x02)) =
        some .notSelected := by decide

/-- P5's second buffer, shortened to one pixel. -/
theorem test_desyncFrame :
    after (exec (.desyncFrame (List.replicate 11 0)) { inState (machine 1 1 1) sValidate [] with prev := 0x08 })
      (fun t => (t.prev, t.diag, t.trace, t.st)) = some (0x08, [0x000000], [.diag .desync, .reinit], sWait) := by decide

/-- V21 to V28: the record indices in emission order. -/
theorem test_scan_order :
    ([(1, 1), (1, 4), (4, 1), (2, 3), (3, 2), (4, 2)].map fun (w, h) =>
        (List.range (w * h)).map fun k =>
          cellAddr (machine w h 1).cfg (scanCell (machine w h 1).cfg k).1 (scanCell (machine w h 1).cfg k).2) =
      [[0], [3, 2, 1, 0], [3, 2, 1, 0], [1, 3, 5, 4, 2, 0], [5, 2, 1, 4, 3, 0], [3, 7, 6, 2, 1, 5, 4, 0]] := by decide

/-- S5: with SCAN_ODD_ASC = false the order is the one section 8 of the source prints (R161). -/
theorem test_scan_order_other_parity :
    (List.range 8).map (scanCell { (machine 4 2 1).cfg with scanOddAsc := false }) =
      [(3, 1), (3, 0), (2, 0), (2, 1), (1, 1), (1, 0), (0, 0), (0, 1)] := by decide

/-! ### Witnesses: the hypotheses of each obligation can be met -/

theorem witness_DecodeEncodeAgree :
    ((Instr.syncFrame 0xFF 0xFF [⟨0xFF, 0xFF, 0xFF⟩]).wellFormed (machine 1 1 1).cfg = true ∧
        encode (.syncFrame 0xFF 0xFF [⟨0xFF, 0xFF, 0xFF⟩]) = some (.frame (frame 0xFF 0xFF [0xFF, 0xFF, 0xFF]))) ∧
      ((Instr.desyncFrame (List.replicate 11 0)).wellFormed (machine 1 1 1).cfg = true ∧
        encode (.desyncFrame (List.replicate 11 0)) = some (.frame (List.replicate 11 0))) ∧
      (Instr.resync.wellFormed (machine 1 1 1).cfg = true ∧ encode .resync = some (.select 0b10000)) := by decide

theorem witness_EveryBufferHasOneClass :
    ((frame 1 2 [3, 4, 5]).length = (machine 1 1 1).cfg.frameLen ∧
        (frame 1 2 [3, 4, 5]).take 6 = [0x01, 0x02, 0x04, 0x08, 0x07, 0x05]) ∧
      ((List.replicate 11 0xFF#8).length = (machine 1 1 1).cfg.frameLen ∧
        (List.replicate 11 0xFF#8).take 6 ≠ [0x01, 0x02, 0x04, 0x08, 0x07, 0x05]) ∧
      (frame 1 2 [3, 4]).length ≠ (machine 1 1 1).cfg.frameLen := by decide

theorem witness_MaskedHeaderIsMagicPredicate :
    (8 ≤ (frame 1 2 []).length ∧ magicOk (frame 1 2 []) = true) ∧
      (8 ≤ (List.replicate 8 0#8).length ∧ magicOk (List.replicate 8 0) = false) := by decide

theorem witness_SelectorRowsFollowTheMap : ∀ st ∈ [(5 : StCode), 6, 7], 5 ≤ st.toNat := by decide

theorem witness_StepRunsDecodedOperation :
    (∀ p ∈ [(sWait, Instr.xchg), (sValidate, .validate), (sUnpack, .unpk1), (sScan, .emit1), (sResync, .resync)],
        (decode (onePixel p.1 0).cfg (.select (onePixel p.1 0).sel)).toOption = some p.2) ∧
      (onePixel sWait 0).turns = [] ∧
      { onePixel sScan 0 with turns := [.sequencer, .pulse] }.turns = .sequencer :: [.pulse] := by decide

theorem witness_EnvironmentTurnsOnlyTouchTheirSide :
    { machine 1 1 1 with turns := [.transport [1, 2]] }.turns = .transport [1, 2] :: [] ∧
      { machine 1 1 1 with turns := [.pulse, .sequencer] }.turns = .pulse :: [.sequencer] := by decide

theorem witness_UnusedStateCodesAreStuck :
    ∀ st ∈ [(5 : StCode), 6, 7], (onePixel st 0).turns = [] ∧ 5 ≤ (onePixel st 0).st.toNat := by decide

theorem witness_IndicesOutOfRangeAreStuck :
    (∀ s ∈ [unpacking 4 0 8, unpacking 0 2 8, unpacking 0 0 30, unpacking 0 0 7],
        s.cfg.Valid ∧ s.st = sUnpack ∧
          (s.cfg.width ≤ s.ux ∨ s.cfg.height ≤ s.uy ∨ s.cfg.frameLen < s.up + 3 ∨ s.up < 8)) ∧
      (∀ s ∈ [scanning 4 0 0, scanning 0 2 0],
        s.cfg.Valid ∧ s.st = sScan ∧ (s.cfg.width ≤ s.sx ∨ s.cfg.height ≤ s.sy)) := by decide

theorem witness_PrimaryOperationsNeedTheirState :
    (∀ st ∈ [sValidate, sUnpack, sScan, sResync, 5, 6, 7], (onePixel st 0).cfg.Valid ∧ (onePixel st 0).st ≠ sWait) ∧
      (onePixel sWait 0).cfg.Valid ∧ (onePixel sWait 0).st ≠ sValidate ∧ (onePixel sWait 0).st ≠ sUnpack ∧
      (onePixel sWait 0).st ≠ sScan ∧ (onePixel sWait 0).st ≠ sResync := by decide

/-- One state per row of R182 and per hold. -/
def rowStates : List State :=
  [{ machine 1 1 1 with upstream := List.replicate 11 0 }, { machine 1 1 1 with upstream := List.replicate 10 0 },
    onePixel sValidate 1, misaligned sValidate, unpacking 0 0 8, unpacking 3 1 29, scanning 3 0 8, scanning 3 0 7,
    scanning 0 0 7, misaligned sResync]

theorem witness_EveryStepIsARowOfTheTransitionTable :
    (∀ s ∈ rowStates, s.turns = [] ∧ (after (step s) id).isSome = true) ∧
      (rowStates.map fun s => after (step s) State.st) =
        [some sValidate, some sWait, some sUnpack, some sResync, some sUnpack, some sScan, some sScan, some sScan,
          some sWait, some sWait] := by decide

theorem witness_NotAConfigurationIsRefused :
    (machine 0 1 1).cfg.width = 0 ∧ (machine 1 0 1).cfg.height = 0 ∧ (machine 1 1 0).cfg.txqDepth = 0 ∧
      { Config.default with txbufInit := [] }.txbufInit.length ≠ { Config.default with txbufInit := [] }.frameLen := by
  decide

/-- Every operation completes in some state. -/
theorem witness_ConfigurationAndTransmitBufferAreFixed :
    (∀ p ∈ [(Instr.xchg, onePixel sWait 0), (.validate, onePixel sValidate 0), (.mcmp, onePixel sValidate 0),
        (.seqchk, { onePixel sValidate 0 with sync := true }),
        (.diagSeq, { onePixel sValidate 0 with sync := true, exp := 1 }),
        (.sequpd, { onePixel sValidate 0 with sync := true }), (.unpk1, unpacking 0 0 8), (.emit1, scanning 3 0 0),
        (.ser, scanning 3 0 0), (.pad, scanning 3 0 0), (.put, scanning 3 0 0), (.scanadv, scanning 3 0 0),
        (.resync, misaligned sResync), (.diagDesync, misaligned sResync), (.reinit, misaligned sResync),
        (.unpack, onePixel sUnpack 0), (.render, onePixel sScan 0), (.cycle, onePixel sWait 0),
        (.syncFrame 0 0 [⟨0x11, 0x22, 0x33⟩], onePixel sValidate 0),
        (.desyncFrame [0x00, 0x02, 0x04, 0x08, 0x07, 0x05, 0x00, 0x00, 0x11, 0x22, 0x33], misaligned sValidate)],
        (after (exec p.1 p.2) id).isSome = true) ∧
      ∀ s ∈ rowStates, (after (step s) id).isSome = true := by decide

/-- Reset, and a power-on state with bytes in RXBUF and LATTICE and a schedule. -/
theorem witness_PowerOnMeetsTheInvariant :
    State.reset.PowerOn ∧
      { machine 1 1 1 with
        rxbuf := [(0, 0x5A)], lattice := [(0, 0x123456)], sync := true, sx := 9, upstream := [1, 2]
        turns := [.pulse, .transport [7]] : State }.PowerOn :=
  ⟨⟨by decide, rfl, rfl, by decide, by decide, by decide, by decide, by decide, rfl, rfl, rfl, rfl, rfl⟩,
    ⟨by decide, rfl, rfl, by decide, by decide, by decide, by decide, by decide, rfl, rfl, rfl, rfl, rfl⟩⟩

theorem witness_PowerOnTraceIsEmptyFold : State.reset.PowerOn := witness_PowerOnMeetsTheInvariant.1

/-- A one-pixel machine, PREV_RESET 00, in each state code of a first cycle with counter 01. -/
def inCycle (st : StCode) : State :=
  { onePixel st 0x01 with
    sync := st != sWait && st != sValidate
    prev := if st = sUnpack ∨ st = sScan then 0x01 else 0x00
    up := 8
    lattice := if st = sScan then [(0, 0x112233)] else []
    trace := if st = sWait then [] else [.xchg (frame 0x01 0 [0x11, 0x22, 0x33])] }

/-- The same in S_RESYNC, after a buffer that lost its alignment. -/
def inResync : State :=
  { misaligned sResync with trace := [.xchg [0x00, 0x02, 0x04, 0x08, 0x07, 0x05, 0x00, 0x00, 0x11, 0x22, 0x33]] }

theorem witness_StepKeepsTheInvariant :
    (∃ t, (inCycle sWait).Inv ∧ step (inCycle sWait) = .next t) ∧
      (∃ t, (inCycle sValidate).Inv ∧ step (inCycle sValidate) = .next t) ∧
      (∃ t, (inCycle sUnpack).Inv ∧ step (inCycle sUnpack) = .next t) ∧
      (∃ t, (inCycle sScan).Inv ∧ step (inCycle sScan) = .next t) ∧
      (∃ t, inResync.Inv ∧ step inResync = .next t) := by
  refine ⟨⟨_, ⟨?_, ?_, ?_, ?_, ?_, ?_, ?_, ?_, ?_, ?_, ?_, ?_, ?_⟩, rfl⟩,
    ⟨_, ⟨?_, ?_, ?_, ?_, ?_, ?_, ?_, ?_, ?_, ?_, ?_, ?_, ?_⟩, rfl⟩,
    ⟨_, ⟨?_, ?_, ?_, ?_, ?_, ?_, ?_, ?_, ?_, ?_, ?_, ?_, ?_⟩, rfl⟩,
    ⟨_, ⟨?_, ?_, ?_, ?_, ?_, ?_, ?_, ?_, ?_, ?_, ?_, ?_, ?_⟩, rfl⟩,
    ⟨_, ⟨?_, ?_, ?_, ?_, ?_, ?_, ?_, ?_, ?_, ?_, ?_, ?_, ?_⟩, rfl⟩⟩ <;> decide

theorem witness_NothingIsFatal :
    (inCycle sWait).Inv ∧ (inCycle sValidate).Inv ∧ (inCycle sUnpack).Inv ∧ (inCycle sScan).Inv ∧ inResync.Inv := by
  obtain ⟨⟨_, a, _⟩, ⟨_, b, _⟩, ⟨_, c, _⟩, ⟨_, d, _⟩, ⟨_, e, _⟩⟩ := witness_StepKeepsTheInvariant
  exact ⟨a, b, c, d, e⟩

/-- No complete cycle yet, in each state code; the invariant and the step are those of `witness_StepKeepsTheInvariant`. -/
theorem witness_StepKeepsTheTraceAFoldOfCycles :
    (∃ t, (inCycle sUnpack).Inv ∧ (inCycle sUnpack).TraceShape ∧ step (inCycle sUnpack) = .next t) ∧
      (∃ t, (inCycle sScan).Inv ∧ (inCycle sScan).TraceShape ∧ step (inCycle sScan) = .next t) ∧
      (∃ t, inResync.Inv ∧ inResync.TraceShape ∧ step inResync = .next t) := by
  obtain ⟨_, _, ⟨_, c, hc⟩, ⟨_, d, hd⟩, ⟨_, e, he⟩⟩ := witness_StepKeepsTheInvariant
  exact ⟨⟨_, c, ⟨[], by decide, by decide, by decide, by simp⟩, hc⟩, ⟨_, d, ⟨[], by decide, by decide, by decide, by simp⟩, hd⟩,
    ⟨_, e, ⟨[], by decide, by decide, by decide, by simp⟩, he⟩⟩

/-- A complete cycle behind it: a trace of one SYNCHRONIZED buffer. -/
theorem witness_TraceShape_after_a_cycle :
    { onePixel sWait 0x01 with
      prev := 0x01, lattice := [(0, 0x112233)]
      trace := [.xchg (frame 0x01 0 [0x11, 0x22, 0x33]), .put 0x22113300] : State }.TraceShape :=
  ⟨[frame 0x01 0 [0x11, 0x22, 0x33]], by decide, by decide, by decide, by
    intro _ _ b hb
    have hb : b = frame 0x01 0 [0x11, 0x22, 0x33] := by
      have h : ([frame 0x01 0 [0x11, 0x22, 0x33]].filter magicOk).getLast? = some (frame 0x01 0 [0x11, 0x22, 0x33]) := by
        decide
      exact Option.some.inj (hb.symm.trans h)
    subst hb
    decide⟩

theorem witness_XchgDeliversOneBuffer :
    ∀ s ∈ [{ machine 1 1 1 with upstream := List.replicate 11 7 }, { machine 2 1 1 with upstream := List.replicate 99 7 }],
      s.cfg.Valid ∧ s.st = sWait ∧ s.cfg.frameLen ≤ s.upstream.length := by decide

theorem witness_XchgHoldsWithoutABuffer :
    ∀ s ∈ [machine 1 1 1, { machine 1 1 1 with upstream := List.replicate 10 7 }],
      s.cfg.Valid ∧ s.st = sWait ∧ s.upstream.length < s.cfg.frameLen := by decide

theorem witness_ReinitChangesNoState : (misaligned sResync).cfg.Valid ∧ (misaligned sResync).st = sResync := by decide

theorem witness_McmpComparesSixBytes :
    ∀ s ∈ [onePixel sValidate 0, misaligned sValidate], s.cfg.Valid ∧ s.st = sValidate := by decide

/-- Both clauses: in sequence across the wrap, and not. -/
theorem witness_SeqchkReportsADiscontinuity :
    ∀ s ∈ [{ onePixel sValidate 0x00 with sync := true, prev := 0xFF }, { onePixel sValidate 0x01 with sync := true, prev := 0xFF }],
      s.cfg.Valid ∧ s.st = sValidate ∧ magicOk s.rxFrame = true ∧ s.sync = true := by decide

theorem witness_DiagSeqEmitsOneRecord :
    ∀ s ∈ [{ onePixel sValidate 0x01 with sync := true, prev := 0xFF, cur := 0x01 }],
      s.cfg.Valid ∧ s.st = sValidate ∧ magicOk s.rxFrame = true ∧ s.rxByte 6 ≠ s.prev + 1 ∧ s.sync = true ∧
        s.cur ≠ s.exp := by decide

theorem witness_SequpdAcceptsTheCounter :
    ∀ s ∈ [{ onePixel sValidate 0x01 with sync := true, cur := 0x01 }],
      s.cfg.Valid ∧ s.st = sValidate ∧ magicOk s.rxFrame = true ∧ s.sync = true := by decide

/-- Both clauses: in sequence across the wrap, and not. -/
theorem witness_ValidateAcceptsMagic :
    ∀ p ∈ [({ onePixel sValidate 0x00 with prev := 0xFF }, true), ({ onePixel sValidate 0x01 with prev := 0xFF }, false)],
      p.1.cfg.Valid ∧ p.1.st = sValidate ∧ magicOk p.1.rxFrame = true ∧
        (p.2 = true ↔ p.1.rxByte 6 = p.1.prev + 1) := by decide

theorem witness_ValidateRejectsTheRest :
    (misaligned sValidate).cfg.Valid ∧ (misaligned sValidate).st = sValidate ∧
      magicOk (misaligned sValidate).rxFrame = false := by decide

theorem witness_ValidateIsItsParts :
    ∀ p ∈ [(onePixel sValidate 0, true), (misaligned sValidate, false)],
      p.1.cfg.Valid ∧ p.1.st = sValidate ∧ magicOk p.1.rxFrame = p.2 := by decide

/-- The next column, the carry into UY, the last record. -/
theorem witness_Unpk1StoresOneRecord :
    ∀ s ∈ [unpacking 2 0 14, unpacking 3 0 17, unpacking 3 1 29],
      s.cfg.Valid ∧ s.st = sUnpack ∧ s.ux < s.cfg.width ∧ s.uy < s.cfg.height ∧
        s.up = 8 + 3 * (s.uy * s.cfg.width + s.ux) := by decide

theorem witness_UnpackFillsTheLattice :
    ∀ s ∈ [unpacking 0 0 8, onePixel sUnpack 0],
      s.cfg.Valid ∧ s.st = sUnpack ∧ s.ux = 0 ∧ s.uy = 0 ∧ s.up = 8 ∧ s.turns = [] := by decide

/-- With turns of both agents between the steps, and with none. -/
theorem witness_UnpackUnderAnySchedule :
    ∀ s ∈ [{ unpacking 0 0 8 with turns := [.transport [1, 2], .sequencer, .pulse] }, onePixel sUnpack 0],
      s.cfg.Valid ∧ s.st = sUnpack ∧ s.ux = 0 ∧ s.uy = 0 ∧ s.up = 8 := by decide

theorem witness_SerExchangesRedAndGreen : (onePixel sScan 0).cfg.Valid ∧ (onePixel sScan 0).st = sScan := by decide

theorem witness_PadAlignsTheColorWord : (onePixel sScan 0).cfg.Valid ∧ (onePixel sScan 0).st = sScan := by decide

theorem witness_PutAppendsOneWord :
    ∀ s ∈ [scanning 0 0 0, scanning 0 0 7], s.cfg.Valid ∧ s.st = sScan ∧ s.txq.length < s.cfg.txqDepth := by decide

theorem witness_FullQueueHoldsTheScan :
    ∀ s ∈ [scanning 0 0 8, scanning 3 1 9],
      s.cfg.Valid ∧ s.st = sScan ∧ s.cfg.txqDepth ≤ s.txq.length ∧ s.sx < s.cfg.width ∧ s.sy < s.cfg.height := by decide

/-- Up a column, down a column, the next column, the end of the pass; odd and even columns under both values of
SCAN_ODD_ASC (R151). -/
theorem witness_ScanadvFollowsTheSerpentine :
    (∀ s ∈ [scanning 3 0 0, scanning 2 1 0, scanning 3 1 0, scanning 0 0 0],
      s.cfg.Valid ∧ s.st = sScan ∧ s.sx < s.cfg.width ∧ s.sy < s.cfg.height) ∧
    (∀ p ∈ [(true, 0, false), (true, 3, true), (false, 0, true), (false, 3, false)],
      asc { (machine 4 2 8).cfg with scanOddAsc := p.1 } p.2.1 = p.2.2) := by decide

/-- Inside the pass and at its last cell. -/
theorem witness_Emit1PutsOneCell :
    ∀ p ∈ [(scanning 3 0 7, true), (scanning 0 1 0, true), (scanning 0 0 7, false)],
      p.1.cfg.Valid ∧ p.1.st = sScan ∧ p.1.sx < p.1.cfg.width ∧ p.1.sy < p.1.cfg.height ∧
        p.1.txq.length < p.1.cfg.txqDepth ∧
        (p.2 = true ↔ scanOrd p.1.cfg p.1.sx p.1.sy + 1 < p.1.cfg.ledCount) := by decide

theorem witness_Emit1AndResyncAreTheirParts :
    ((scanning 0 0 7).cfg.Valid ∧ (scanning 0 0 7).st = sScan ∧ (scanning 0 0 7).sx < (scanning 0 0 7).cfg.width ∧
        (scanning 0 0 7).sy < (scanning 0 0 7).cfg.height ∧
        (scanning 0 0 7).txq.length < (scanning 0 0 7).cfg.txqDepth) ∧
      ((misaligned sResync).cfg.Valid ∧ (misaligned sResync).st = sResync) := by decide

theorem witness_RenderEmitsTheSerpentine :
    ∀ s ∈ [scanning 3 0 0, onePixel sScan 0],
      s.cfg.Valid ∧ s.st = sScan ∧ s.sx = s.cfg.width - 1 ∧ s.sy = yStart s.cfg (s.cfg.width - 1) ∧ s.turns = [] ∧
        s.txq.length + s.cfg.ledCount ≤ s.cfg.txqDepth := by decide

/-- A pass that ends and a pass that a full queue of one word holds. -/
theorem witness_RenderUnderAnySchedule :
    (∀ s ∈ [onePixel sScan 0, { scanning 3 0 0 with cfg := (machine 4 2 1).cfg }],
      s.cfg.Valid ∧ s.st = sScan ∧ s.sx = s.cfg.width - 1 ∧ s.sy = yStart s.cfg (s.cfg.width - 1)) ∧
    after (exec .render (onePixel sScan 0)) State.st = some sWait ∧
    after (exec .render { scanning 3 0 0 with cfg := (machine 4 2 1).cfg }) State.st = some sScan := by decide

/-- Eight words through a queue of one word. -/
theorem witness_RenderCompletesAsTheQueueDrains :
    let s := { scanning 3 0 0 with
      cfg := (machine 4 2 1).cfg, turns := (List.replicate 8 [Turn.sequencer, .pulse]).flatten }
    s.cfg.Valid ∧ s.st = sScan ∧ s.sx = s.cfg.width - 1 ∧ s.sy = yStart s.cfg (s.cfg.width - 1) ∧
      s.txq.length < s.cfg.txqDepth ∧ s.turns = (List.replicate s.cfg.ledCount [Turn.sequencer, .pulse]).flatten := by
  decide

/-- The first and the last ordinal and cell. -/
theorem witness_ScanOrderIsABijection :
    (machine 4 2 1).cfg.Valid ∧ 0 < (machine 4 2 1).cfg.ledCount ∧ 7 < (machine 4 2 1).cfg.ledCount ∧
      3 < (machine 4 2 1).cfg.width ∧ 1 < (machine 4 2 1).cfg.height := by decide

theorem witness_SingleRowRunsRightToLeft :
    ∀ c ∈ [(machine 4 1 1).cfg, { (machine 4 1 1).cfg with scanOddAsc := false }],
      c.Valid ∧ c.height = 1 ∧ 0 < c.ledCount ∧ 3 < c.ledCount := by decide

/-- Two states that differ in a word of the queue and in COL. -/
theorem witness_RenderIsIdempotent :
    (scanning 3 0 0).cfg.Valid ∧ { scanning 3 0 0 with col := 7, prev := 9 }.cfg = (scanning 3 0 0).cfg ∧
      (∀ x y, x < (scanning 3 0 0).cfg.width → y < (scanning 3 0 0).cfg.height →
        { scanning 3 0 0 with col := 7, prev := 9 }.cell x y = (scanning 3 0 0).cell x y) ∧
      (∀ v, v = scanning 3 0 0 ∨ v = { scanning 3 0 0 with col := 7, prev := 9 } →
        v.st = sScan ∧ v.sx = v.cfg.width - 1 ∧ v.sy = yStart v.cfg (v.cfg.width - 1) ∧ v.turns = [] ∧
          v.txq.length + v.cfg.ledCount ≤ v.cfg.txqDepth) := by
  refine ⟨by decide, rfl, fun x y _ _ => rfl, ?_⟩
  rintro v (rfl | rfl) <;> decide

theorem witness_DiagDesyncEmitsOneRecord : (misaligned sResync).cfg.Valid ∧ (misaligned sResync).st = sResync := by decide

theorem witness_ResyncReportsAndReinitializes :
    (misaligned sResync).cfg.Valid ∧ (misaligned sResync).st = sResync := by decide

/-- Exactly as many free words in the queue as the pass puts. -/
theorem witness_CycleRendersASynchronizedBuffer :
    let s := { machine 1 1 1 with upstream := frame 9 0 [1, 2, 3] ++ [5] }
    s.cfg.Valid ∧ s.st = sWait ∧ s.turns = [] ∧ (frame 9 0 [1, 2, 3]).length = s.cfg.frameLen ∧
      s.upstream.take s.cfg.frameLen = frame 9 0 [1, 2, 3] ∧ magicOk (frame 9 0 [1, 2, 3]) = true ∧
      s.txq.length + s.cfg.ledCount ≤ s.cfg.txqDepth := by decide

theorem witness_CycleDiscardsADesynchronizedBuffer :
    let s := { machine 1 1 1 with upstream := List.replicate 12 0 }
    s.cfg.Valid ∧ s.st = sWait ∧ s.turns = [] ∧ (List.replicate 11 0#8).length = s.cfg.frameLen ∧
      s.upstream.take s.cfg.frameLen = List.replicate 11 0 ∧ magicOk (List.replicate 11 0) = false := by decide

/-- Half a buffer there and half clocked in, of either class; the queue of one word full; and a byte too few. -/
theorem witness_CycleUnderAnySchedule :
    (∀ p ∈ [({ machine 1 1 1 with upstream := frame 9 0 [], turns := [.transport [1, 2, 3, 4]] }, frame 9 0 [1, 2, 3]),
        ({ machine 1 1 1 with upstream := [0], turns := [.transport (List.replicate 10 0)] }, List.replicate 11 0),
        ({ machine 1 1 1 with upstream := frame 9 0 [1, 2, 3], txq := [7] }, frame 9 0 [1, 2, 3]),
        ({ machine 1 1 1 with upstream := List.replicate 10 0, turns := [.pulse] }, List.replicate 10 0)],
      p.1.cfg.Valid ∧ p.1.st = sWait ∧ p.2 = (p.1.upstream ++ scheduledBytes p.1.turns).take p.1.cfg.frameLen) ∧
    after (exec .cycle { machine 1 1 1 with upstream := frame 9 0 [1, 2, 3], txq := [7] }) State.st = some sScan := by
  decide

theorem witness_CycleIsItsSteps :
    ∀ p ∈ [({ machine 1 1 1 with upstream := frame 9 0 [1, 2, 3] }, true), ({ machine 1 1 1 with upstream := List.replicate 11 0 }, false)],
      p.1.cfg.Valid ∧ p.1.st = sWait ∧ p.1.turns = [] ∧ p.1.cfg.frameLen ≤ p.1.upstream.length ∧
        magicOk (p.1.upstream.take p.1.cfg.frameLen) = p.2 ∧ p.1.txq.length + p.1.cfg.ledCount ≤ p.1.cfg.txqDepth := by decide

theorem witness_PseudoOperationsAreTheirExpansions :
    ((unpacking 0 0 8).cfg.Valid ∧ (unpacking 0 0 8).turns = [] ∧ (unpacking 0 0 8).st = sUnpack ∧
        (unpacking 0 0 8).ux = 0 ∧ (unpacking 0 0 8).uy = 0 ∧ (unpacking 0 0 8).up = 8) ∧
      ((scanning 3 0 0).turns = [] ∧ (scanning 3 0 0).st = sScan ∧ (scanning 3 0 0).sx = (scanning 3 0 0).cfg.width - 1 ∧
        (scanning 3 0 0).sy = yStart (scanning 3 0 0).cfg ((scanning 3 0 0).cfg.width - 1) ∧
        (scanning 3 0 0).txq.length + (scanning 3 0 0).cfg.ledCount ≤ (scanning 3 0 0).cfg.txqDepth) ∧
      ∀ s ∈ [{ machine 1 1 1 with upstream := frame 9 0 [1, 2, 3] }, { machine 1 1 1 with upstream := List.replicate 11 0 }],
        s.cfg.Valid ∧ s.turns = [] ∧ s.st = sWait ∧ s.cfg.frameLen ≤ s.upstream.length ∧
          s.txq.length + s.cfg.ledCount ≤ s.cfg.txqDepth := by decide

theorem witness_SyncFrameIsRendered :
    (onePixel sValidate 0x05).cfg.Valid ∧ (onePixel sValidate 0x05).st = sValidate ∧ (onePixel sValidate 0x05).turns = [] ∧
      (Instr.syncFrame 0x05 0 [⟨0x11, 0x22, 0x33⟩]).wellFormed (onePixel sValidate 0x05).cfg = true ∧
      (onePixel sValidate 0x05).rxFrame = frameBytes 0x05 0 [⟨0x11, 0x22, 0x33⟩] ∧
      (onePixel sValidate 0x05).txq.length + (onePixel sValidate 0x05).cfg.ledCount ≤
        (onePixel sValidate 0x05).cfg.txqDepth := by decide

theorem witness_DesyncFrameIsDiscarded :
    (misaligned sValidate).cfg.Valid ∧ (misaligned sValidate).st = sValidate ∧ (misaligned sValidate).turns = [] ∧
      (Instr.desyncFrame (misaligned sValidate).rxFrame).wellFormed (misaligned sValidate).cfg = true := by decide

/-- A step that changes LATTICE, one that changes PREV, CUR, EXP and SYNC, one that changes RXBUF. -/
theorem witness_StateChangesOnlyInItsOwnersState :
    after (step (onePixel sUnpack 0)) State.lattice ≠ some (onePixel sUnpack 0).lattice ∧
      after (step (onePixel sValidate 5)) State.prev ≠ some (onePixel sValidate 5).prev ∧
      after (step { machine 1 1 1 with upstream := frame 0 0 [1, 2, 3] }) State.rxbuf ≠ some (machine 1 1 1).rxbuf ∧
      ∀ s ∈ rowStates, (after (step s) id).isSome = true := by decide

/-- In S_SCAN two states that differ in RXBUF, UX, COL and OW; in S_WAIT two that differ in RXBUF and LATTICE. -/
theorem witness_NoStepReadsAnUnwrittenValue :
    LiveEq (scanning 3 0 0) { scanning 3 0 0 with rxbuf := [], ux := 3, col := 5, ow := 6 } ∧
      LiveEq (machine 1 1 1) { machine 1 1 1 with rxbuf := [(3, 9)], lattice := [(0, 7)] } :=
  ⟨⟨rfl, rfl, rfl, rfl, rfl, rfl, rfl, by decide, by decide, fun _ => ⟨rfl, rfl, fun _ _ => rfl⟩⟩,
    ⟨rfl, rfl, rfl, rfl, rfl, rfl, rfl, by decide, by decide, by decide⟩⟩

theorem witness_ReservedByteHasNoEffect :
    ∀ s ∈ [onePixel sValidate 0, misaligned sValidate, unpacking 0 0 8, scanning 3 0 0, misaligned sResync],
      s.st ≠ sWait ∧ (after (step s) id).isSome = true := by decide

/-- A one-pixel buffer and one with another counter and PREV. -/
theorem witness_OnlyMagicSteersControl :
    (onePixel sValidate 0).st = sValidate ∧ { onePixel sValidate 9 with prev := 0x44 }.st = sValidate ∧
      (onePixel sValidate 0).turns = [] ∧ { onePixel sValidate 9 with prev := 0x44 }.turns = [] ∧
      (∀ k, k < 6 → (onePixel sValidate 0).rxByte k = { onePixel sValidate 9 with prev := 0x44 }.rxByte k) ∧
      (after (step (onePixel sValidate 0)) id).isSome = true ∧
      (after (step { onePixel sValidate 9 with prev := 0x44 }) id).isSome = true := by decide

end Sys2Proof.Tests
end

/-! Scope and configuration (spec 00_scope.md R8 to R10; 10_state.md R33, R37): every operation asks for a QFS
configuration, and no operation and no turn writes the configuration or the transmit buffer. -/

namespace Sys2Proof.Machine

/-! ### Every operation asks for a QFS configuration -/

/-- Every arm of `exec` stands behind `whenSelected`, which checks the configuration first. -/
theorem exec_invalid {i : Instr} {s : State} (hc : ¬ s.cfg.Valid) : exec i s = .refused .notAConfiguration := by
  cases i <;> apply whenSelected_invalid hc

/-- Settles O14: each of the four conditions contradicts `Config.Valid`, which every operation asks first. -/
theorem notAConfigurationIsRefused : Obligations.NotAConfigurationIsRefused := by
  intro i s h
  refine exec_invalid ?_
  rintro ⟨hw, hh, hd, ht⟩
  rcases h with h | h | h | h
  · omega
  · omega
  · omega
  · exact h ht

/-! ### The fixed part of the state -/

/-- The part of the state that is fixed at reset: the configuration (R8, R33) and TXBUF (R37). -/
def State.fixed (s : State) : Config × Memory 8 := (s.cfg, s.txbuf)

theorem State.fixed_eq_iff {s t : State} : t.fixed = s.fixed ↔ t.cfg = s.cfg ∧ t.txbuf = s.txbuf := Prod.mk_inj

theorem State.pulseTake_fixed (s : State) : s.pulseTake.fixed = s.fixed := by
  obtain ⟨_, h⟩ | ⟨w, q, _, h⟩ := s.pulseTake_cases
  · rw [h]
  · rw [h]; rfl

theorem State.checkSequence_fixed (s : State) : s.checkSequence.fixed = s.fixed := by
  obtain ⟨_, h⟩ | ⟨_, h⟩ := s.checkSequence_cases <;> (rw [h]; rfl)

theorem State.validated_fixed (s : State) : s.validated.fixed = s.fixed := by
  obtain ⟨_, h⟩ | ⟨_, h⟩ := s.validated_cases <;> (rw [h]; rfl)

theorem State.advanceUnpack_fixed (s : State) : s.advanceUnpack.fixed = s.fixed := by
  unfold State.advanceUnpack
  split
  · split <;> rfl
  · rfl

theorem State.advanceScan_fixed (s : State) : s.advanceScan.fixed = s.fixed := by
  unfold State.advanceScan
  split
  · rfl
  · split <;> rfl

/-! ### Operations that keep it, and how they combine -/

/-- An operation that leaves the fixed part of the state as it was whenever it answers a next state. -/
def KeepsFixed (op : State → Result) : Prop := ∀ s t, op s = .next t → t.fixed = s.fixed

theorem KeepsFixed.of_next {f : State → State} (hf : ∀ s, (f s).fixed = s.fixed) : KeepsFixed fun s => .next (f s) := by
  rintro s _ ⟨⟩
  exact hf s

theorem KeepsFixed.fault (e : Fault) : KeepsFixed fun _ => .fault e := by
  rintro s t ⟨⟩

theorem KeepsFixed.ite {c : State → Bool} {op₁ op₂ : State → Result} (h₁ : KeepsFixed op₁) (h₂ : KeepsFixed op₂) :
    KeepsFixed fun s => if c s then op₁ s else op₂ s := by
  intro s t h
  dsimp only at h
  split at h
  · exact h₁ s t h
  · exact h₂ s t h

theorem KeepsFixed.whenSelected {b : State → Bool} {body : State → Result} (h : KeepsFixed body) :
    KeepsFixed fun s => whenSelected (b s) s body := by
  intro s t ht
  obtain ⟨_, _, hbody⟩ := whenSelected_next ht
  exact h s t hbody

theorem KeepsFixed.andThen {op₁ op₂ : State → Result} (h₁ : KeepsFixed op₁) (h₂ : KeepsFixed op₂) :
    KeepsFixed fun s => andThen (op₁ s) op₂ := by
  intro s t h
  obtain ⟨u, hu, ht⟩ := andThen_eq_next h
  exact (h₂ u t ht).trans (h₁ s u hu)

theorem KeepsFixed.agentTurn {op : State → Result} (h : KeepsFixed op) : KeepsFixed (agentTurn op) := by
  intro s t ht
  obtain ⟨_, hop⟩ | ⟨ts, _, hop⟩ | ⟨bs, ts, _, rfl⟩ | ⟨ts, _, rfl⟩ := agentTurn_next ht
  · exact h s t hop
  · exact h { s with turns := ts } t hop
  · rfl
  · exact State.pulseTake_fixed { s with turns := ts }

theorem KeepsFixed.runPhase {op : State → Result} (h : KeepsFixed op) (code : StCode) : KeepsFixed (runPhase code op) :=
  fun s _ ht =>
    phase_keeps (P := fun u => u.fixed = s.fixed)
      (fun u v hu hv => (h u v hv).trans hu) (fun _ _ hu => hu) (fun _ _ hu => hu)
      (fun u hu => u.pulseTake_fixed.trans hu) _ rfl ht

/-! ### The steps of the five state codes and what is built on them -/

theorem stepXchg_keepsFixed : KeepsFixed stepXchg := .ite (.of_next fun _ => rfl) (.of_next fun _ => rfl)

theorem stepValidate_keepsFixed : KeepsFixed stepValidate := .of_next State.validated_fixed

theorem stepUnpk1_keepsFixed : KeepsFixed stepUnpk1 :=
  .ite (.of_next fun s => s.storeRecord.advanceUnpack_fixed) (.fault _)

theorem stepEmit1_keepsFixed : KeepsFixed stepEmit1 :=
  .ite (.ite (.of_next fun _ => rfl) (.of_next fun s => s.loadCell.serialize.align.putWord.advanceScan_fixed)) (.fault _)

theorem stepResync_keepsFixed : KeepsFixed stepResync := .of_next fun _ => rfl

theorem finishCycle_keepsFixed : KeepsFixed finishCycle :=
  .ite (.andThen (stepUnpk1_keepsFixed.runPhase _) (stepEmit1_keepsFixed.runPhase _)) (stepResync_keepsFixed.runPhase _)

theorem processBuffer_keepsFixed : KeepsFixed processBuffer :=
  .andThen (stepValidate_keepsFixed.runPhase _) finishCycle_keepsFixed

theorem exec_keepsFixed (i : Instr) : KeepsFixed (exec i) := by
  cases i with
  | syncFrame | desyncFrame => exact processBuffer_keepsFixed.whenSelected
  | xchg => exact stepXchg_keepsFixed.whenSelected
  | validate => exact stepValidate_keepsFixed.whenSelected
  | seqchk => exact .whenSelected (.of_next State.checkSequence_fixed)
  | mcmp | diagSeq | sequpd | ser | pad | diagDesync | reinit => exact .whenSelected (.of_next fun _ => rfl)
  | unpk1 => exact stepUnpk1_keepsFixed.whenSelected
  | emit1 => exact stepEmit1_keepsFixed.whenSelected
  | put => exact .whenSelected (.ite (.of_next fun _ => rfl) (.of_next fun _ => rfl))
  | scanadv => exact .whenSelected (.ite (.of_next State.advanceScan_fixed) (.fault _))
  | resync => exact stepResync_keepsFixed.whenSelected
  | unpack => exact (stepUnpk1_keepsFixed.runPhase _).whenSelected
  | render => exact (stepEmit1_keepsFixed.runPhase _).whenSelected
  | cycle => exact ((stepXchg_keepsFixed.runPhase _).andThen processBuffer_keepsFixed).whenSelected

theorem sequencerMove_keepsFixed : KeepsFixed sequencerMove := by
  intro s t h
  unfold sequencerMove at h
  split at h
  · exact exec_keepsFixed _ s t h
  · cases h

theorem step_keepsFixed : KeepsFixed step := sequencerMove_keepsFixed.agentTurn

/-- Settles O15: each operation is built from record updates that leave `State.fixed` alone, by combinators that keep it. -/
theorem configurationAndTransmitBufferAreFixed : Obligations.ConfigurationAndTransmitBufferAreFixed :=
  ⟨fun i s t h => State.fixed_eq_iff.mp (exec_keepsFixed i s t h),
    fun s t h => State.fixed_eq_iff.mp (step_keepsFixed s t h)⟩

end Sys2Proof.Machine

/-! State and the step (spec 10_state.md): the base cases at power-on (R40, R42), what an environment's turn and a
stuck state answer (R39, R44), the invariant of R42 (a) to (d) and the trace as the fold of R190 kept by every step, who
writes what (R43), and that no step reads a value nothing has written (R32, R41). -/

namespace Sys2Proof.Machine

/-! ### The state codes are distinct (R22) -/

theorem sWait_ne_sUnpack : sWait ≠ sUnpack := by decide
theorem sWait_ne_sScan : sWait ≠ sScan := by decide
theorem sWait_ne_sResync : sWait ≠ sResync := by decide
theorem sValidate_ne_sUnpack : sValidate ≠ sUnpack := by decide
theorem sValidate_ne_sScan : sValidate ≠ sScan := by decide
theorem sValidate_ne_sResync : sValidate ≠ sResync := by decide
theorem sUnpack_ne_sScan : sUnpack ≠ sScan := by decide
theorem sUnpack_ne_sResync : sUnpack ≠ sResync := by decide
theorem sScan_ne_sResync : sScan ≠ sResync := by decide

/-! ### Power-on -/

theorem reset_eq_resetWith : State.reset = State.resetWith Config.default := by
  have hzero : ([] : Memory 8) = Memory.ofList 0 Config.default.txbufInit := by decide
  exact congrArg (State.afterReset Config.default) hzero

/-- Settles O13: the fields are those of `State.afterReset`, and TXBUF is the memory of the list TXBUF_INIT. -/
theorem resetLeavesWhatTheSpecGives : Obligations.ResetLeavesWhatTheSpecGives :=
  ⟨fun c => ⟨rfl, rfl, rfl, rfl, rfl, fun k => Memory.read_ofList k c.txbufInit⟩, reset_eq_resetWith⟩

theorem reset_powerOn : State.reset.PowerOn where
  cfgValid := by decide
  st := rfl
  prev := rfl
  rxWf := by decide
  rxBelow := by decide
  tx := congrArg State.txbuf reset_eq_resetWith
  latWf := by decide
  latBelow := by decide
  txq := rfl
  diag := rfl
  trace := rfl
  wire := rfl
  shiftedOut := rfl

/-- In S_WAIT the clauses of the invariant about a cycle in progress say nothing. -/
theorem State.PowerOn.inv {s : State} (h : s.PowerOn) : s.Inv where
  cfgValid := h.cfgValid
  legal := .inl h.st
  rxWf := h.rxWf
  rxBelow := h.rxBelow
  tx := h.tx
  latWf := h.latWf
  latBelow := h.latBelow
  depth := by simp [h.txq]
  fifo := by simp [h.trace, h.wire, h.txq, putsOf]
  sink := by simp [h.trace, h.diag, diagsOf]
  unpacking := fun hst => absurd (h.st.symm.trans hst) sWait_ne_sUnpack
  scanning := fun hst => absurd (h.st.symm.trans hst) sWait_ne_sScan
  resyncing := fun hst => absurd (h.st.symm.trans hst) sWait_ne_sResync

/-- Settles O16: the state code is S_WAIT, and trace, queue and sink are empty. -/
theorem powerOnMeetsTheInvariant : Obligations.PowerOnMeetsTheInvariant :=
  ⟨reset_powerOn, fun _ h => h.inv⟩

/-! ### Turns, stuck states, refusals -/

theorem step_of_transport {s : State} {bs : List Byte} {ts : List Turn} (h : s.turns = .transport bs :: ts) :
    step s = .next ({ s with turns := ts }.clockIn bs) := by
  simp only [step, agentTurn, h]

theorem step_of_pulse {s : State} {ts : List Turn} (h : s.turns = .pulse :: ts) :
    step s = .next { s with turns := ts }.pulseTake := by
  simp only [step, agentTurn, h]

theorem step_of_sequencer {s : State} {ts : List Turn} (h : s.turns = .sequencer :: ts) :
    step s = sequencerMove { s with turns := ts } := by
  simp only [step, agentTurn, h]

/-- The pulse engine's turn in one update, whether or not the queue holds a word (R39(a)). -/
theorem State.pulseTake_eq (s : State) :
    s.pulseTake = { s with txq := s.txq.drop 1, wire := s.wire ++ s.txq.take 1 } := by
  unfold State.pulseTake
  split
  · next hq =>
    have hsame : s.txq.drop 1 = s.txq ∧ s.wire ++ s.txq.take 1 = s.wire := by simp [hq]
    rw [hsame.1, hsame.2]
  · next hq => rw [hq]; rfl

/-- Settles O7: each turn in one update (`State.clockIn`, `State.pulseTake_eq`). -/
theorem environmentTurnsOnlyTouchTheirSide : Obligations.EnvironmentTurnsOnlyTouchTheirSide := by
  intro s ts
  refine ⟨fun bs h => step_of_transport h, fun h => ⟨_, step_of_pulse h, ?_⟩⟩
  rw [State.pulseTake_eq]
  exact ⟨by simp only [List.append_assoc, List.take_append_drop], rfl, rfl⟩

/-- No operation has a selector with ST 5, 6 or 7 (R22, R44). -/
theorem State.fetch_of_unused {s : State} (h : 5 ≤ s.st.toNat) : s.fetch = .error .unusedState := by
  have hne (c : StCode) (hc : c.toNat < 5) : s.st ≠ c := fun e => by rw [e] at h; omega
  rw [State.fetch_eq, if_neg (hne _ (by decide)), if_neg (hne _ (by decide)), if_neg (hne _ (by decide)),
    if_neg (hne _ (by decide)), if_neg (hne _ (by decide))]

/-- Settles O8: such a state fetches nothing. -/
theorem unusedStateCodesAreStuck : Obligations.UnusedStateCodesAreStuck := by
  intro s ht hst
  rw [step_of_turns_nil ht, sequencerMove, State.fetch_of_unused hst]

/-- Settles O9: each operation asks for its indices first (`State.unpackIndexOk_iff`, `State.scanIndexOk_iff`). -/
theorem indicesOutOfRangeAreStuck : Obligations.IndicesOutOfRangeAreStuck := by
  intro s hc
  constructor
  · intro hs hout
    have hbad : ¬ s.unpackIndexOk = true := by
      rw [State.unpackIndexOk_iff]
      omega
    rw [exec, execUnpk1, whenSelected_of hc (by simp [hs]), stepUnpk1, if_neg hbad]
  · intro hs hout
    have hbad : ¬ s.scanIndexOk = true := by
      rw [State.scanIndexOk_iff]
      omega
    constructor
    · rw [exec, execEmit1, whenSelected_of hc (by simp [hs]), stepEmit1, if_neg hbad]
    · rw [exec, execScanadv, whenSelected_of hc (by simp [hs]), if_neg hbad]

/-- Settles O10: by the selector rows each primary operation is selected by its own state code alone. -/
theorem primaryOperationsNeedTheirState : Obligations.PrimaryOperationsNeedTheirState := by
  intro s hc
  refine ⟨?_, ?_, ?_, ?_, ?_⟩ <;> (intro hs; exact whenSelected_not hc (by simpa using hs))

/-! ### What every step keeps -/

/-- A property that the moves of the sequencer and the turns of the environment keep is kept by every step. -/
theorem step_keeps {P : State → Prop} (hturns : ∀ s ts, P s → P { s with turns := ts })
    (hclock : ∀ s bs, P s → P (s.clockIn bs)) (hpulse : ∀ s, P s → P s.pulseTake)
    (hmove : ∀ s t, P s → CoreMove s t → P t) {s t : State} (hs : P s) (h : step s = .next t) : P t := by
  obtain ⟨ts, _, hm⟩ | ⟨bs, ts, rfl⟩ | ⟨ts, rfl⟩ := step_next h
  · exact hmove _ _ (hturns s ts hs) hm
  · exact hclock _ bs (hturns s ts hs)
  · exact hpulse _ (hturns s ts hs)

/-! ### The invariant of R42 -/

theorem State.Inv.setTurns {s : State} (h : s.Inv) (ts : List Turn) : State.Inv { s with turns := ts } := { h with }

theorem State.Inv.clockIn {s : State} (h : s.Inv) (bs : List Byte) : (s.clockIn bs).Inv := { h with }

theorem State.Inv.pulseTake {s : State} (h : s.Inv) : s.pulseTake.Inv := by
  rw [State.pulseTake_eq]
  exact { h with
    depth := by rw [List.length_drop]; exact (Nat.sub_le _ _).trans h.depth
    fifo := by simpa only [List.append_assoc, List.take_append_drop] using h.fifo }

theorem State.Inv.exchange {s : State} (h : s.Inv) : s.exchange.Inv :=
  { h with
    legal := .inr (.inl rfl)
    rxWf := Memory.wf_ofList _ _
    rxBelow := Memory.below_ofList _ _ (List.length_take_le _ _)
    fifo := by simpa [State.exchange, putsOf_append, putsOf] using h.fifo
    sink := by simpa [State.exchange, diagsOf_append, diagsOf] using h.sink
    unpacking := fun hst => absurd hst sValidate_ne_sUnpack
    scanning := fun hst => absurd hst sValidate_ne_sScan
    resyncing := fun hst => absurd hst sValidate_ne_sResync }

theorem State.Inv.validated {s : State} (h : s.Inv) : s.validated.Inv := by
  obtain ⟨hm, e⟩ | ⟨hm, e⟩ := s.validated_cases
  · rw [e]
    exact { h with
      legal := .inr (.inr (.inl rfl))
      fifo := by simpa [putsOf_append, putsOf_seqEvents] using h.fifo
      sink := by simpa [diagsOf_append] using h.sink
      unpacking := fun _ => ⟨h.cfgValid.1, h.cfgValid.2.1, by simp, rfl, hm, rfl, by simp⟩
      scanning := fun hst => absurd hst sUnpack_ne_sScan
      resyncing := fun hst => absurd hst sUnpack_ne_sResync }
  · rw [e]
    exact { h with
      legal := .inr (.inr (.inr (.inr rfl)))
      unpacking := fun hst => absurd hst.symm sUnpack_ne_sResync
      scanning := fun hst => absurd hst.symm sScan_ne_sResync
      resyncing := fun _ => ⟨rfl, hm⟩ }

/-- After a record is stored, the lattice holds the buffer one cell further (R136). -/
theorem State.Inv.storeRecord_cells {s : State} (h : s.Inv) (hs : s.st = sUnpack) :
    ∀ j, j < cellAddr s.cfg s.ux s.uy + 1 → Memory.read s.storeRecord.lattice j = recordCell s.rxFrame j := by
  obtain ⟨hx, hy, hup, _, _, _, hcells⟩ := h.unpacking hs
  intro j hj
  rw [State.storeRecord_lattice, Memory.read_write]
  split
  · next hja => rw [hja, State.recordCell_rxFrame s (cellAddr_lt hx hy), hup, cellAddr]
  · next hja => exact hcells j (Nat.lt_of_le_of_ne (Nat.le_of_lt_succ hj) hja)

theorem State.Inv.unpacked {s : State} (h : s.Inv) (hs : s.st = sUnpack) : s.storeRecord.advanceUnpack.Inv := by
  obtain ⟨hx, hy, hup, hsync, hm, hprev, _⟩ := h.unpacking hs
  have hcells := h.storeRecord_cells hs
  have hlatWf := Memory.wf_write s.lattice (cellAddr s.cfg s.ux s.uy) (s.pixelAt s.up) h.latWf
  have hlatBelow := Memory.below_write _ _ _ (s.pixelAt s.up) h.latBelow (cellAddr_lt hx hy)
  obtain ⟨hlast, _, _, e⟩ | ⟨x, y, hx', hy', hnext, e⟩ := State.advanceUnpack_cases (s := s.storeRecord) hx hy
  · rw [e]
    exact { h with
      legal := .inr (.inr (.inr (.inl rfl)))
      latWf := hlatWf
      latBelow := hlatBelow
      unpacking := fun hst => absurd hst.symm sUnpack_ne_sScan
      scanning := fun _ => ⟨Nat.sub_lt h.cfgValid.1 Nat.one_pos, yStart_lt h.cfgValid.2.1 _, hsync, hm,
        fun j hj => hcells j (hj.trans_eq hlast.symm)⟩
      resyncing := fun hst => absurd hst sScan_ne_sResync }
  · have hnext : cellAddr s.cfg x y = cellAddr s.cfg s.ux s.uy + 1 := hnext
    rw [e]
    exact { h with
      latWf := hlatWf
      latBelow := hlatBelow
      unpacking := fun _ => ⟨hx', hy', by simp only [cellAddr] at hnext; simp; omega, hsync, hm, hprev,
        fun j hj => hcells j (hj.trans_eq hnext)⟩
      scanning := fun hst => absurd (hs.symm.trans hst) sUnpack_ne_sScan
      resyncing := fun hst => absurd (hs.symm.trans hst) sUnpack_ne_sResync }

theorem State.Inv.emitPixel {s : State} (h : s.Inv) (hs : s.st = sScan) (hroom : s.txqFull = false) :
    s.emitPixel.Inv := by
  obtain ⟨hx, hy, hsync, hm, hcells⟩ := h.scanning hs
  generalize hw : outWord (s.cell s.sx s.sy) = w
  have hdepth : (s.txq ++ [w]).length ≤ s.cfg.txqDepth := by simpa [State.txqFull] using hroom
  have hfifo : putsOf (s.trace ++ [.put w]) = s.wire ++ (s.txq ++ [w]) := by
    rw [putsOf_append, h.fifo, List.append_assoc]; rfl
  have hsink : s.diag = (diagsOf (s.trace ++ [.put w])).map Diag.record := by
    simpa [diagsOf_append, diagsOf] using h.sink
  obtain ⟨_, _, _, e⟩ | ⟨x, y, hx', hy', _, _, e⟩ := State.emitPixel_cases hx hy
  · rw [e, hw]
    exact { h with
      legal := .inl rfl
      depth := hdepth
      fifo := hfifo
      sink := hsink
      unpacking := fun hst => absurd hst sWait_ne_sUnpack
      scanning := fun hst => absurd hst sWait_ne_sScan
      resyncing := fun hst => absurd hst sWait_ne_sResync }
  · rw [e, hw]
    exact { h with
      depth := hdepth
      fifo := hfifo
      sink := hsink
      scanning := fun _ => ⟨hx', hy', hsync, hm, hcells⟩ }

theorem State.Inv.resynced {s : State} (h : s.Inv) : s.resynced.Inv := by
  rw [State.resynced_eq]
  exact { h with
    legal := .inl rfl
    fifo := by simpa [putsOf_append, putsOf] using h.fifo
    sink := by simpa [diagsOf_append, diagsOf] using h.sink
    unpacking := fun hst => absurd hst sWait_ne_sUnpack
    scanning := fun hst => absurd hst sWait_ne_sScan
    resyncing := fun hst => absurd hst sWait_ne_sResync }

theorem State.Inv.move {s t : State} (h : s.Inv) (hm : CoreMove s t) : t.Inv := by
  cases hm with
  | exchange => exact h.exchange
  | heldWait | heldScan => exact h
  | validate => exact h.validated
  | unpack st => exact h.unpacked st
  | emit st _ room => exact h.emitPixel st room
  | resync => exact h.resynced

/-- Settles O17: one lemma for each move of the sequencer and each turn of the environment. -/
theorem stepKeepsTheInvariant : Obligations.StepKeepsTheInvariant := fun _ _ hs h =>
  step_keeps (fun _ ts hi => hi.setTurns ts) (fun _ bs hi => hi.clockIn bs) (fun _ hi => hi.pulseTake)
    (fun _ _ hi hm => hi.move hm) hs h

/-! ### The trace as the fold of R190 -/

theorem traceOf_append (c : Config) (p : Byte) (bs : List (List Byte)) (b : List Byte) :
    traceOf c p (bs ++ [b]) = traceOf c p bs ++ cycleEvents c (prevAfter p bs) b := by
  induction bs generalizing p with
  | nil => simp [traceOf, prevAfter]
  | cons a bs ih => simp only [List.cons_append, traceOf, ih, List.append_assoc]; rfl

theorem prevAfter_append (p : Byte) (bs : List (List Byte)) (b : List Byte) :
    prevAfter p (bs ++ [b]) = cyclePrev (prevAfter p bs) b := List.foldl_concat ..

/-- `State.TraceShape` with the buffers delivered so far in complete cycles named. -/
structure State.FoldOf (s : State) (bufs : List (List Byte)) : Prop where
  lengths : ∀ b ∈ bufs, b.length = s.cfg.frameLen
  trace : s.trace = traceOf s.cfg s.cfg.prevReset bufs ++ s.openEvents (prevAfter s.cfg.prevReset bufs)
  prev : s.prev = if s.st = sUnpack ∨ s.st = sScan then s.rxByte 6 else prevAfter s.cfg.prevReset bufs
  lattice : s.st ≠ sUnpack → s.st ≠ sScan → ∀ b, (bufs.filter magicOk).getLast? = some b →
    ∀ j, j < s.cfg.ledCount → Memory.read s.lattice j = recordCell b j

theorem State.traceShape_iff (s : State) : s.TraceShape ↔ ∃ bufs, s.FoldOf bufs :=
  exists_congr fun _ => ⟨fun ⟨hl, ht, hp, hm⟩ => ⟨hl, ht, hp, hm⟩, fun ⟨hl, ht, hp, hm⟩ => ⟨hl, ht, hp, hm⟩⟩

/-! The events of the cycle in progress and PREV, by ST. -/

theorem State.openEvents_wait {s : State} (h : s.st = sWait) (p : Byte) : s.openEvents p = [] := if_pos h

theorem State.openEvents_validate {s : State} (h : s.st = sValidate) (p : Byte) :
    s.openEvents p = [.xchg s.rxFrame] := by
  simp [State.openEvents, h]

theorem State.openEvents_unpack {s : State} (h : s.st = sUnpack) (p : Byte) :
    s.openEvents p = [.xchg s.rxFrame] ++ seqEvents p s.rxFrame := by
  simp [State.openEvents, h]

theorem State.openEvents_scan {s : State} (h : s.st = sScan) (p : Byte) :
    s.openEvents p = [.xchg s.rxFrame] ++ seqEvents p s.rxFrame ++
      ((bufferWords s.cfg s.rxFrame).take (scanOrd s.cfg s.sx s.sy)).map .put := by
  simp [State.openEvents, h]

/-- A scan that is about to start has put nothing yet (R152). -/
theorem State.openEvents_startScan (s : State) (p : Byte) :
    s.startScan.openEvents p = [.xchg s.rxFrame] ++ seqEvents p s.rxFrame := by
  rw [State.openEvents_scan rfl, State.startScan_cfg, State.startScan_sx, State.startScan_sy, scanOrd_start,
    List.take_zero, List.map_nil, List.append_nil]
  rfl

theorem State.openEvents_resync {s : State} (h : s.st = sResync) (p : Byte) :
    s.openEvents p = [.xchg s.rxFrame] := by
  simp [State.openEvents, h]

theorem State.FoldOf.prev_eq {s : State} {bufs : List (List Byte)} (h : s.FoldOf bufs) (hu : s.st ≠ sUnpack)
    (hs : s.st ≠ sScan) : s.prev = prevAfter s.cfg.prevReset bufs := by
  rw [h.prev, if_neg (not_or.mpr ⟨hu, hs⟩)]

theorem State.FoldOf.prev_pass {s : State} {bufs : List (List Byte)} (h : s.FoldOf bufs)
    (hst : s.st = sUnpack ∨ s.st = sScan) : s.prev = s.rxByte 6 := by
  rw [h.prev, if_pos hst]

theorem State.PowerOn.foldOf {s : State} (h : s.PowerOn) : s.FoldOf [] where
  lengths := by simp
  trace := by rw [h.trace, State.openEvents_wait h.st]; rfl
  prev := by rw [h.prev, h.st]; rfl
  lattice := by simp

/-- Settles O18: no buffer has been delivered. -/
theorem powerOnTraceIsEmptyFold : Obligations.PowerOnTraceIsEmptyFold := fun s h =>
  s.traceShape_iff.mpr ⟨[], h.foldOf⟩

/-! What each move adds to the fold: the exchange opens a cycle, VALIDATE and UNPK1 go on with it, and the last EMIT1 and
RESYNC close it, which adds the buffer in RXBUF to the cycles. -/

section
variable {s : State} {bufs : List (List Byte)}

theorem State.FoldOf.setTurns (h : s.FoldOf bufs) (ts : List Turn) : State.FoldOf { s with turns := ts } bufs := { h with }

theorem State.FoldOf.clockIn (h : s.FoldOf bufs) (bs : List Byte) : (s.clockIn bs).FoldOf bufs := { h with }

theorem State.FoldOf.pulseTake (h : s.FoldOf bufs) : s.pulseTake.FoldOf bufs := by
  rw [State.pulseTake_eq]
  exact { h with }

theorem State.exchange_rxFrame (hready : s.exchangeReady = true) :
    s.exchange.rxFrame = s.upstream.take s.cfg.frameLen :=
  Memory.slice_ofList _ _ (List.length_take_of_le (by simpa [State.exchangeReady] using hready))

theorem State.FoldOf.exchange (h : s.FoldOf bufs) (hs : s.st = sWait) (hready : s.exchangeReady = true) :
    s.exchange.FoldOf bufs := by
  have hu : s.st ≠ sUnpack := hs.trans_ne sWait_ne_sUnpack
  have hn : s.st ≠ sScan := hs.trans_ne sWait_ne_sScan
  exact { h with
    trace := by
      rw [State.openEvents_validate rfl, State.exchange_rxFrame hready]
      change s.trace ++ _ = _
      rw [h.trace, State.openEvents_wait hs, List.append_nil]
      rfl
    prev := h.prev_eq hu hn
    lattice := fun _ _ => h.lattice hu hn }

theorem State.FoldOf.validated (h : s.FoldOf bufs) (hs : s.st = sValidate) : s.validated.FoldOf bufs := by
  have hu : s.st ≠ sUnpack := hs.trans_ne sValidate_ne_sUnpack
  have hn : s.st ≠ sScan := hs.trans_ne sValidate_ne_sScan
  have htrace := h.trace
  rw [State.openEvents_validate hs] at htrace
  obtain ⟨_, e⟩ | ⟨_, e⟩ := s.validated_cases
  · rw [e]
    exact { h with
      trace := by
        rw [State.openEvents_unpack rfl]
        dsimp only
        rw [htrace, h.prev_eq hu hn, List.append_assoc]
        rfl
      prev := rfl
      lattice := fun hne => absurd rfl hne }
  · rw [e]
    exact { h with
      trace := by rw [State.openEvents_resync rfl]; exact htrace
      prev := h.prev_eq hu hn
      lattice := fun _ _ => h.lattice hu hn }

theorem State.FoldOf.unpacked (h : s.FoldOf bufs) (hi : s.Inv) (hs : s.st = sUnpack) :
    s.storeRecord.advanceUnpack.FoldOf bufs := by
  obtain ⟨hx, hy, _⟩ := hi.unpacking hs
  have htrace := h.trace
  rw [State.openEvents_unpack hs] at htrace
  have hprev := h.prev_pass (.inl hs)
  obtain ⟨_, _, _, e⟩ | ⟨x, y, _, _, _, e⟩ := State.advanceUnpack_cases (s := s.storeRecord) hx hy
  · rw [e]
    exact { h with
      trace := by
        rw [State.openEvents_startScan]
        exact htrace
      prev := hprev
      lattice := fun _ hne => absurd rfl hne }
  · rw [e]
    exact { h with
      lattice := fun hne => absurd hs hne }

/-- The word of the cell at (SX, SY) is the one the buffer has at its ordinal (R150, R157). -/
theorem State.Inv.bufferWords_take_succ (h : s.Inv) (hs : s.st = sScan) :
    (bufferWords s.cfg s.rxFrame).take (scanOrd s.cfg s.sx s.sy + 1) =
      (bufferWords s.cfg s.rxFrame).take (scanOrd s.cfg s.sx s.sy) ++ [outWord (s.cell s.sx s.sy)] := by
  obtain ⟨hx, hy, _, _, hcells⟩ := h.scanning hs
  have hdrop := renderWords_drop s.cfg (fun x y => recordCell s.rxFrame (cellAddr s.cfg x y)) hx hy
  rw [List.take_add, show (bufferWords s.cfg s.rxFrame).drop _ = _ from hdrop, State.cell, hcells _ (cellAddr_lt hx hy)]
  rfl

/-- The events of the cycle in progress with one more word are those of a pass that is one cell further. -/
theorem State.FoldOf.emit_trace (h : s.FoldOf bufs) (hi : s.Inv) (hs : s.st = sScan) :
    s.trace ++ [.put (outWord (s.cell s.sx s.sy))] =
      traceOf s.cfg s.cfg.prevReset bufs ++
        ([.xchg s.rxFrame] ++ seqEvents (prevAfter s.cfg.prevReset bufs) s.rxFrame ++
          ((bufferWords s.cfg s.rxFrame).take (scanOrd s.cfg s.sx s.sy + 1)).map .put) := by
  rw [h.trace, State.openEvents_scan hs, hi.bufferWords_take_succ hs]
  simp only [List.map_append, List.map_cons, List.map_nil, List.append_assoc]

theorem State.length_rxFrame (s : State) : s.rxFrame.length = s.cfg.frameLen := Memory.length_slice ..

/-- The buffer in RXBUF added to the complete cycles. -/
theorem State.FoldOf.lengths_append (h : s.FoldOf bufs) : ∀ b ∈ bufs ++ [s.rxFrame], b.length = s.cfg.frameLen := by
  simpa [or_imp, forall_and, s.length_rxFrame] using h.lengths

theorem State.Inv.emitPixel_traceShape (hi : s.Inv) (h : s.FoldOf bufs) (hs : s.st = sScan) :
    s.emitPixel.TraceShape := by
  obtain ⟨hx, hy, _, hm, hcells⟩ := hi.scanning hs
  have hprev := h.prev_pass (.inr hs)
  have htrace := h.emit_trace hi hs
  rw [State.traceShape_iff]
  obtain ⟨hlast, _, _, e⟩ | ⟨x, y, _, _, hnext, _, e⟩ := State.emitPixel_cases hx hy
  · rw [e]
    exact ⟨bufs ++ [s.rxFrame], {
      lengths := h.lengths_append
      trace := by
        have hall : (bufferWords s.cfg s.rxFrame).take s.cfg.ledCount = bufferWords s.cfg s.rxFrame :=
          List.take_of_length_le (by simp [bufferWords, renderWords])
        rw [hlast, hall] at htrace
        rw [State.openEvents_wait rfl, List.append_nil, traceOf_append, cycleEvents, if_pos hm]
        exact htrace
      prev := by
        rw [if_neg (by simp), prevAfter_append, cyclePrev, if_pos hm, State.byte6_rxFrame]
        exact hprev
      lattice := fun _ _ b hb j hj => by
        rw [List.filter_append, List.filter_singleton, hm, cond_true, List.getLast?_concat, Option.some.injEq] at hb
        rw [← hb]
        exact hcells j hj }⟩
  · have hopen := State.openEvents_scan (s := s.emitPixel) (by rw [e]; exact hs)
    rw [e] at hopen ⊢
    exact ⟨bufs, { h with
      trace := by
        rw [hopen]
        change _ = _ ++ (_ ++ ((bufferWords _ _).take (scanOrd s.cfg x y)).map _)
        rw [hnext]
        exact htrace
      lattice := fun _ hne => absurd hs hne }⟩

theorem State.Inv.resynced_foldOf (hi : s.Inv) (h : s.FoldOf bufs) (hs : s.st = sResync) :
    s.resynced.FoldOf (bufs ++ [s.rxFrame]) := by
  obtain ⟨_, hm⟩ := hi.resyncing hs
  have hu : s.st ≠ sUnpack := hs.trans_ne sUnpack_ne_sResync.symm
  have hn : s.st ≠ sScan := hs.trans_ne sScan_ne_sResync.symm
  rw [State.resynced_eq]
  exact {
    lengths := h.lengths_append
    trace := by
      rw [State.openEvents_wait rfl, List.append_nil, traceOf_append, cycleEvents, if_neg (by simp [hm])]
      dsimp only
      rw [h.trace, State.openEvents_resync hs, List.append_assoc]
      rfl
    prev := by
      rw [if_neg (by simp), prevAfter_append, cyclePrev, if_neg (by simp [hm])]
      exact h.prev_eq hu hn
    lattice := fun _ _ b hb => h.lattice hu hn b (by simpa [hm] using hb) }

theorem State.FoldOf.move {t : State} (h : s.FoldOf bufs) (hi : s.Inv) (hm : CoreMove s t) : t.TraceShape := by
  cases hm with
  | exchange st ready => exact (State.traceShape_iff _).mpr ⟨bufs, h.exchange st ready⟩
  | heldWait | heldScan => exact s.traceShape_iff.mpr ⟨bufs, h⟩
  | validate st => exact (State.traceShape_iff _).mpr ⟨bufs, h.validated st⟩
  | unpack st => exact (State.traceShape_iff _).mpr ⟨bufs, h.unpacked hi st⟩
  | emit st => exact hi.emitPixel_traceShape h st
  | resync st => exact (State.traceShape_iff _).mpr ⟨_, hi.resynced_foldOf h st⟩

end

/-- Settles O19: the invariant and the fold together, move by move and turn by turn. -/
theorem stepKeepsTheTraceAFoldOfCycles : Obligations.StepKeepsTheTraceAFoldOfCycles := by
  intro s t hi hs h
  have hboth : t.Inv ∧ ∃ bufs, t.FoldOf bufs :=
    step_keeps (P := fun u => u.Inv ∧ ∃ bufs, u.FoldOf bufs)
      (fun _ ts ⟨ui, bufs, uf⟩ => ⟨ui.setTurns ts, bufs, uf.setTurns ts⟩)
      (fun _ bs ⟨ui, bufs, uf⟩ => ⟨ui.clockIn bs, bufs, uf.clockIn bs⟩)
      (fun _ ⟨ui, bufs, uf⟩ => ⟨ui.pulseTake, bufs, uf.pulseTake⟩)
      (fun _ v ⟨ui, _, uf⟩ hm => ⟨ui.move hm, v.traceShape_iff.mp (uf.move ui hm)⟩)
      ⟨hi, s.traceShape_iff.mp hs⟩ h
  exact t.traceShape_iff.mpr hboth.2

/-! ### Who writes what (R43) -/

/-- The registers that VALIDATE and its parts own (R43). -/
def State.validatorRegs (s : State) : Byte × Byte × Byte × Bool := (s.prev, s.cur, s.exp, s.sync)

theorem State.validatorRegs_ne_iff {s t : State} :
    t.validatorRegs ≠ s.validatorRegs ↔ t.prev ≠ s.prev ∨ t.cur ≠ s.cur ∨ t.exp ≠ s.exp ∨ t.sync ≠ s.sync := by
  simp only [State.validatorRegs, ne_eq, Prod.mk.injEq]
  tauto

/-- UNPK1's indices, the start of the scan and ST are all that the carry of UX writes (R137). -/
theorem State.advanceUnpack_frame (s : State) : s.advanceUnpack = { s with
    ux := s.advanceUnpack.ux, uy := s.advanceUnpack.uy, sx := s.advanceUnpack.sx, sy := s.advanceUnpack.sy
    st := s.advanceUnpack.st } := by
  unfold State.advanceUnpack
  split
  · split <;> rfl
  · rfl

/-- SX, SY and ST are all that SCANADV writes (R154). -/
theorem State.advanceScan_frame (s : State) : s.advanceScan = { s with
    sx := s.advanceScan.sx, sy := s.advanceScan.sy, st := s.advanceScan.st } := by
  unfold State.advanceScan
  split
  · rfl
  · split <;> rfl

/-- Outside its owner's state no state of R43 changes from s to t. -/
structure OwnersOnly (s t : State) : Prop where
  lattice : s.st ≠ sUnpack → t.lattice = s.lattice
  regs : s.st ≠ sValidate → t.validatorRegs = s.validatorRegs
  rxbuf : s.st ≠ sWait → t.rxbuf = s.rxbuf

theorem CoreMove.ownersOnly {s t : State} (h : CoreMove s t) : OwnersOnly s t := by
  cases h with
  | exchange st => exact ⟨fun _ => rfl, fun _ => rfl, fun hne => absurd st hne⟩
  | heldWait | heldScan | resync => exact ⟨fun _ => rfl, fun _ => rfl, fun _ => rfl⟩
  | validate st =>
    obtain ⟨_, e⟩ | ⟨_, e⟩ := s.validated_cases <;>
      (rw [e]; exact ⟨fun _ => rfl, fun hne => absurd st hne, fun _ => rfl⟩)
  | unpack st =>
    rw [State.advanceUnpack_frame]
    exact ⟨fun hne => absurd st hne, fun _ => rfl, fun _ => rfl⟩
  | emit =>
    rw [State.emitPixel_eq, State.advanceScan_frame]
    exact ⟨fun _ => rfl, fun _ => rfl, fun _ => rfl⟩

theorem step_ownersOnly {s t : State} (h : step s = .next t) : OwnersOnly s t := by
  obtain ⟨ts, _, hm⟩ | ⟨bs, ts, rfl⟩ | ⟨ts, rfl⟩ := step_next h
  · exact { hm.ownersOnly with }
  · exact ⟨fun _ => rfl, fun _ => rfl, fun _ => rfl⟩
  · rw [State.pulseTake_eq]
    exact ⟨fun _ => rfl, fun _ => rfl, fun _ => rfl⟩

/-- Settles O57: by `step_ownersOnly`, what differs has its owner's state code. -/
theorem stateChangesOnlyInItsOwnersState : Obligations.StateChangesOnlyInItsOwnersState := by
  intro s t h
  obtain ⟨hlattice, hregs, hrxbuf⟩ := step_ownersOnly h
  rw [← State.validatorRegs_ne_iff]
  exact ⟨not_imp_comm.mp hlattice, not_imp_comm.mp hregs, not_imp_comm.mp hrxbuf⟩

/-! ### No step reads a value nothing has written (R32, R41) -/

/-- From s and u the outcomes r and q are next states that no later event can tell apart, with the same events added, or
the same fault, or the same refusal. -/
def SameOutcome (s u : State) (r q : Result) : Prop :=
  (∃ t v es, r = .next t ∧ q = .next v ∧ LiveEq t v ∧ t.trace = s.trace ++ es ∧ v.trace = u.trace ++ es) ∨
  (∃ e, r = .fault e ∧ q = .fault e) ∨ (∃ e, r = .refused e ∧ q = .refused e)

section
variable {s u : State}

theorem SameOutcome.next {t v : State} (es : List Event) (h : LiveEq t v) (ht : t.trace = s.trace ++ es)
    (hv : v.trace = u.trace ++ es) : SameOutcome s u (.next t) (.next v) :=
  .inl ⟨t, v, es, rfl, rfl, h, ht, hv⟩

theorem SameOutcome.fault (e : Fault) : SameOutcome s u (.fault e) (.fault e) := .inr (.inl ⟨e, rfl, rfl⟩)

theorem SameOutcome.refused (e : Refusal) : SameOutcome s u (.refused e) (.refused e) := .inr (.inr ⟨e, rfl, rfl⟩)

/-- The core held: neither state changes. -/
theorem LiveEq.held (h : LiveEq s u) : SameOutcome s u (.next s) (.next u) :=
  .next [] h (List.append_nil _).symm (List.append_nil _).symm

theorem LiveEq.setTurns (h : LiveEq s u) (ts : List Turn) :
    LiveEq { s with turns := ts } { u with turns := ts } := { h with turns := rfl }

theorem LiveEq.clockIn (h : LiveEq s u) (bs : List Byte) : LiveEq (s.clockIn bs) (u.clockIn bs) :=
  { h with upstream := congrArg (· ++ bs) h.upstream }

theorem LiveEq.pulseTake (h : LiveEq s u) : LiveEq s.pulseTake u.pulseTake := by
  rw [State.pulseTake_eq, State.pulseTake_eq]
  exact { h with txq := congrArg (List.drop 1) h.txq }

theorem LiveEq.rxFrame (h : LiveEq s u) (hbuf : s.rxbuf = u.rxbuf) : s.rxFrame = u.rxFrame := by
  rw [State.rxFrame, State.rxFrame, hbuf, h.cfg]

/-- The exchange makes RXBUF the same in both; nothing of the lattice is read before it is written again. -/
theorem LiveEq.stepXchg (h : LiveEq s u) : SameOutcome s u (stepXchg s) (stepXchg u) := by
  have hready : u.exchangeReady = s.exchangeReady := by
    rw [State.exchangeReady, State.exchangeReady, h.cfg, h.upstream]
  rw [Machine.stepXchg, Machine.stepXchg, hready]
  split
  · refine .next [.xchg (s.upstream.take s.cfg.frameLen)] ?_ rfl (by rw [h.upstream, h.cfg]; rfl)
    exact { h with
      st := rfl
      upstream := by simp only [State.exchange, h.cfg, h.upstream]
      buffer := fun _ => by simp only [State.exchange, h.cfg, h.upstream]
      unpacking := fun hst => absurd hst sValidate_ne_sUnpack
      scanning := fun hst => absurd hst sValidate_ne_sScan }
  · exact h.held

theorem LiveEq.stepValidate (h : LiveEq s u) (hs : s.st = sValidate) :
    SameOutcome s u (stepValidate s) (stepValidate u) := by
  have hbuf := h.buffer (.inl hs)
  have hframe := h.rxFrame hbuf
  rw [Machine.stepValidate, Machine.stepValidate]
  cases hm : magicOk s.rxFrame
  · rw [State.validated_desync hm, State.validated_desync (hframe ▸ hm)]
    refine .next [] ?_ (List.append_nil _).symm (List.append_nil _).symm
    exact { h with
      st := rfl
      buffer := fun _ => hbuf
      unpacking := fun hst => absurd hst.symm sUnpack_ne_sResync
      scanning := fun hst => absurd hst.symm sScan_ne_sResync }
  · rw [State.validated_sync hm, State.validated_sync (hframe ▸ hm)]
    refine .next (seqEvents s.prev s.rxFrame) ?_ rfl (by rw [h.prev, hframe])
    exact { h with
      st := rfl
      prev := congrArg (Memory.read · 6) hbuf
      buffer := fun _ => hbuf
      unpacking := fun _ => ⟨rfl, rfl, rfl, by simp⟩
      scanning := fun hst => absurd hst sUnpack_ne_sScan }

/-- A cell of the lattice has one address. -/
theorem cellAddr_inj {c : Config} {x y x' y' : Nat} (hx : x < c.width) (hx' : x' < c.width)
    (h : cellAddr c x y = cellAddr c x' y') : x = x' ∧ y = y' := by
  have hpos : 0 < c.width := Nat.zero_lt_of_lt hx
  have hcol (a b : Nat) (ha : a < c.width) : cellAddr c a b % c.width = a := by
    rw [cellAddr, Nat.mul_add_mod', Nat.mod_eq_of_lt ha]
  have hrow (a b : Nat) (ha : a < c.width) : cellAddr c a b / c.width = b := by
    rw [cellAddr, Nat.mul_comm, Nat.mul_add_div hpos, Nat.div_eq_of_lt ha, Nat.add_zero]
  exact ⟨by rw [← hcol x y hx, h, hcol x' y' hx'], by rw [← hrow x y hx, h, hrow x' y' hx']⟩

/-- Two unpackers with the same indices go on in the same way. -/
theorem State.advanceUnpack_cases_both (hcfg : s.cfg = u.cfg) (hux : s.ux = u.ux) (huy : s.uy = u.uy)
    (hx : s.ux < s.cfg.width) (hy : s.uy < s.cfg.height) :
    (cellAddr s.cfg s.ux s.uy + 1 = s.cfg.ledCount ∧
      s.advanceUnpack = { s with ux := 0 }.startScan ∧ u.advanceUnpack = { u with ux := 0 }.startScan) ∨
    (∃ x y, cellAddr s.cfg x y = cellAddr s.cfg s.ux s.uy + 1 ∧
      s.advanceUnpack = { s with ux := x, uy := y } ∧ u.advanceUnpack = { u with ux := x, uy := y }) := by
  have haddr : cellAddr s.cfg s.ux s.uy = cellAddr u.cfg u.ux u.uy := by rw [hcfg, hux, huy]
  have hled := congrArg Config.ledCount hcfg
  obtain ⟨hl, _, _, e⟩ | ⟨x, y, hx', hy', hn, e⟩ := State.advanceUnpack_cases hx hy <;>
    obtain ⟨hl', _, _, e'⟩ | ⟨x', y', hx'', hy'', hn', e'⟩ :=
      State.advanceUnpack_cases (s := u) (by rw [← hcfg, ← hux]; exact hx) (by rw [← hcfg, ← huy]; exact hy)
  · exact .inl ⟨hl, e, e'⟩
  · have := cellAddr_lt hx'' hy''; omega
  · have := cellAddr_lt hx' hy'; omega
  · rw [← haddr, ← hcfg] at hn'
    rw [← hcfg] at hx''
    obtain ⟨rfl, rfl⟩ := cellAddr_inj hx' hx'' (hn.trans hn'.symm)
    exact .inr ⟨x, y, hn, e, e'⟩

/-- The record stored is the same in both, so the written part of the lattice agrees one cell further. -/
theorem LiveEq.storeRecord_cells (h : LiveEq s u) (hs : s.st = sUnpack) :
    ∀ j, j < cellAddr s.cfg s.ux s.uy + 1 →
      Memory.read s.storeRecord.lattice j = Memory.read u.storeRecord.lattice j := by
  obtain ⟨hux, huy, hup, hcells⟩ := h.unpacking hs
  have hpixel : s.pixelAt s.up = u.pixelAt u.up := by
    simp only [State.pixelAt, State.rxByte, h.buffer (.inr hs), hup]
  intro j hj
  rw [State.storeRecord_lattice, State.storeRecord_lattice, Memory.read_write, Memory.read_write, hpixel, ← h.cfg,
    ← hux, ← huy]
  split
  · rfl
  · next hja => exact hcells j (Nat.lt_of_le_of_ne (Nat.le_of_lt_succ hj) hja)

theorem LiveEq.stepUnpk1 (h : LiveEq s u) (hs : s.st = sUnpack) : SameOutcome s u (stepUnpk1 s) (stepUnpk1 u) := by
  obtain ⟨hux, huy, hup, _⟩ := h.unpacking hs
  have hok : u.unpackIndexOk = s.unpackIndexOk := by
    rw [State.unpackIndexOk, State.unpackIndexOk, h.cfg, hux, huy, hup]
  rw [Machine.stepUnpk1, Machine.stepUnpk1, hok]
  split
  · next ok =>
    obtain ⟨hx, hy, _⟩ := s.unpackIndexOk_iff.mp ok
    have hcells := h.storeRecord_cells hs
    obtain ⟨hlast, e, e'⟩ | ⟨x, y, hnext, e, e'⟩ :=
      State.advanceUnpack_cases_both (s := s.storeRecord) (u := u.storeRecord) h.cfg hux huy hx hy
    · rw [e, e']
      refine .next [] ?_ (List.append_nil _).symm (List.append_nil _).symm
      exact { h with
        st := rfl
        buffer := fun _ => h.buffer (.inr hs)
        unpacking := fun hst => absurd hst.symm sUnpack_ne_sScan
        scanning := fun _ => ⟨congrArg (·.width - 1) h.cfg, congrArg (fun c => yStart c (c.width - 1)) h.cfg,
          fun j hj => hcells j (hj.trans_eq hlast.symm)⟩ }
    · rw [e, e']
      refine .next [] ?_ (List.append_nil _).symm (List.append_nil _).symm
      exact { h with
        unpacking := fun _ => ⟨rfl, rfl, congrArg (· + 3) hup, fun j hj => hcells j (hj.trans_eq hnext)⟩
        scanning := fun hst => absurd (hs.symm.trans hst) sUnpack_ne_sScan }
  · exact .fault _

/-- A cell has one ordinal (R159). -/
theorem scanOrd_inj {c : Config} {x y x' y' : Nat} (hx : x < c.width) (hy : y < c.height) (hx' : x' < c.width)
    (hy' : y' < c.height) (h : scanOrd c x y = scanOrd c x' y') : x = x' ∧ y = y' := by
  rw [← Prod.mk.injEq, ← scanCell_scanOrd hx hy, h, scanCell_scanOrd hx' hy']

/-- The cell that EMIT1 reads is the same in both. -/
theorem LiveEq.cell_eq (h : LiveEq s u) (hs : s.st = sScan) (hx : s.sx < s.cfg.width) (hy : s.sy < s.cfg.height) :
    s.cell s.sx s.sy = u.cell u.sx u.sy := by
  obtain ⟨hsx, hsy, hcells⟩ := h.scanning hs
  rw [State.cell, State.cell, hcells _ (cellAddr_lt hx hy), h.cfg, hsx, hsy]

theorem LiveEq.emitPixel (h : LiveEq s u) (hs : s.st = sScan) (hx : s.sx < s.cfg.width) (hy : s.sy < s.cfg.height) :
    SameOutcome s u (.next s.emitPixel) (.next u.emitPixel) := by
  obtain ⟨hsx, hsy, hcells⟩ := h.scanning hs
  have hcell := h.cell_eq hs hx hy
  have hord : scanOrd s.cfg s.sx s.sy = scanOrd u.cfg u.sx u.sy := by rw [h.cfg, hsx, hsy]
  have hled := congrArg Config.ledCount h.cfg
  have htxq := congrArg (· ++ [outWord (s.cell s.sx s.sy)]) h.txq
  obtain ⟨hl, _, _, e⟩ | ⟨x, y, hx', hy', hn, _, e⟩ := State.emitPixel_cases hx hy <;>
    obtain ⟨hl', _, _, e'⟩ | ⟨x', y', hx'', hy'', hn', _, e'⟩ :=
      State.emitPixel_cases (s := u) (by rw [← h.cfg, ← hsx]; exact hx) (by rw [← h.cfg, ← hsy]; exact hy)
  · rw [e, e', ← hcell]
    refine .next [.put (outWord (s.cell s.sx s.sy))] ?_ rfl rfl
    exact { h with
      st := rfl
      txq := htxq
      buffer := fun hst => absurd hst (by simp)
      unpacking := fun hst => absurd hst sWait_ne_sUnpack
      scanning := fun hst => absurd hst sWait_ne_sScan }
  · have := scanOrd_lt hx'' hy''; omega
  · have := scanOrd_lt hx' hy'; omega
  · rw [← hord, ← h.cfg] at hn'
    rw [← h.cfg] at hx'' hy''
    obtain ⟨rfl, rfl⟩ := scanOrd_inj hx' hy' hx'' hy'' (hn.trans hn'.symm)
    rw [e, e', ← hcell]
    refine .next [.put (outWord (s.cell s.sx s.sy))] ?_ rfl rfl
    exact { h with
      txq := htxq
      scanning := fun _ => ⟨rfl, rfl, hcells⟩ }

theorem LiveEq.stepEmit1 (h : LiveEq s u) (hs : s.st = sScan) : SameOutcome s u (stepEmit1 s) (stepEmit1 u) := by
  obtain ⟨hsx, hsy, _⟩ := h.scanning hs
  have hok : u.scanIndexOk = s.scanIndexOk := by rw [State.scanIndexOk, State.scanIndexOk, h.cfg, hsx, hsy]
  have hfull : u.txqFull = s.txqFull := by rw [State.txqFull, State.txqFull, h.cfg, h.txq]
  rw [Machine.stepEmit1, Machine.stepEmit1, hok, hfull]
  split
  · next ok =>
    obtain ⟨hx, hy⟩ := s.scanIndexOk_iff.mp ok
    split
    · exact h.held
    · exact h.emitPixel hs hx hy
  · exact .fault _

theorem LiveEq.stepResync (h : LiveEq s u) : SameOutcome s u (stepResync s) (stepResync u) := by
  rw [Machine.stepResync, Machine.stepResync, State.resynced_eq, State.resynced_eq]
  refine .next [.diag .desync, .reinit] ?_ rfl rfl
  exact { h with
    st := rfl
    buffer := fun hst => absurd hst (by simp)
    unpacking := fun hst => absurd hst sWait_ne_sUnpack
    scanning := fun hst => absurd hst sWait_ne_sScan }

/-- The operation fetched depends on ST alone. -/
theorem LiveEq.fetch (h : LiveEq s u) : s.fetch = u.fetch := by rw [State.fetch_eq, State.fetch_eq, h.st]

theorem LiveEq.sequencerMove (h : LiveEq s u) : SameOutcome s u (sequencerMove s) (sequencerMove u) := by
  by_cases hc : s.cfg.Valid
  · rw [sequencerMove_eq hc, sequencerMove_eq (h.cfg ▸ hc), ← h.st]
    split_ifs with h0 h1 h2 h3
    · exact h.stepXchg
    · exact h.stepValidate h1
    · exact h.stepUnpk1 h2
    · exact h.stepEmit1 h3
    · exact h.stepResync
    · exact .fault _
  · rw [Machine.sequencerMove, Machine.sequencerMove, h.fetch]
    split
    · rw [exec_invalid hc, exec_invalid (h.cfg ▸ hc)]
      exact .refused _
    · exact .fault _

end

/-- Settles O58: by the turn scheduled, and in the sequencer's turn by ST. -/
theorem noStepReadsAnUnwrittenValue : Obligations.NoStepReadsAnUnwrittenValue := by
  intro s u h
  change SameOutcome s u (step s) (step u)
  cases ht : s.turns with
  | nil =>
    rw [step_of_turns_nil ht, step_of_turns_nil (h.turns ▸ ht)]
    exact h.sequencerMove
  | cons a ts =>
    have hu : u.turns = a :: ts := h.turns ▸ ht
    have hrest := h.setTurns ts
    cases a with
    | sequencer =>
      rw [step_of_sequencer ht, step_of_sequencer hu]
      exact hrest.sequencerMove
    | transport bs =>
      rw [step_of_transport ht, step_of_transport hu]
      exact (hrest.clockIn bs).held
    | pulse =>
      rw [step_of_pulse ht, step_of_pulse hu]
      refine .next [] hrest.pulseTake ?_ ?_ <;> (rw [State.pulseTake_eq, List.append_nil])

end Sys2Proof.Machine

/-! Memory (spec 20_memory.md R68): nothing in RXBUF is executed as code; of its contents only the magic sequence decides
which step comes next. -/

namespace Sys2Proof.Machine

/-- The magic predicate reads bytes 0 to 5 of RXBUF and nothing else (R121). -/
theorem State.syncNow_congr {s u : State} (h : ∀ k, k < 6 → s.rxByte k = u.rxByte k) : s.syncNow = u.syncNow := by
  rw [Bool.eq_iff_iff, s.syncNow_iff, u.syncNow_iff, h 0 (by decide), h 1 (by decide), h 2 (by decide),
    h 3 (by decide), h 4 (by decide), h 5 (by decide)]

/-- The two rows of R182 that leave S_VALIDATE. -/
theorem State.validated_st (s : State) : s.validated.st = if s.syncNow then sUnpack else sResync := by
  obtain ⟨hm, e⟩ | ⟨hm, e⟩ := s.validated_cases <;> rw [e, ← s.magicOk_rxFrame, hm] <;> rfl

/-- With no turn scheduled, the step of S_VALIDATE is VALIDATE (R95). -/
theorem step_validate_next {s t : State} (hs : s.st = sValidate) (hq : s.turns = []) (h : step s = .next t) :
    t = s.validated := by
  rw [step_of_turns_nil hq] at h
  obtain ⟨hc, _⟩ := sequencerMove_next h
  rw [sequencerMove_validate hc hs, stepValidate] at h
  cases h; rfl

/-- Settles O60: both steps are VALIDATE, whose successor depends on the magic predicate, and that on bytes 0 to 5. -/
theorem onlyMagicSteersControl : Obligations.OnlyMagicSteersControl := by
  intro s u t r hs hu hsq huq hbytes ht hr
  rw [step_validate_next hs hsq ht, step_validate_next hu huq hr, State.validated_st, State.validated_st,
    State.syncNow_congr hbytes]

end Sys2Proof.Machine

/-! Encodings (spec 30_encoding.md): frames and their bytes (R81, R90, R94), the selector rows (R95, R96), the
pseudo-operations as their expansions (R95), what becomes of a frame of either class (R90), the reserved byte (R92). -/

namespace Sys2Proof.Machine

/-! ### A frame and its bytes (R81, R90) -/

theorem magicOk_iff (b : List Byte) : magicOk b = true ↔ b.take 6 = Config.magic := beq_iff_eq

/-- The masked comparison of R90 is the magic predicate of R121, on a buffer that holds a header. -/
theorem isSyncFrame_eq_magicOk {b : List Byte} (h : 8 ≤ b.length) : isSyncFrame b = magicOk b := by
  obtain ⟨b0, b1, b2, b3, b4, b5, b6, b7, rest, rfl⟩ := eight_bytes b h
  have hmatch : isSyncFrame (b0 :: b1 :: b2 :: b3 :: b4 :: b5 :: b6 :: b7 :: rest) = true ↔ _ :=
    beq_iff_eq.trans (header_eq_match b0 b1 b2 b3 b4 b5 b6 b7)
  rw [Bool.eq_iff_iff, hmatch, magicOk_iff]
  simp [Config.magic]

theorem header_le_frameLen (c : Config) : 8 ≤ c.frameLen := Nat.le_add_right 8 _

theorem decodeFrame_of_magic {c : Config} {b : List Byte} (hl : b.length = c.frameLen) (hm : magicOk b = true) :
    decodeFrame c b = .ok (.syncFrame (b.getD 6 0) (b.getD 7 0) (pixelsOf (b.drop 8))) := by
  rw [decodeFrame, if_pos hl, isSyncFrame_eq_magicOk (hl ▸ header_le_frameLen c), if_pos hm]

theorem decodeFrame_of_not_magic {c : Config} {b : List Byte} (hl : b.length = c.frameLen) (hm : magicOk b = false) :
    decodeFrame c b = .ok (.desyncFrame b) := by
  rw [decodeFrame, if_pos hl, isSyncFrame_eq_magicOk (hl ▸ header_le_frameLen c), if_neg (by simp [hm])]

theorem wellFormed_syncFrame_iff {c : Config} {seq rsv : Byte} {px : List Color} :
    (Instr.syncFrame seq rsv px).wellFormed c = true ↔ px.length = c.ledCount := beq_iff_eq

theorem wellFormed_desyncFrame_iff {c : Config} {b : List Byte} :
    (Instr.desyncFrame b).wellFormed c = true ↔ b.length = c.frameLen ∧ magicOk b = false := by
  simp [Instr.wellFormed, magicOk]

theorem magicOk_frameBytes (seq rsv : Byte) (px : List Color) : magicOk (frameBytes seq rsv px) = true := rfl

theorem length_frameBytes_of_wellFormed {c : Config} {seq rsv : Byte} {px : List Color}
    (h : (Instr.syncFrame seq rsv px).wellFormed c = true) : (frameBytes seq rsv px).length = c.frameLen := by
  rw [length_frameBytes, wellFormed_syncFrame_iff.mp h]
  rfl

/-- The decoder reads back the three fields of a SYNC_FRAME. -/
theorem decodeFrame_frameBytes {c : Config} {seq rsv : Byte} {px : List Color}
    (h : (Instr.syncFrame seq rsv px).wellFormed c = true) :
    decodeFrame c (frameBytes seq rsv px) = .ok (.syncFrame seq rsv px) := by
  have hpx : pixelsOf ((frameBytes seq rsv px).drop 8) = px := pixelsOf_flatMap px
  rw [decodeFrame_of_magic (length_frameBytes_of_wellFormed h) (magicOk_frameBytes seq rsv px), hpx]
  rfl

/-- Settles O2: a frame's bytes give back its fields, and the selector of a primary operation lies in its row; the other
operations have no code. -/
theorem decodeEncodeAgree : Obligations.DecodeEncodeAgree := by
  intro c i w hwf hcode
  cases i with
  | syncFrame seq rsv px =>
    cases hcode
    exact decodeFrame_frameBytes hwf
  | desyncFrame b =>
    cases hcode
    obtain ⟨hl, hm⟩ := wellFormed_desyncFrame_iff.mp hwf
    exact decodeFrame_of_not_magic hl hm
  | xchg | validate | unpk1 | emit1 | resync => cases hcode; rfl
  | mcmp | seqchk | diagSeq | sequpd | ser | pad | put | scanadv | diagDesync | reinit | unpack | render | cycle =>
    cases hcode

/-- A buffer that begins with the magic sequence is the bytes of the fields read from it. -/
theorem frameBytes_of_magic {c : Config} {b : List Byte} (hl : b.length = c.frameLen) (hm : magicOk b = true) :
    frameBytes (b.getD 6 0) (b.getD 7 0) (pixelsOf (b.drop 8)) = b ∧ (pixelsOf (b.drop 8)).length = c.ledCount := by
  have hpayload : (b.drop 8).length = 3 * c.ledCount := by
    rw [List.length_drop, hl]
    exact Nat.add_sub_cancel_left 8 _
  obtain ⟨hbytes, hcount⟩ := flatMap_pixelsOf c.ledCount (b.drop 8) hpayload
  refine ⟨?_, hcount⟩
  rw [frameBytes, hbytes, ← (magicOk_iff b).mp hm]
  obtain ⟨b0, b1, b2, b3, b4, b5, b6, b7, rest, rfl⟩ := eight_bytes b (hl ▸ header_le_frameLen c)
  rfl

/-- Settles O3: by the magic predicate; either class holds all the bytes of the buffer. -/
theorem everyBufferHasOneClass : Obligations.EveryBufferHasOneClass := by
  intro c b
  refine ⟨fun hl => ?_, fun hl => if_neg hl⟩
  cases hm : magicOk b
  · have hmagic : ¬ b.take 6 = Config.magic := fun h => by simp [(magicOk_iff b).mpr h] at hm
    exact ⟨_, decodeFrame_of_not_magic hl hm, wellFormed_desyncFrame_iff.mpr ⟨hl, hm⟩, rfl, (if_neg hmagic).mpr rfl⟩
  · have hmagic := (magicOk_iff b).mp hm
    obtain ⟨hbytes, hcount⟩ := frameBytes_of_magic hl hm
    exact ⟨_, decodeFrame_of_magic hl hm, wellFormed_syncFrame_iff.mpr hcount, by rw [encode, hbytes],
      (if_pos hmagic).mpr ⟨_, rfl⟩⟩

/-- Settles O1: by running the decoder on each word. -/
theorem writtenOutWordsDecode : Obligations.WrittenOutWordsDecode := by
  unfold Obligations.WrittenOutWordsDecode
  decide

/-! ### Selector rows (R95, R96) -/

/-- Settles O5: by running the rows on each of the 32 selectors. -/
theorem selectorRowsFollowTheMap : Obligations.SelectorRowsFollowTheMap := by
  unfold Obligations.SelectorRowsFollowTheMap
  decide

/-- Settles O6: the sequencer's move is the operation its selector decodes to. -/
theorem stepRunsDecodedOperation : Obligations.StepRunsDecodedOperation := by
  intro s i hdec
  have hmove (u : State) (hsel : u.sel = s.sel) : sequencerMove u = exec i u := by
    have hfetch : u.fetch = .ok i := by rw [State.fetch, hsel]; exact hdec
    rw [sequencerMove, hfetch]
  exact ⟨fun ht => (step_of_turns_nil ht).trans (hmove s rfl),
    fun ts ht => (step_of_sequencer ht).trans (hmove { s with turns := ts } rfl)⟩

/-- An operation of a SEL5 row asks for its selector before anything else. -/
theorem exec_of_row_not_selected {i : Instr} {s : State} (hc : s.cfg.Valid) (hrow : ∃ r ∈ primaryRows ++ subRows, r.op = i)
    (hsel : s.selects i = false) : exec i s = .refused .notSelected := by
  cases i with
  | syncFrame | desyncFrame => simp [primaryRows, subRows] at hrow
  | unpack | render | cycle => exact absurd hrow (by decide)
  | seqchk | diagSeq | sequpd =>
    apply whenSelected_not hc
    simp only [hsel, Bool.false_and]
  | xchg | validate | mcmp | unpk1 | emit1 | ser | pad | put | scanadv | resync | diagDesync | reinit =>
    apply whenSelected_not hc
    exact hsel

/-- Settles O11: the rows by `exec_of_row_not_selected`; SYNC and the comparison of CUR and EXP are asked beside them. -/
theorem unselectedOperationsAreRefused : Obligations.UnselectedOperationsAreRefused := by
  intro i s hc
  refine ⟨exec_of_row_not_selected hc, ?_, fun heq => ?_⟩
  · rintro hsync (rfl | rfl | rfl) <;> (apply whenSelected_not hc; simp [hsync])
  · apply whenSelected_not hc
    simp [heq]

/-! ### The reserved byte (R92) -/

/-- The state with another reserved byte in RXBUF (RSV_OFF, R83). -/
def State.setReserved (v : Byte) (s : State) : State := { s with rxbuf := Memory.write s.rxbuf 7 v }

theorem State.rxByte_setReserved {v : Byte} {s : State} {k : Nat} (h : k ≠ 7) :
    (s.setReserved v).rxByte k = s.rxByte k := Memory.read_write_other _ _ h

theorem State.syncNow_setReserved (v : Byte) (s : State) : (s.setReserved v).syncNow = s.syncNow :=
  State.syncNow_congr fun _ hk => State.rxByte_setReserved (by omega)

/-- VALIDATE reads bytes 0 to 6 (R121, R123). -/
theorem State.validated_setReserved (v : Byte) (s : State) :
    (s.setReserved v).validated = s.validated.setReserved v := by
  have hbyte : (s.setReserved v).rxByte 6 = s.rxByte 6 := State.rxByte_setReserved (by decide)
  have hevents : seqEvents (s.setReserved v).prev (s.setReserved v).rxFrame = seqEvents s.prev s.rxFrame := by
    rw [seqEvents, seqEvents, State.byte6_rxFrame, State.byte6_rxFrame, hbyte]
    rfl
  cases hm : s.syncNow
  · rw [State.validated_desync (s.magicOk_rxFrame.trans hm),
      State.validated_desync ((State.magicOk_rxFrame _).trans ((s.syncNow_setReserved v).trans hm))]
    rfl
  · rw [State.validated_sync (s.magicOk_rxFrame.trans hm),
      State.validated_sync ((State.magicOk_rxFrame _).trans ((s.syncNow_setReserved v).trans hm)), hbyte, hevents]
    rfl

theorem State.advanceUnpack_setReserved (v : Byte) (s : State) :
    (s.setReserved v).advanceUnpack = s.advanceUnpack.setReserved v := by
  simp only [State.advanceUnpack, apply_ite (State.setReserved v)]
  rfl

/-- The payload begins after the reserved byte (R81, R83). -/
theorem State.pixelAt_setReserved (v : Byte) (s : State) {p : Nat} (h : 8 ≤ p) :
    (s.setReserved v).pixelAt p = s.pixelAt p := by
  rw [State.pixelAt, State.rxByte_setReserved (by omega), State.rxByte_setReserved (by omega),
    State.rxByte_setReserved (by omega), State.pixelAt]

theorem State.storeRecord_setReserved (v : Byte) {s : State} (h : 8 ≤ s.up) :
    (s.setReserved v).storeRecord = s.storeRecord.setReserved v := by
  rw [State.storeRecord, State.pixelAt_setReserved v s (p := (s.setReserved v).up) h]
  rfl

theorem State.emitPixel_setReserved (v : Byte) (s : State) :
    (s.setReserved v).emitPixel = s.emitPixel.setReserved v := by
  simp only [State.emitPixel_eq, State.advanceScan, apply_ite (State.setReserved v)]
  rfl

/-- Every move but the exchange is also a move with another reserved byte. -/
theorem CoreMove.setReserved {s t : State} (h : CoreMove s t) (hs : s.st ≠ sWait) (v : Byte) :
    CoreMove (s.setReserved v) (t.setReserved v) := by
  cases h with
  | exchange st | heldWait st => exact absurd st hs
  | validate st => rw [← State.validated_setReserved]; exact .validate st
  | unpack st ok =>
    obtain ⟨_, _, hup, _⟩ := s.unpackIndexOk_iff.mp ok
    rw [← State.advanceUnpack_setReserved, ← State.storeRecord_setReserved v hup]
    exact .unpack st ok
  | emit st ok room => rw [← State.emitPixel_setReserved]; exact .emit st ok room
  | heldScan st ok full => exact .heldScan st ok full
  | resync st => exact .resync st

theorem step_setReserved {s t : State} (hs : s.st ≠ sWait) (h : step s = .next t) (v : Byte) :
    step (s.setReserved v) = .next (t.setReserved v) := by
  obtain ⟨ht, h⟩ | ⟨ts, ht, h⟩ | ⟨bs, ts, ht, rfl⟩ | ⟨ts, ht, rfl⟩ := agentTurn_next h
  · obtain ⟨hc, hm⟩ := sequencerMove_next h
    exact (step_of_turns_nil (s := s.setReserved v) ht).trans ((hm.setReserved hs v).sequencerMove hc)
  · obtain ⟨hc, hm⟩ := sequencerMove_next h
    exact (step_of_sequencer (s := s.setReserved v) ht).trans ((hm.setReserved hs v).sequencerMove hc)
  · exact step_of_transport (s := s.setReserved v) ht
  · rw [step_of_pulse (s := s.setReserved v) ht, State.pulseTake_eq, State.pulseTake_eq]
    rfl

/-- Settles O59: no step but the exchange writes RXBUF, and none reads its byte 7. -/
theorem reservedByteHasNoEffect : Obligations.ReservedByteHasNoEffect := by
  intro s t v hs h
  have ht : t.setReserved v = { t with rxbuf := Memory.write s.rxbuf 7 v } := by
    rw [State.setReserved, (step_ownersOnly h).rxbuf hs]
  exact ht ▸ step_setReserved hs h v

/-! ### Parts and expansions (R95, R138, R156, R157, R183, R186) -/

section
variable {s : State}

theorem exec_ser (hc : s.cfg.Valid) (hs : s.st = sScan) : exec .ser s = .next s.serialize := by
  rw [exec, execSer, whenSelected_of hc (by simp [hs])]

theorem exec_pad (hc : s.cfg.Valid) (hs : s.st = sScan) : exec .pad s = .next s.align := by
  rw [exec, execPad, whenSelected_of hc (by simp [hs])]

theorem exec_put (hc : s.cfg.Valid) (hs : s.st = sScan) (hq : s.txqFull = false) : exec .put s = .next s.putWord := by
  rw [exec, execPut, whenSelected_of hc (by simp [hs]), if_neg (by simp [hq])]

theorem exec_scanadv (hc : s.cfg.Valid) (hs : s.st = sScan) (hok : s.scanIndexOk = true) :
    exec .scanadv s = .next s.advanceScan := by
  rw [exec, execScanadv, whenSelected_of hc (by simp [hs]), if_pos hok]

theorem exec_emit1 (hc : s.cfg.Valid) (hs : s.st = sScan) (hok : s.scanIndexOk = true) (hq : s.txqFull = false) :
    exec .emit1 s = .next s.emitPixel := by
  rw [exec, execEmit1, whenSelected_of hc (by simp [hs]), stepEmit1, if_pos hok, if_neg (by simp [hq])]

theorem exec_diagDesync (hc : s.cfg.Valid) (hs : s.st = sResync) : exec .diagDesync s = .next s.reportDesync := by
  rw [exec, execDiagDesync, whenSelected_of hc (by simp [hs])]

theorem exec_reinit (hc : s.cfg.Valid) (hs : s.st = sResync) : exec .reinit s = .next s.reinitTransport := by
  rw [exec, execReinit, whenSelected_of hc (by simp [hs])]

theorem exec_resync (hc : s.cfg.Valid) (hs : s.st = sResync) : exec .resync s = .next s.resynced := by
  rw [exec, execResync, whenSelected_of hc (by simp [hs]), stepResync]

@[simp] theorem State.putWord_cfg (s : State) : s.putWord.cfg = s.cfg := rfl
@[simp] theorem State.putWord_st (s : State) : s.putWord.st = s.st := rfl
@[simp] theorem State.putWord_sx (s : State) : s.putWord.sx = s.sx := rfl
@[simp] theorem State.putWord_sy (s : State) : s.putWord.sy = s.sy := rfl

/-- EMIT1 with room in the queue, as its parts in order (R156). -/
theorem emit1_parts (hc : s.cfg.Valid) (hs : s.st = sScan) (hok : s.scanIndexOk = true) (hq : s.txqFull = false) :
    exec .emit1 s = runAll [.ser, .pad, .put, .scanadv] s.loadCell := by
  have hser : exec .ser s.loadCell = .next s.loadCell.serialize :=
    exec_ser (s := s.loadCell) hc hs
  have hpad : exec .pad s.loadCell.serialize = .next s.loadCell.serialize.align :=
    exec_pad (s := s.loadCell.serialize) hc hs
  have hput : exec .put s.loadCell.serialize.align = .next s.loadCell.serialize.align.putWord :=
    exec_put (s := s.loadCell.serialize.align) hc hs hq
  have hadv : exec .scanadv s.loadCell.serialize.align.putWord = .next s.emitPixel := by
    refine exec_scanadv ?_ ?_ ?_
    · rw [State.putWord_cfg]; exact hc
    · rw [State.putWord_st]; exact hs
    · simpa [State.scanIndexOk_iff] using hok
  rw [exec_emit1 hc hs hok hq, runAll_cons hser, runAll_cons hpad, runAll_cons hput, runAll_cons hadv, runAll]

/-- The parts of RESYNC before its transition (R186). -/
theorem resync_parts (hc : s.cfg.Valid) (hs : s.st = sResync) :
    runAll [.diagDesync, .reinit] s = .next s.reportDesync.reinitTransport := by
  have hreinit : exec .reinit s.reportDesync = .next s.reportDesync.reinitTransport := exec_reinit hc hs
  rw [runAll_cons (exec_diagDesync hc hs), runAll_cons hreinit, runAll]

end

/-- Settles O41: the parts of EMIT1 and of RESYNC are those of `State.emitPixel` and `State.resynced`. -/
theorem emit1AndResyncAreTheirParts : Obligations.Emit1AndResyncAreTheirParts := by
  intro s hc
  refine ⟨fun hs hx hy hq => ?_, fun hs => ⟨_, resync_parts hc hs, exec_resync hc hs⟩⟩
  exact emit1_parts hc hs (s.scanIndexOk_iff.mpr ⟨hx, hy⟩) (by simpa [State.txqFull] using hq)

/-- UNPACK from the start of its pass is LED_COUNT times UNPK1 (R138). -/
theorem unpack_expansion {s : State} (hc : s.cfg.Valid) (ht : s.turns = []) (hs : s.st = sUnpack) (hx : s.ux = 0)
    (hy : s.uy = 0) (hup : s.up = 8) : runAll (List.replicate s.cfg.ledCount .unpk1) s = exec .unpack s := by
  have haddr : cellAddr s.cfg s.ux s.uy = 0 := by simp [cellAddr, hx, hy]
  obtain ⟨t, _, hphase, _, hall⟩ := unpack_pass s.cfg.ledCount hc hs ht (hx ▸ hc.1) (hy ▸ hc.2.1) (by rw [haddr, hup])
    (by rw [haddr, Nat.zero_add])
  rw [hall, exec, execUnpack, whenSelected_of hc (by simp [hs]), runPhase, hphase _ (Nat.le_add_right ..)]

/-- RENDER from the start of its pass is LED_COUNT times EMIT1 (R157). -/
theorem render_expansion {s : State} (hc : s.cfg.Valid) (ht : s.turns = []) (hs : s.st = sScan)
    (hx : s.sx = s.cfg.width - 1) (hy : s.sy = yStart s.cfg (s.cfg.width - 1))
    (hq : s.txq.length + s.cfg.ledCount ≤ s.cfg.txqDepth) :
    runAll (List.replicate s.cfg.ledCount .emit1) s = exec .render s := by
  have hord : scanOrd s.cfg s.sx s.sy = 0 := by rw [hx, hy, scanOrd_start]
  obtain ⟨t, _, hphase, _, hall⟩ := render_pass s.cfg.ledCount hc hs ht (hx ▸ Nat.sub_lt hc.1 Nat.one_pos)
    (hy ▸ yStart_lt hc.2.1 _) (by rw [hord, Nat.zero_add]) hq
  rw [hall, exec, execRender, whenSelected_of hc (by simp [hs]), runPhase, hphase _ (Nat.le_add_right ..)]

/-- After the exchange CYCLE is the processing of the buffer delivered (R183). -/
theorem exec_cycle_of_ready {s : State} (hc : s.cfg.Valid) (ht : s.turns = []) (hs : s.st = sWait)
    (hready : s.exchangeReady = true) : exec .cycle s = processBuffer s.exchange := by
  have hled : 1 ≤ s.cfg.ledCount := Nat.mul_pos hc.1 hc.2.1
  have hphase : runPhase sWait stepXchg s = .next s.exchange :=
    phase_one hs ht (if_pos hready) (by simp) (by omega)
  rw [exec, execCycle, whenSelected_of hc (by simp [hs]), hphase, andThen_next]

/-- CYCLE is its expansion in the branch that the magic predicate of the buffer to come takes (R183). -/
theorem cycle_expansion {s : State} (hc : s.cfg.Valid) (ht : s.turns = []) (hs : s.st = sWait)
    (hn : s.cfg.frameLen ≤ s.upstream.length) (hq : s.txq.length + s.cfg.ledCount ≤ s.cfg.txqDepth) :
    runAll (expansion s.cfg (magicOk (s.upstream.take s.cfg.frameLen)) .cycle) s = exec .cycle s := by
  have hready : s.exchangeReady = true := by simpa [State.exchangeReady] using hn
  have hxchg : exec .xchg s = .next s.exchange := (whenSelected_of hc (by simp [hs])).trans (if_pos hready)
  have hframe := State.exchange_rxFrame hready
  rw [exec_cycle_of_ready hc ht hs hready]
  cases hm : magicOk (s.upstream.take s.cfg.frameLen)
  · obtain ⟨t, _, hproc, _, hall⟩ := process_desync (s := s.exchange) hc rfl ht (by rw [hframe, hm])
    rw [hproc, ← hall]
    exact runAll_cons hxchg _
  · obtain ⟨t, _, hproc, _, hall⟩ := process_sync (s := s.exchange) hc rfl ht (by rw [hframe, hm]) hq
    rw [hproc, ← hall]
    exact runAll_cons hxchg _

/-- Settles O54: pass by pass. -/
theorem pseudoOperationsAreTheirExpansions : Obligations.PseudoOperationsAreTheirExpansions := fun _ hc ht =>
  ⟨unpack_expansion hc ht, render_expansion hc ht, cycle_expansion hc ht⟩

/-! ### What becomes of a frame (R90) -/

/-- Settles O56: `process_desync` on the buffer that the operation names. -/
theorem desyncFrameIsDiscarded : Obligations.DesyncFrameIsDiscarded := by
  intro s b hc hs ht hwf hb
  obtain ⟨_, hm⟩ := wellFormed_desyncFrame_iff.mp hwf
  obtain ⟨t, hframe, hproc, _, _⟩ := process_desync hc hs ht (hb ▸ hm)
  rw [exec, execDesyncFrame, whenSelected_of hc (by simp [hs, hb, hm]), hproc, hframe]
  rfl

theorem frameBytes_getD_payload (seq rsv : Byte) (px : List Color) (j : Nat) :
    (frameBytes seq rsv px).getD (8 + j) 0 = (px.flatMap Color.bytes).getD j 0 := by
  have hbytes : frameBytes seq rsv px = (Config.magic ++ [seq, rsv]) ++ px.flatMap Color.bytes := rfl
  rw [hbytes, List.getD_append_right _ _ _ _ (Nat.le_add_right 8 j)]
  exact congrArg (List.getD _ · 0) (Nat.add_sub_cancel_left 8 j)

/-- Record i of a SYNC_FRAME is its pixel i (R84, R85). -/
theorem recordCell_frameBytes (seq rsv : Byte) (px : List Color) (i : Nat) :
    recordCell (frameBytes seq rsv px) i = ((px[i]?).map Color.cell).getD 0 := by
  obtain ⟨hr, hg, hb⟩ := getD_flatMap_bytes px i
  rw [recordCell, Nat.add_assoc 8 (3 * i) 1, Nat.add_assoc 8 (3 * i) 2, frameBytes_getD_payload, frameBytes_getD_payload,
    frameBytes_getD_payload, hr, hg, hb]
  cases px[i]? <;> rfl

theorem seqEvents_frameBytes (prev seq rsv : Byte) (px : List Color) :
    seqEvents prev (frameBytes seq rsv px) = if seq = prev + 1 then [] else [.diag (.seq (prev + 1) seq)] := by
  have hseq : (frameBytes seq rsv px).getD 6 0 = seq := rfl
  rw [seqEvents, hseq]
  exact ite_not ..

/-- The record of a discontinuity, if the counter is not the expected one (R88, R206). -/
theorem diagRecords_frameBytes (prev seq rsv : Byte) (px : List Color) :
    (diagsOf (seqEvents prev (frameBytes seq rsv px))).map Diag.record =
      if seq = prev + 1 then [] else [(0x01#8) ++ (prev + 1) ++ seq] := by
  rw [seqEvents_frameBytes]
  split <;> rfl

theorem bufferWords_frameBytes (c : Config) (seq rsv : Byte) (px : List Color) :
    bufferWords c (frameBytes seq rsv px) =
      renderWords c fun x y => ((px[y * c.width + x]?).map Color.cell).getD 0 := by
  simp only [bufferWords, recordCell_frameBytes, cellAddr]

/-- Settles O55: `process_sync` on the buffer that the operation names, with its bytes in terms of the frame's fields. -/
theorem syncFrameIsRendered : Obligations.SyncFrameIsRendered := by
  intro s seq rsv px hc hs ht hwf hb hq
  have hlen := wellFormed_syncFrame_iff.mp hwf
  have hcounter : s.rxByte 6 = seq := by rw [← State.byte6_rxFrame, hb]; rfl
  obtain ⟨t, ⟨hcells, hrest, htrace, htxq, hframe⟩, hproc, _, _⟩ :=
    process_sync hc hs ht (hb ▸ magicOk_frameBytes seq rsv px) hq
  rw [hb] at hcells htrace htxq hframe
  rw [seqEvents_frameBytes, bufferWords_frameBytes] at htrace
  rw [bufferWords_frameBytes] at htxq
  rw [diagRecords_frameBytes, hcounter] at hframe
  have hexec : exec (.syncFrame seq rsv px) s = .next t := by
    rw [exec, execSyncFrame, whenSelected_of hc (by simp [hs, hb]), hproc]
  have hpixels : ∀ x y, x < s.cfg.width → y < s.cfg.height →
      some (t.cell x y) = (px[y * s.cfg.width + x]?).map Color.cell := fun x y hx hy => by
    have hlt : y * s.cfg.width + x < px.length := hlen ▸ cellAddr_lt hx hy
    rw [hcells x y hx hy, recordCell_frameBytes, cellAddr, List.getElem?_eq_getElem hlt]
    rfl
  exact ⟨t, hexec, by rw [hframe], by rw [hframe], by rw [hframe], by rw [hframe], hpixels, hrest, htrace, htxq,
    by rw [hframe], by rw [hframe], by rw [hframe], by rw [hframe], by rw [hframe], by rw [hframe],
    by rw [hframe]; exact ht⟩

end Sys2Proof.Machine

/-! Transport (spec 40_transport.md): XCHG by whether the transport has N bytes (R111, R113), and REINIT (R114). -/

namespace Sys2Proof.Machine

variable {s : State}

/-- The selector of S_WAIT has the row of XCHG and nothing else to ask (R95). -/
theorem exec_xchg (hc : s.cfg.Valid) (hs : s.st = sWait) : exec .xchg s = stepXchg s := by
  rw [exec, execXchg, whenSelected_of hc (by simp [hs])]

theorem State.exchangeReady_iff : s.exchangeReady = true ↔ s.cfg.frameLen ≤ s.upstream.length := decide_eq_true_iff

theorem stepXchg_of_ready (h : s.cfg.frameLen ≤ s.upstream.length) : stepXchg s = .next s.exchange :=
  if_pos (State.exchangeReady_iff.mpr h)

theorem stepXchg_of_short (h : s.upstream.length < s.cfg.frameLen) : stepXchg s = .next s :=
  if_neg (mt State.exchangeReady_iff.mp (Nat.not_le.mpr h))

/-- The bytes of TXBUF in the order in which they leave, index 0 first (log entry 18). -/
theorem State.exchange_shiftedOut_range (s : State) :
    s.exchange.shiftedOut = s.shiftedOut ++ (List.range s.cfg.frameLen).map (Memory.read s.txbuf) := by
  rw [State.exchange_shiftedOut, Memory.slice, List.range_eq_range']

/-- Settles O21: the next state is the exchange, whose RXBUF is the memory of the first N bytes to come. -/
theorem xchgDeliversOneBuffer : Obligations.XchgDeliversOneBuffer := by
  intro s hc hs hn
  have hexec : exec .xchg s = .next s.exchange := (exec_xchg hc hs).trans (stepXchg_of_ready hn)
  have hframe := State.exchange_rxFrame (State.exchangeReady_iff.mpr hn)
  have hwf : s.exchange.rxbuf.wf := Memory.wf_ofList 0 _
  have hbelow : s.exchange.rxbuf.below s.cfg.frameLen := Memory.below_ofList _ _ (List.length_take_le _ _)
  exact ⟨s.exchange, hexec, hframe, hwf, hbelow, s.exchange_upstream, s.exchange_shiftedOut_range, s.exchange_trace,
    s.exchange_st, rfl⟩

/-- Settles O22: XCHG is selected, and its step without N bytes is the hold. -/
theorem xchgHoldsWithoutABuffer : Obligations.XchgHoldsWithoutABuffer := fun _ hc hs hn =>
  (exec_xchg hc hs).trans (stepXchg_of_short hn)

/-- Settles O23: REINIT is selected, and its whole effect `State.reinitTransport` is the one event. -/
theorem reinitChangesNoState : Obligations.ReinitChangesNoState := fun _ hc hs => exec_reinit hc hs

end Sys2Proof.Machine

/-! Frame validator (spec 41_frame_validator.md): the two forms of the magic predicate (R121), MCMP, SEQCHK and SEQUPD where
their rows select them (R122 to R124), and VALIDATE by the class of its buffer and as its parts (R125). -/

namespace Sys2Proof.Machine

/-! ### The magic predicate (R121) -/

/-- Settles O4: the masked comparison is `isSyncFrame`, and a buffer that holds a header is six bytes and more. -/
theorem maskedHeaderIsMagicPredicate : Obligations.MaskedHeaderIsMagicPredicate := by
  intro b hlen
  have hmask : hdr64 b &&& syncMask = syncMatch ↔ isSyncFrame b = true := beq_iff_eq.symm
  refine ⟨hmask.trans (by rw [isSyncFrame_eq_magicOk hlen]), ?_⟩
  obtain ⟨b0, b1, b2, b3, b4, b5, b6, b7, rest, rfl⟩ := eight_bytes b hlen
  rw [magicOk_iff]
  simp [Config.magic]

section
variable {s : State}

/-! ### The operations of S_VALIDATE where their rows select them (R95) -/

theorem exec_mcmp (hc : s.cfg.Valid) (hs : s.st = sValidate) : exec .mcmp s = .next s.compareMagic := by
  rw [exec, execMcmp, whenSelected_of hc (by simp [hs])]

theorem exec_seqchk (hc : s.cfg.Valid) (hs : s.st = sValidate) (hm : magicOk s.rxFrame = true) (hsync : s.sync = true) :
    exec .seqchk s = .next s.checkSequence := by
  rw [State.magicOk_rxFrame] at hm
  rw [exec, execSeqchk, whenSelected_of hc (by simp [hs, hm, hsync])]

theorem exec_sequpd (hc : s.cfg.Valid) (hs : s.st = sValidate) (hm : magicOk s.rxFrame = true) (hsync : s.sync = true) :
    exec .sequpd s = .next s.acceptSequence := by
  rw [State.magicOk_rxFrame] at hm
  rw [exec, execSequpd, whenSelected_of hc (by simp [hs, hm, hsync])]

theorem exec_validate (hc : s.cfg.Valid) (hs : s.st = sValidate) : exec .validate s = .next s.validated := by
  rw [exec, execValidate, whenSelected_of hc (by simp [hs]), stepValidate]

/-! ### What the parts and the step leave -/

/-- SEQCHK writes CUR, EXP, the sink and the trace (R123). -/
theorem State.checkSequence_frame (s : State) : s.checkSequence = { s with
    cur := s.checkSequence.cur, exp := s.checkSequence.exp
    diag := s.checkSequence.diag, trace := s.checkSequence.trace } := by
  obtain ⟨_, h⟩ | ⟨_, h⟩ := s.checkSequence_cases <;> rw [h]

theorem State.seqEvents_of_expected (h : s.rxByte 6 = s.prev + 1) : seqEvents s.prev s.rxFrame = [] := by
  rw [seqEvents, State.byte6_rxFrame, if_neg (not_not_intro h)]

theorem State.seqEvents_of_unexpected (h : s.rxByte 6 ≠ s.prev + 1) :
    seqEvents s.prev s.rxFrame = [.diag (.seq (s.prev + 1) (s.rxByte 6))] := by
  rw [seqEvents, State.byte6_rxFrame, if_pos h]

/-- VALIDATE with the magic sequence, as its parts in order (R125). -/
theorem State.validated_of_magic (hm : magicOk s.rxFrame = true) :
    s.validated = s.compareMagic.checkSequence.acceptSequence.startUnpack :=
  if_pos (s.magicOk_rxFrame.symm.trans hm)

/-- The parts of VALIDATE before its transition: the compare leaves SYNC = 1, and the check leaves SYNC and RXBUF. -/
theorem validate_parts (hc : s.cfg.Valid) (hs : s.st = sValidate) (hm : magicOk s.rxFrame = true) :
    runAll [.mcmp, .seqchk, .sequpd] s = .next s.compareMagic.checkSequence.acceptSequence := by
  have hsync : s.compareMagic.sync = true := s.magicOk_rxFrame.symm.trans hm
  have hseqchk : exec .seqchk s.compareMagic = .next s.compareMagic.checkSequence := exec_seqchk hc hs hm hsync
  have hsequpd : exec .sequpd s.compareMagic.checkSequence = .next s.compareMagic.checkSequence.acceptSequence := by
    rw [State.checkSequence_frame]
    exact exec_sequpd hc hs hm hsync
  rw [runAll_cons (exec_mcmp hc hs), runAll_cons hseqchk, runAll_cons hsequpd, runAll]

end

/-! ### The statements -/

/-- Settles O24: MCMP is selected, and the flag it computes reads bytes 0 to 5. -/
theorem mcmpComparesSixBytes : Obligations.McmpComparesSixBytes := fun s hc hs =>
  ⟨s.compareMagic, exec_mcmp hc hs, s.syncNow_iff, rfl⟩

/-- Settles O25: the two cases of `State.checkSequence`. -/
theorem seqchkReportsADiscontinuity : Obligations.SeqchkReportsADiscontinuity := by
  intro s hc hs hm hsync
  have hexpected : (s.prev + 1).toNat = (s.prev.toNat + 1) % 256 := BitVec.toNat_add ..
  have hexec := exec_seqchk hc hs hm hsync
  obtain ⟨h, e⟩ | ⟨h, e⟩ := s.checkSequence_cases <;> rw [e] at hexec
  · exact ⟨_, hexec, rfl, hexpected, fun _ => ⟨rfl, rfl⟩, fun hne => absurd h hne, rfl⟩
  · exact ⟨_, hexec, rfl, hexpected, fun heq => absurd heq h, fun _ => ⟨rfl, rfl⟩, rfl⟩

/-- Settles O27: SEQUPD is selected, and its whole effect `State.acceptSequence` is the copy. -/
theorem sequpdAcceptsTheCounter : Obligations.SequpdAcceptsTheCounter := fun _ hc hs hm hsync =>
  exec_sequpd hc hs hm hsync

/-- Settles O28: `State.validated_sync`, with the events that it adds in the two cases of the counter. -/
theorem validateAcceptsMagic : Obligations.ValidateAcceptsMagic := by
  intro s hc hs hm
  have hexec := exec_validate hc hs
  rw [State.validated_sync hm] at hexec
  refine ⟨_, hexec, rfl, rfl, rfl, rfl, rfl, rfl, rfl, rfl, fun h => ?_, fun h => ?_, rfl⟩
  · simp [State.seqEvents_of_expected h, diagsOf]
  · simp [State.seqEvents_of_unexpected h, diagsOf, Diag.record]

/-- Settles O29: VALIDATE is selected, and `State.validated_desync` says what it leaves. -/
theorem validateRejectsTheRest : Obligations.ValidateRejectsTheRest := fun s hc hs hm => by
  rw [exec_validate hc hs, State.validated_desync hm]

/-- Settles O30: the parts leave `State.validated` but for its transition, on either side of the compare. -/
theorem validateIsItsParts : Obligations.ValidateIsItsParts := by
  intro s hc hs
  refine ⟨fun hm => ⟨_, validate_parts hc hs hm, ?_⟩, fun hm => ⟨s.compareMagic, ?_, ?_⟩⟩
  · rw [exec_validate hc hs, State.validated_of_magic hm, State.startUnpack]
  · rw [runAll_cons (exec_mcmp hc hs), runAll]
  · have hsync : s.syncNow = false := s.magicOk_rxFrame.symm.trans hm
    rw [exec_validate hc hs, State.validated_desync hm, State.compareMagic, hsync]

end Sys2Proof.Machine

/-! Lattice unpacker (spec 42_lattice_unpack.md): UNPK1 by where its indices go next (R137), and UNPACK from the start of the
pass, alone and between any turns (R136, R138, R140). -/

namespace Sys2Proof.Machine

section
variable {s t : State}

/-! ### UNPK1 (R137) -/

theorem exec_unpk1 (hc : s.cfg.Valid) (hs : s.st = sUnpack) (hok : s.unpackIndexOk = true) :
    exec .unpk1 s = .next s.storeRecord.advanceUnpack := by
  rw [exec, execUnpk1, whenSelected_of hc (by simp [hs]), stepUnpk1, if_pos hok]

@[simp] theorem State.advanceUnpack_cfg (s : State) : s.advanceUnpack.cfg = s.cfg := by rw [State.advanceUnpack_frame]
@[simp] theorem State.advanceUnpack_col (s : State) : s.advanceUnpack.col = s.col := by rw [State.advanceUnpack_frame]
@[simp] theorem State.advanceUnpack_lattice (s : State) : s.advanceUnpack.lattice = s.lattice := by
  rw [State.advanceUnpack_frame]

theorem State.advanceUnpack_nextColumn (hx : s.ux + 1 < s.cfg.width) : s.advanceUnpack = { s with ux := s.ux + 1 } := by
  rw [State.advanceUnpack, if_neg hx.ne]

theorem State.advanceUnpack_nextRow (hx : s.ux + 1 = s.cfg.width) (hy : s.uy + 1 < s.cfg.height) :
    s.advanceUnpack = { s with ux := 0, uy := s.uy + 1 } := by
  rw [State.advanceUnpack, if_pos hx, if_neg hy.ne]

theorem State.advanceUnpack_last (hx : s.ux + 1 = s.cfg.width) (hy : s.uy + 1 = s.cfg.height) :
    s.advanceUnpack = { s with ux := 0 }.startScan := by
  rw [State.advanceUnpack, if_pos hx, if_pos hy]

/-! ### The pass from its start -/

theorem exec_unpack (hc : s.cfg.Valid) (hs : s.st = sUnpack) : exec .unpack s = runPhase sUnpack stepUnpk1 s := by
  rw [exec, execUnpack, whenSelected_of hc (by simp [hs])]

theorem cellAddr_origin (c : Config) : cellAddr c 0 0 = 0 := by rw [cellAddr, Nat.zero_mul]

/-- The lattice as R136 and R140 give it, from its words in the order of their addresses (R38). -/
theorem State.cell_eq_recordCell (hcfg : t.cfg = s.cfg)
    (hwords : ∀ j, j < s.cfg.ledCount → Memory.read t.lattice j = s.pixelAt (8 + 3 * j))
    {x y : Nat} (hx : x < s.cfg.width) (hy : y < s.cfg.height) :
    t.cell x y = recordCell s.rxFrame (y * s.cfg.width + x) := by
  have haddr : y * s.cfg.width + x < s.cfg.ledCount := cellAddr_lt hx hy
  rw [State.cell, hcfg, cellAddr, hwords _ haddr, State.recordCell_rxFrame s haddr]

end

/-! ### The statements -/

/-- Settles O31: the record is stored, and the indices go to the next column, to the next row, or to the end of the pass. -/
theorem unpk1StoresOneRecord : Obligations.Unpk1StoresOneRecord := by
  intro s hc hs hx hy hup
  refine ⟨_, exec_unpk1 hc hs (State.unpackIndexOk_of hx hy hup), by simp [State.pixelAt], by simp [State.cell],
    fun a ha => by simp [Memory.read_write_other _ _ ha], ?_⟩
  obtain hcol | hwrap := Nat.lt_or_eq_of_le hx
  · rw [if_pos hcol, State.advanceUnpack_nextColumn (s := s.storeRecord) hcol]
    rfl
  · rw [if_neg hwrap.not_lt]
    obtain hrow | hend := Nat.lt_or_eq_of_le hy
    · rw [if_pos hrow, State.advanceUnpack_nextRow (s := s.storeRecord) hwrap hrow]
      rfl
    · rw [if_neg hend.not_lt, State.advanceUnpack_last (s := s.storeRecord) hwrap hend]
      rfl

/-- Settles O32: the pass of `unpack_pass`, from the cell of record 0. -/
theorem unpackFillsTheLattice : Obligations.UnpackFillsTheLattice := by
  intro s hc hs hux huy hup hturns
  have hstart : cellAddr s.cfg s.ux s.uy = 0 := by rw [hux, huy, cellAddr_origin]
  obtain ⟨t, ⟨hwords, hrest, hframe⟩, hphase, _⟩ := unpack_pass s.cfg.ledCount hc hs hturns (hux ▸ hc.1) (huy ▸ hc.2.1)
    (by rw [hstart, hup]) (by rw [hstart, Nat.zero_add])
  rw [hstart] at hwords
  have hexec : exec .unpack s = .next t := by rw [exec_unpack hc hs, runPhase, hphase _ (Nat.le_add_right ..)]
  refine ⟨t, hexec, fun x y => State.cell_eq_recordCell ?_ fun j => hwords j (Nat.zero_le j), fun a ha => hrest a (.inr ha),
    ?_, ?_, ?_, ?_⟩ <;> rw [hframe]

/-- Settles O33: the pass of `unpack_schedule`, from the cell of record 0. -/
theorem unpackUnderAnySchedule : Obligations.UnpackUnderAnySchedule := by
  intro s hc hs hux huy hup
  have hstart : cellAddr s.cfg s.ux s.uy = 0 := by rw [hux, huy, cellAddr_origin]
  obtain ⟨t, ⟨hwords, hrest, hfifo, _, _, hbytes, hframe⟩, hphase⟩ := unpack_schedule (s.cfg.ledCount + s.turns.length) hs
    (hux ▸ hc.1) (huy ▸ hc.2.1) (by rw [hstart, hup]) (by omega)
  rw [hstart] at hwords
  have hexec : exec .unpack s = .next t := by rw [exec_unpack hc hs, runPhase, hphase]
  refine ⟨t, hexec, fun x y => State.cell_eq_recordCell ?_ fun j => hwords j (Nat.zero_le j), fun a ha => hrest a (.inr ha),
    ?_, ?_, ?_, hfifo, hbytes, ?_⟩ <;> rw [hframe]

end Sys2Proof.Machine

/-! Serpentine serializer (spec 43_render_serializer.md): the scan order (R150, R158, R159), SCANADV and EMIT1 by where the
scan goes next (R154, R156), and RENDER from the start of the pass, with room for its words, between any turns, and as the
queue drains (R157, R160, R171). -/

namespace Sys2Proof.Machine

/-! ### The scan order -/

section
variable {c : Config}

/-- The other half of the bijection of R159; the first is `scanCell_scanOrd`. -/
theorem scanOrd_scanCell {k : Nat} (hk : k < c.ledCount) : scanOrd c (scanCell c k).1 (scanCell c k).2 = k := by
  have hpos : 0 < c.height := Nat.pos_of_mul_pos_left (Nat.zero_lt_of_lt hk)
  have hcol : k / c.height < c.width := Nat.div_lt_of_lt_mul (by rwa [Nat.mul_comm])
  have hrow : k % c.height < c.height := Nat.mod_lt k hpos
  have hback : c.width - 1 - (c.width - 1 - k / c.height) = k / c.height :=
    Nat.sub_sub_self (Nat.le_sub_one_of_lt hcol)
  have hoffset : c.height - 1 - (c.height - 1 - k % c.height) = k % c.height :=
    Nat.sub_sub_self (Nat.le_sub_one_of_lt hrow)
  simp only [scanOrd, scanCell, hback]
  split
  · exact Nat.div_add_mod' k c.height
  · rw [hoffset, Nat.div_add_mod']

/-- Settles O45: `scanOrd_scanCell` on the ordinals, `scanCell_scanOrd` on the cells. -/
theorem scanOrderIsABijection : Obligations.ScanOrderIsABijection := fun _ hc =>
  ⟨fun k hk => ⟨(scanCell_lt hc k).1, (scanCell_lt hc k).2, scanOrd_scanCell hk⟩,
    fun _ _ hx hy => ⟨scanOrd_lt hx hy, scanCell_scanOrd hx hy⟩⟩

/-- Settles O46: each column is one cell, and either direction of the scan finds it in row 0. -/
theorem singleRowRunsRightToLeft : Obligations.SingleRowRunsRightToLeft := by
  intro c _ hone k _
  rw [scanCell, hone, Nat.div_one, Nat.mod_one]
  split <;> rfl

@[simp] theorem length_renderWords (cellAt : Nat → Nat → Word24) : (renderWords c cellAt).length = c.ledCount := by
  rw [renderWords, List.length_map, List.length_range]

theorem asc_iff {x : Nat} : asc c x = true ↔ if c.scanOddAsc = true then x % 2 = 1 else x % 2 = 0 := by
  unfold asc
  split <;> exact beq_iff_eq

/-- Short of the end of its column, by the column's direction (R152). -/
theorem ne_yEnd_iff {x y : Nat} :
    y ≠ yEnd c x ↔ (asc c x = true ∧ y ≠ c.height - 1) ∨ (asc c x = false ∧ y ≠ 0) := by
  cases h : asc c x <;> simp [yEnd, h]

end

/-! ### SCANADV and EMIT1 -/

section
variable {s : State}

theorem State.advanceScan_nextRow (h : s.sy ≠ yEnd s.cfg s.sx) :
    s.advanceScan = { s with sy := if asc s.cfg s.sx then s.sy + 1 else s.sy - 1 } := by
  rw [State.advanceScan, if_pos h]

theorem State.advanceScan_nextColumn (h : ¬ s.sy ≠ yEnd s.cfg s.sx) (hx : s.sx ≠ 0) :
    s.advanceScan = { s with sx := s.sx - 1, sy := yStart s.cfg (s.sx - 1) } := by
  rw [State.advanceScan, if_neg h, if_pos hx]

theorem State.advanceScan_last (h : ¬ s.sy ≠ yEnd s.cfg s.sx) (hx : ¬ s.sx ≠ 0) :
    s.advanceScan = { s with st := sWait } := by
  rw [State.advanceScan, if_neg h, if_neg hx]

/-- Settles O39: up or down a row short of the column's end (`ne_yEnd_iff`), and at its end the next column or none. -/
theorem scanadvFollowsTheSerpentine : Obligations.ScanadvFollowsTheSerpentine := by
  refine ⟨fun c x => ⟨asc_iff, rfl, rfl⟩, fun s hc hs hx hy => ?_⟩
  refine ⟨s.advanceScan, exec_scanadv hc hs (s.scanIndexOk_iff.mpr ⟨hx, hy⟩), ?_⟩
  by_cases hrow : s.sy ≠ yEnd s.cfg s.sx
  · rw [State.advanceScan_nextRow hrow]
    obtain hup | hdown := ne_yEnd_iff.mp hrow
    · rw [if_pos hup, if_pos hup.1]
    · rw [if_neg (by simp [hdown.1]), if_pos hdown, hdown.1]
      rfl
  · obtain ⟨hup, hdown⟩ := not_or.mp (ne_yEnd_iff.not.mp hrow)
    rw [if_neg hup, if_neg hdown]
    by_cases hcol : s.sx ≠ 0
    · rw [if_pos hcol, State.advanceScan_nextColumn hrow hcol]
      rfl
    · rw [if_neg hcol, State.advanceScan_last hrow hcol]

/-- Settles O40: the cell's word is put, and the scan ends after the last ordinal or goes to the cell of the next one. -/
theorem emit1PutsOneCell : Obligations.Emit1PutsOneCell := by
  intro s hc hs hx hy hq
  refine ⟨s.emitPixel, exec_emit1 hc hs (s.scanIndexOk_iff.mpr ⟨hx, hy⟩) (by simpa [State.txqFull] using hq), ?_⟩
  obtain ⟨hlast, _, _, heq⟩ | ⟨x, y, hx', hy', hnext, _, heq⟩ := State.emitPixel_cases hx hy
  · rw [heq, if_neg hlast.not_lt]
    exact ⟨rfl, rfl, rfl, rfl, rfl, rfl⟩
  · have hlt : scanOrd s.cfg x y < s.cfg.ledCount := scanOrd_lt hx' hy'
    rw [heq, ← hnext, if_pos hlt, scanCell_scanOrd hx' hy']
    exact ⟨rfl, rfl, rfl, rfl, ⟨hs, rfl⟩, rfl⟩

/-! ### The pass from its start -/

theorem exec_render (hc : s.cfg.Valid) (hs : s.st = sScan) : exec .render s = runPhase sScan stepEmit1 s := by
  rw [exec, execRender, whenSelected_of hc (by simp [hs])]

/-- The start of the pass lies in the lattice and has ordinal 0 (R152, R159). -/
theorem State.scanStart (hc : s.cfg.Valid) (hx : s.sx = s.cfg.width - 1) (hy : s.sy = yStart s.cfg (s.cfg.width - 1)) :
    s.sx < s.cfg.width ∧ s.sy < s.cfg.height ∧ scanOrd s.cfg s.sx s.sy = 0 := by
  rw [hx, hy]
  exact ⟨Nat.sub_lt hc.1 Nat.one_pos, yStart_lt hc.2.1 _, scanOrd_start s.cfg⟩

end

/-- The schedule of one pulse turn after each sequencer's turn brings no bytes (R112). -/
theorem scheduledBytes_sequencer_pulse (n : Nat) :
    scheduledBytes (List.replicate n [Turn.sequencer, .pulse]).flatten = [] := by
  induction n with
  | zero => rfl
  | succ n ih => exact ih

/-- Settles O42: the pass of `render_pass`, from ordinal 0. -/
theorem renderEmitsTheSerpentine : Obligations.RenderEmitsTheSerpentine := by
  intro s hc hs hx hy hturns hroom
  obtain ⟨hx', hy', hord⟩ := State.scanStart hc hx hy
  obtain ⟨t, ⟨hevents, hqueue, hframe⟩, hphase, _⟩ := render_pass s.cfg.ledCount hc hs hturns hx' hy'
    (by rw [hord, Nat.zero_add]) hroom
  rw [hord, List.drop_zero] at hevents hqueue
  have hexec : exec .render s = .next t := by rw [exec_render hc hs, runPhase, hphase _ (Nat.le_add_right ..)]
  have hst : t.st = sWait := by rw [hframe]
  exact ⟨t, hexec, hevents, hqueue, hst, by rw [hst]; exact hframe⟩

/-- Settles O43: the pass of `render_schedule`, from ordinal 0. -/
theorem renderUnderAnySchedule : Obligations.RenderUnderAnySchedule := by
  intro s hc hs hx hy
  obtain ⟨hx', hy', hord⟩ := State.scanStart hc hx hy
  obtain ⟨t, k, ⟨hevents, hfifo, hbytes, hending, hframe⟩, hphase⟩ := render_schedule (s.cfg.ledCount + s.turns.length) hs
    hx' hy' (by omega)
  simp only [hord, List.drop_zero, Nat.zero_add] at hevents hfifo hending
  exact ⟨t, k, by rw [exec_render hc hs, runPhase, hphase], hevents, hfifo, hbytes, hending, hframe⟩

/-- Settles O44: what RENDER puts under any schedule (O43), and by `render_drains` this schedule ends the pass. -/
theorem renderCompletesAsTheQueueDrains : Obligations.RenderCompletesAsTheQueueDrains := by
  intro s hc hs hx hy hroom hturns
  obtain ⟨t, k, hexec, hevents, hfifo, hbytes, hending, hframe⟩ := renderUnderAnySchedule s hc hs hx hy
  obtain ⟨hx', hy', hord⟩ := State.scanStart hc hx hy
  have hfuel : 2 * s.cfg.ledCount ≤ s.cfg.ledCount + s.turns.length := by simp [hturns]; omega
  obtain ⟨u, hphase, hst, hleft, hlen⟩ := render_drains s.cfg.ledCount hs hx' hy' (by rw [hord, Nat.zero_add]) hroom hturns
    hfuel
  have hrun : exec .render s = .next u := by rw [exec_render hc hs, runPhase, hphase]
  obtain rfl : u = t := by injection hrun.symm.trans hexec
  have hk : k = s.cfg.ledCount := by
    obtain ⟨_, hk⟩ | ⟨hheld, _⟩ := hending
    · exact hk
    · exact absurd (hst.symm.trans hheld) sWait_ne_sScan
  have hall : (renderWords s.cfg s.cell).take k = renderWords s.cfg s.cell := List.take_of_length_le (by simp [hk])
  rw [hall] at hevents hfifo
  have hup : u.upstream = s.upstream := by
    rw [hleft, hturns, scheduledBytes_sequencer_pulse, List.append_nil] at hbytes
    exact (List.append_nil _).symm.trans hbytes
  rw [hup] at hframe
  exact ⟨u, hexec, hevents, hfifo, hlen, hst, hleft, hframe⟩

/-- Settles O47: both passes put the words of the one lattice (O42), which their frames leave as it was. -/
theorem renderIsIdempotent : Obligations.RenderIsIdempotent := by
  intro s u hc hcfg hcells hstart
  obtain ⟨hs, hx, hy, hturns, hroom⟩ := hstart s (.inl rfl)
  obtain ⟨hs', hx', hy', hturns', hroom'⟩ := hstart u (.inr rfl)
  obtain ⟨t, hexec, hevents, _, _, hframe⟩ := renderEmitsTheSerpentine s hc hs hx hy hturns hroom
  obtain ⟨r, hexec', hevents', _, _, hframe'⟩ := renderEmitsTheSerpentine u (hcfg ▸ hc) hs' hx' hy' hturns' hroom'
  have hwords : renderWords u.cfg u.cell = renderWords s.cfg s.cell := by rw [hcfg, renderWords_congr hc hcells]
  refine ⟨renderWords s.cfg s.cell, t, r, hexec, hexec', by rw [hframe], by rw [hframe'], ?_, ?_, length_renderWords _⟩
  · rw [hevents, putsOf_append, putsOf_map_put]
  · rw [hevents', putsOf_append, putsOf_map_put, hwords]

end Sys2Proof.Machine

/-! Color and output (spec 44_color_output.md): SER and PAD on the color word (R166, R168), the queue word of a cell (R174),
and PUT and EMIT1 by whether the queue has room (R170, R171). -/

namespace Sys2Proof.Machine

/-! ### The color word (R166, R168, R174) -/

/-- Byte by byte, the value of SER is its argument with the two high bytes exchanged (R166). -/
theorem ser_bytes (v : Word24) :
    (ser v).extractLsb' 16 8 = v.extractLsb' 8 8 ∧ (ser v).extractLsb' 8 8 = v.extractLsb' 16 8 ∧
      (ser v).extractLsb' 0 8 = v.extractLsb' 0 8 :=
  extract_three (v.extractLsb' 8 8) (v.extractLsb' 16 8) (v.extractLsb' 0 8)

theorem ser_ser (v : Word24) : ser (ser v) = v := by
  obtain ⟨r, g, b, rfl⟩ := exists_three v
  rw [ser_three, ser_three]

/-- PAD_BITS are zero, so that PAD only shifts (R168). -/
theorem pad_eq_shiftLeft (v : Word24) : pad v = v.setWidth 32 <<< 8 := BitVec.or_zero

/-- Settles O34: SER is `State.serialize`, whose word `ser_bytes` reads. -/
theorem serExchangesRedAndGreen : Obligations.SerExchangesRedAndGreen := by
  refine ⟨fun s hc hs => ?_, ser_three, ser_ser⟩
  obtain ⟨hred, hgreen, hblue⟩ := ser_bytes s.col
  exact ⟨s.serialize, exec_ser hc hs, hred, hgreen, hblue, rfl⟩

/-- Settles O35: PAD is `State.align`, whose word is the color word over a zero byte. -/
theorem padAlignsTheColorWord : Obligations.PadAlignsTheColorWord := by
  intro s hc hs
  refine ⟨s.align, exec_pad hc hs, pad_eq_shiftLeft s.w24, ?_, ?_, rfl⟩
  · rw [State.align_ow, pad_eq_append]
    exact BitVec.extractLsb'_append_eq_left
  · rw [State.align_ow, pad_eq_append]
    exact BitVec.extractLsb'_append_eq_right

/-- Settles O36: SER on the three bytes, then PAD. -/
theorem queueWordIsGreenRedBlue : Obligations.QueueWordIsGreenRedBlue := by
  intro r g b
  rw [outWord, ser_three, pad_eq_append]

/-! ### The queue (R170, R171) -/

section
variable {s : State}

theorem State.txqFull_iff : s.txqFull = true ↔ s.cfg.txqDepth ≤ s.txq.length := decide_eq_true_iff

theorem exec_put_of_full (hc : s.cfg.Valid) (hs : s.st = sScan) (hq : s.txqFull = true) : exec .put s = .next s := by
  rw [exec, execPut, whenSelected_of hc (by simp [hs]), if_pos hq]

theorem exec_emit1_of_full (hc : s.cfg.Valid) (hs : s.st = sScan) (hok : s.scanIndexOk = true) (hq : s.txqFull = true) :
    exec .emit1 s = .next s := by
  rw [exec, execEmit1, whenSelected_of hc (by simp [hs]), stepEmit1, if_pos hok, if_pos hq]

end

/-- Settles O37: with room in the queue PUT is `State.putWord`. -/
theorem putAppendsOneWord : Obligations.PutAppendsOneWord := by
  intro s hc hs hroom
  have hq : s.txqFull = false := Bool.eq_false_iff.mpr (State.txqFull_iff.not.mpr hroom.not_ge)
  exact exec_put hc hs hq

/-- Settles O38: PUT asks for room first, and EMIT1 does once its indices are in range. -/
theorem fullQueueHoldsTheScan : Obligations.FullQueueHoldsTheScan := by
  intro s hc hs hfull
  have hq : s.txqFull = true := State.txqFull_iff.mpr hfull
  exact ⟨exec_put_of_full hc hs hq, fun hx hy => exec_emit1_of_full hc hs (s.scanIndexOk_iff.mpr ⟨hx, hy⟩) hq⟩

end Sys2Proof.Machine

/-! Main cycle (spec 45_main_cycle.md): the rows of the transition table (R182), that the machine goes on (R187), RESYNC
(R186), and CYCLE as the cycle function of R183: alone, as its steps, and under any schedule of turns (R181). -/

namespace Sys2Proof.Machine

/-! ### The transition table (R182) -/

/-- Settles O12: each move of the sequencer is a row or a hold; the rows of UNPK1 and of EMIT1 are told apart by whether
the pass ends (`State.advanceUnpack_cases`, `State.emitPixel_cases`). -/
theorem everyStepIsARowOfTheTransitionTable : Obligations.EveryStepIsARowOfTheTransitionTable := by
  intro s t hturns h
  rw [step_of_turns_nil hturns] at h
  obtain ⟨_, hmove⟩ := sequencerMove_next h
  cases hmove with
  | exchange st ready =>
    left
    exact ⟨st, State.exchangeReady_iff.mp ready, rfl⟩
  | heldWait st busy =>
    have hshort : s.upstream.length < s.cfg.frameLen := by simpa [State.exchangeReady] using busy
    right; left
    exact ⟨st, hshort, rfl⟩
  | validate st =>
    obtain ⟨hm, e⟩ | ⟨hm, e⟩ := s.validated_cases
    · iterate 2 right
      left
      exact ⟨st, hm, by rw [e]⟩
    · iterate 3 right
      left
      exact ⟨st, hm, by rw [e]⟩
  | unpack st ok =>
    obtain ⟨hx, hy, _⟩ := s.unpackIndexOk_iff.mp ok
    obtain ⟨_, hlastX, hlastY, e⟩ | ⟨x, y, hx', hy', hnext, e⟩ := State.advanceUnpack_cases (s := s.storeRecord) hx hy
    · iterate 5 right
      left
      exact ⟨st, Nat.eq_sub_of_add_eq hlastX, Nat.eq_sub_of_add_eq hlastY, by rw [e]; rfl⟩
    · have hmore : cellAddr s.cfg s.ux s.uy + 1 < s.cfg.ledCount := hnext ▸ cellAddr_lt hx' hy'
      iterate 4 right
      left
      exact ⟨st, Nat.lt_sub_of_add_lt hmore, by rw [e]; exact st⟩
  | heldScan st _ full =>
    iterate 6 right
    left
    exact ⟨st, State.txqFull_iff.mp full, rfl⟩
  | emit st ok room =>
    obtain ⟨hx, hy⟩ := s.scanIndexOk_iff.mp ok
    have hroom : s.txq.length < s.cfg.txqDepth := by simpa [State.txqFull] using room
    obtain ⟨_, hlastX, hlastY, e⟩ | ⟨x, y, _, _, _, hmore, e⟩ := State.emitPixel_cases hx hy
    · iterate 8 right
      left
      exact ⟨st, hroom, hlastX, hlastY, by rw [e]⟩
    · iterate 7 right
      left
      exact ⟨st, hroom, hmore, by rw [e]; exact st⟩
  | resync st =>
    iterate 9 right
    exact ⟨st, rfl⟩

/-- In every state of the invariant the sequencer has a move: ST is legal and the indices of the pass in progress are in
their ranges (R42). -/
theorem State.Inv.exists_move {s : State} (h : s.Inv) : ∃ t, CoreMove s t := by
  obtain st | st | st | st | st := h.legal
  · cases hready : s.exchangeReady
    · exact ⟨_, .heldWait st hready⟩
    · exact ⟨_, .exchange st hready⟩
  · exact ⟨_, .validate st⟩
  · obtain ⟨hx, hy, hup, _⟩ := h.unpacking st
    exact ⟨_, .unpack st (State.unpackIndexOk_of hx hy hup)⟩
  · obtain ⟨hx, hy, _⟩ := h.scanning st
    have hok := s.scanIndexOk_iff.mpr ⟨hx, hy⟩
    cases hfull : s.txqFull
    · exact ⟨_, .emit st hok hfull⟩
    · exact ⟨_, .heldScan st hok hfull⟩
  · exact ⟨_, .resync st⟩

/-- Settles O20: an environment agent's turn always answers, and the sequencer has a move by `State.Inv.exists_move`. -/
theorem nothingIsFatal : Obligations.NothingIsFatal := by
  intro s h
  match hturns : s.turns with
  | [] =>
    obtain ⟨t, hmove⟩ := h.exists_move
    exact ⟨t, (step_of_turns_nil hturns).trans (hmove.sequencerMove h.cfgValid)⟩
  | .sequencer :: ts =>
    obtain ⟨t, hmove⟩ := (h.setTurns ts).exists_move
    exact ⟨t, (step_of_sequencer hturns).trans (hmove.sequencerMove h.cfgValid)⟩
  | .transport _ :: _ => exact ⟨_, step_of_transport hturns⟩
  | .pulse :: _ => exact ⟨_, step_of_pulse hturns⟩

/-! ### RESYNC (R186) -/

/-- Settles O49: RESYNC is selected, and `State.resynced_eq` is its whole effect. -/
theorem resyncReportsAndReinitializes : Obligations.ResyncReportsAndReinitializes := by
  intro s hc hs
  rw [exec_resync hc hs, State.resynced_eq]
  rfl

/-! ### CYCLE with the sequencer alone (R183) -/

section
variable {s : State} {b : List Byte}

theorem cycleEvents_of_magic (c : Config) (prev : Byte) (hm : magicOk b = true) :
    cycleEvents c prev b = [.xchg b] ++ (seqEvents prev b ++ (bufferWords c b).map .put) := by
  rw [cycleEvents, if_pos hm, List.append_assoc]

theorem cycleEvents_of_not_magic (c : Config) (prev : Byte) (hm : magicOk b = false) :
    cycleEvents c prev b = [.xchg b] ++ [.diag .desync, .reinit] :=
  if_neg (by simp [hm])

theorem State.exchangeReady_of_take (hlen : b.length = s.cfg.frameLen) (hb : s.upstream.take s.cfg.frameLen = b) :
    s.exchangeReady = true := by
  rw [State.exchangeReady_iff, ← hlen, ← hb]
  exact List.length_take_le' ..

/-- The first step of a cycle, with N bytes to come (R182). -/
theorem step_of_ready (hc : s.cfg.Valid) (hs : s.st = sWait) (ht : s.turns = []) (hready : s.exchangeReady = true) :
    step s = .next s.exchange :=
  (step_of_turns_nil ht).trans ((CoreMove.exchange hs hready).sequencerMove hc)

end

/-- Settles O50: after the exchange CYCLE is the processing of the buffer, and `process_sync` says what that leaves. -/
theorem cycleRendersASynchronizedBuffer : Obligations.CycleRendersASynchronizedBuffer := by
  intro s b hc hs ht hlen hb hm hroom
  have hready := State.exchangeReady_of_take hlen hb
  have hrx : s.exchange.rxFrame = b := (State.exchange_rxFrame hready).trans hb
  have hseq : s.exchange.rxByte 6 = b.getD 6 0 := by rw [← State.byte6_rxFrame, hrx]
  obtain ⟨t, ⟨hcells, hrest, htrace, htxq, hframe⟩, hproc, _⟩ :=
    process_sync (s := s.exchange) hc rfl ht (hrx ▸ hm) hroom
  rw [hrx] at hcells htrace htxq hframe
  rw [State.exchange_trace, hb, List.append_assoc, List.append_assoc] at htrace
  have hexec : exec .cycle s = .next t := (exec_cycle_of_ready hc ht hs hready).trans hproc
  exact ⟨t, hexec, by rw [hframe], by rw [hframe], by rw [hframe]; exact hseq, by rw [hframe]; exact hrx, hcells, hrest,
    htrace.trans (by rw [cycleEvents_of_magic _ _ hm]; rfl), htxq, by rw [hframe]; rfl, by rw [hframe]; rfl,
    by rw [hframe]; exact s.exchange_shiftedOut_range, by rw [hframe]; rfl, by rw [hframe]; rfl, by rw [hframe]; rfl,
    by rw [hframe]; exact ht⟩

/-- Settles O51: as O50, with `process_desync`. -/
theorem cycleDiscardsADesynchronizedBuffer : Obligations.CycleDiscardsADesynchronizedBuffer := by
  intro s b hc hs ht hlen hb hm
  have hready := State.exchangeReady_of_take hlen hb
  have hrx : s.exchange.rxFrame = b := (State.exchange_rxFrame hready).trans hb
  obtain ⟨t, rfl, hproc, _⟩ := process_desync (s := s.exchange) hc rfl ht (hrx ▸ hm)
  refine ⟨_, (exec_cycle_of_ready hc ht hs hready).trans hproc, rfl, rfl, hrx, ?_, rfl, s.exchange_shiftedOut_range, ?_⟩
  · rw [cycleEvents_of_not_magic _ _ hm, State.exchange_trace, hb, List.append_assoc]
  · simp only [State.exchange, hs]

/-- Settles O53: the exchange is one step, and the processing of its buffer is the run of steps of `process_sync` or of
`process_desync`. -/
theorem cycleIsItsSteps : Obligations.CycleIsItsSteps := by
  intro s hc hs ht hn
  have hready := State.exchangeReady_iff.mpr hn
  have hstep := step_of_ready hc hs ht hready
  rw [exec_cycle_of_ready hc ht hs hready, ← State.exchange_rxFrame hready]
  constructor
  · intro hm hroom
    obtain ⟨t, _, hproc, hsteps, _⟩ := process_sync (s := s.exchange) hc rfl ht hm hroom
    rw [hproc, ← hsteps, show 2 + 2 * s.cfg.ledCount = 1 + 2 * s.cfg.ledCount + 1 by omega]
    exact runSteps_succ hstep _
  · intro hm
    obtain ⟨t, _, hproc, hsteps, _⟩ := process_desync (s := s.exchange) hc rfl ht hm
    rw [hproc, ← hsteps]
    exact runSteps_succ hstep 2

/-! ### CYCLE under any schedule (R171, R181) -/

section
variable {s u : State} {b : List Byte}

/-- In S_WAIT there is no buffer to process: where the exchange is held the pass of CYCLE stops (R241). -/
theorem processBuffer_of_wait (hs : s.st = sWait) : processBuffer s = .next s := by
  have hskip {code : StCode} {op : State → Result} (hne : sWait ≠ code) : runPhase code op s = .next s :=
    phase_of_ne (hs.trans_ne hne) _
  rw [processBuffer, hskip (by decide), andThen_next, finishCycle]
  split
  · rw [hskip sWait_ne_sUnpack, andThen_next, hskip sWait_ne_sScan]
  · exact hskip sWait_ne_sResync

/-- CYCLE up to its exchange: with whatever turns come before it, the exchange happens, or the core is held. -/
theorem exec_cycle_schedule (hc : s.cfg.Valid) (hs : s.st = sWait) :
    ∃ u, EnvMoves s u ∧
      (u.cfg.frameLen ≤ u.upstream.length ∧ exec .cycle s = processBuffer u.exchange ∨
        u.upstream.length < u.cfg.frameLen ∧ u.turns = [] ∧ exec .cycle s = .next u) := by
  have hled : 1 ≤ s.cfg.ledCount := Nat.mul_pos hc.1 hc.2.1
  have hexec : exec .cycle s = andThen (runPhase sWait stepXchg s) processBuffer := by
    rw [exec, execCycle, whenSelected_of hc (by simp [hs])]
  obtain ⟨u, hu, ⟨hn, hphase⟩ | ⟨hn, hturns, hphase⟩⟩ :=
    xchg_schedule (s.cfg.ledCount + s.turns.length) hs (by omega)
  · exact ⟨u, hu, .inl ⟨hn, by rw [hexec, runPhase, hphase, andThen_next]⟩⟩
  · have hst : u.st = sWait := by rw [hu.frame]; exact hs
    exact ⟨u, hu, .inr ⟨hn, hturns, by rw [hexec, runPhase, hphase, andThen_next, processBuffer_of_wait hst]⟩⟩

/-- What is true of a state e that the exchange of buffer b reaches from s under a schedule (R111, R113, R181). -/
structure Exchanged (s e : State) (b : List Byte) : Prop where
  st : e.st = sValidate
  rxFrame : e.rxFrame = b
  bytes : e.upstream ++ scheduledBytes e.turns = (s.upstream ++ scheduledBytes s.turns).drop s.cfg.frameLen
  shiftedOut : e.shiftedOut = s.shiftedOut ++ (List.range s.cfg.frameLen).map (Memory.read s.txbuf)
  trace : e.trace = s.trace ++ [.xchg b]
  fifo : e.wire ++ e.txq = s.wire ++ s.txq
  frame : e = { s with
    st := e.st, rxbuf := e.rxbuf, upstream := e.upstream, turns := e.turns, shiftedOut := e.shiftedOut
    trace := e.trace, txq := e.txq, wire := e.wire }

/-- The bytes that have come by the time of an exchange, and those that come after it (R112). -/
theorem EnvMoves.exchanged (hu : EnvMoves s u) (hn : u.cfg.frameLen ≤ u.upstream.length) :
    Exchanged s u.exchange ((s.upstream ++ scheduledBytes s.turns).take s.cfg.frameLen) := by
  have hcfg : u.cfg = s.cfg := by rw [hu.frame]
  have htake : (s.upstream ++ scheduledBytes s.turns).take s.cfg.frameLen = u.upstream.take u.cfg.frameLen := by
    rw [← hu.bytes, ← hcfg, List.take_append_of_le_length hn]
  rw [htake]
  exact {
    st := rfl
    rxFrame := State.exchange_rxFrame (State.exchangeReady_iff.mpr hn)
    bytes := by rw [← hu.bytes, ← hcfg, List.drop_append_of_le_length hn]; rfl
    shiftedOut := by rw [State.exchange_shiftedOut_range]; rw [hu.frame]
    trace := by rw [State.exchange_trace]; rw [hu.frame]
    fifo := hu.fifo
    frame := by rw [State.exchange]; rw [hu.frame] }

/-- What is true of a state t in which CYCLE on buffer b has left s with the events es under a schedule (R171, R183): the
cycle has ended, or the core is held with the queue full and no turn left. -/
structure CycleSchedule (s t : State) (b : List Byte) (es : List Event) : Prop where
  rxFrame : t.rxFrame = b
  prev : t.prev = cyclePrev s.prev b
  sync : t.sync = magicOk b
  cells : magicOk b = true →
    ∀ x y, x < s.cfg.width → y < s.cfg.height → t.cell x y = recordCell b (y * s.cfg.width + x)
  kept : magicOk b = false → t.lattice = s.lattice
  rest : ∀ a, s.cfg.ledCount ≤ a → Memory.read t.lattice a = Memory.read s.lattice a
  bytes : t.upstream ++ scheduledBytes t.turns = (s.upstream ++ scheduledBytes s.turns).drop s.cfg.frameLen
  shiftedOut : t.shiftedOut = s.shiftedOut ++ (List.range s.cfg.frameLen).map (Memory.read s.txbuf)
  cfg : t.cfg = s.cfg
  tx : t.txbuf = s.txbuf
  trace : t.trace = s.trace ++ es
  fifo : t.wire ++ t.txq = s.wire ++ s.txq ++ putsOf es
  diag : t.diag = s.diag ++ (diagsOf es).map Diag.record
  ending : (t.st = sWait ∧ es = cycleEvents s.cfg s.prev b) ∨
    (t.st = sScan ∧ t.turns = [] ∧ s.cfg.txqDepth ≤ t.txq.length ∧ magicOk b = true ∧
      es <+: cycleEvents s.cfg s.prev b)

/-- The events of a SYNCHRONIZED cycle that has put k words (R183). -/
def syncEvents (c : Config) (prev : Byte) (b : List Byte) (k : Nat) : List Event :=
  [.xchg b] ++ (seqEvents prev b ++ ((bufferWords c b).take k).map .put)

theorem putsOf_syncEvents (c : Config) (prev : Byte) (k : Nat) :
    putsOf (syncEvents c prev b k) = (bufferWords c b).take k := by
  rw [syncEvents, putsOf_append, putsOf_append, putsOf_seqEvents, putsOf_map_put]
  rfl

theorem diagsOf_syncEvents (c : Config) (prev : Byte) (k : Nat) :
    diagsOf (syncEvents c prev b k) = diagsOf (seqEvents prev b) := by
  rw [syncEvents, diagsOf_append, diagsOf_append, diagsOf_map_put, List.append_nil]
  rfl

theorem syncEvents_ledCount (c : Config) (prev : Byte) (hm : magicOk b = true) :
    syncEvents c prev b c.ledCount = cycleEvents c prev b := by
  have hall : (bufferWords c b).take c.ledCount = bufferWords c b :=
    List.take_of_length_le (length_renderWords _).le
  rw [cycleEvents_of_magic c prev hm, syncEvents, hall]

theorem syncEvents_prefix (c : Config) (prev : Byte) (hm : magicOk b = true) (k : Nat) :
    syncEvents c prev b k <+: cycleEvents c prev b := by
  rw [cycleEvents_of_magic c prev hm, syncEvents, List.prefix_append_right_inj, List.prefix_append_right_inj]
  exact (List.take_prefix k _).map _

/-- The processing of a SYNCHRONIZED buffer after its exchange, as a cycle (R183). -/
theorem Exchanged.sync {e : State} (he : Exchanged s e b) (hc : s.cfg.Valid) (hm : magicOk b = true) :
    ∃ t k, processBuffer e = .next t ∧ CycleSchedule s t b (syncEvents s.cfg s.prev b k) := by
  have ecfg : e.cfg = s.cfg := by rw [he.frame]
  have eprev : e.prev = s.prev := by rw [he.frame]
  have elat : e.lattice = s.lattice := by rw [he.frame]
  have ediag : e.diag = s.diag := by rw [he.frame]
  have hseq : e.rxByte 6 = b.getD 6 0 := by rw [← State.byte6_rxFrame, he.rxFrame]
  obtain ⟨t, k, ⟨hcells, hrest, htrace, hfifo, hbytes, hending, hframe⟩, hproc⟩ :=
    process_sync_schedule (ecfg ▸ hc) he.st (he.rxFrame.symm ▸ hm)
  rw [he.rxFrame, ecfg] at hcells hfifo
  rw [he.rxFrame, ecfg, eprev] at htrace
  rw [ecfg] at hrest hending
  rw [he.rxFrame, eprev, ediag, hseq] at hframe
  refine ⟨t, k, hproc, {
    rxFrame := by rw [hframe]; exact he.rxFrame
    prev := by rw [hframe, cyclePrev, if_pos hm]
    sync := by rw [hframe, hm]
    cells := fun _ => hcells
    kept := fun hne => absurd (hne.symm.trans hm) Bool.false_ne_true
    rest := fun a ha => by rw [hrest a ha, elat]
    bytes := hbytes.trans he.bytes
    shiftedOut := by rw [hframe]; exact he.shiftedOut
    cfg := by rw [hframe]; exact ecfg
    tx := by rw [hframe]; rw [he.frame]
    trace := by rw [htrace, he.trace, List.append_assoc]; rfl
    fifo := by rw [hfifo, he.fifo, putsOf_syncEvents]
    diag := by rw [hframe, diagsOf_syncEvents]
    ending := ?_ }⟩
  obtain ⟨hst, rfl⟩ | ⟨hst, hturns, hfull, _⟩ := hending
  · exact .inl ⟨hst, syncEvents_ledCount _ _ hm⟩
  · exact .inr ⟨hst, hturns, hfull, hm, syncEvents_prefix _ _ hm k⟩

/-- The processing of a DESYNCHRONIZED buffer after its exchange, as a cycle (R183, R186). -/
theorem Exchanged.desync {e : State} (he : Exchanged s e b) (hc : s.cfg.Valid) (hm : magicOk b = false) :
    ∃ t, processBuffer e = .next t ∧ CycleSchedule s t b (cycleEvents s.cfg s.prev b) := by
  have ecfg : e.cfg = s.cfg := by rw [he.frame]
  obtain ⟨t, hproc, hfifo, hbytes, hframe⟩ := process_desync_schedule (ecfg ▸ hc) he.st (he.rxFrame.symm ▸ hm)
  have htrace : t.trace = e.trace ++ [.diag .desync, .reinit] := by rw [hframe]
  have hlat : t.lattice = s.lattice := by rw [hframe]; rw [he.frame]
  have hevents := cycleEvents_of_not_magic s.cfg s.prev hm
  exact ⟨t, hproc, {
    rxFrame := by rw [hframe]; exact he.rxFrame
    prev := by rw [hframe, cyclePrev, if_neg (by simp [hm])]; rw [he.frame]
    sync := by rw [hframe, hm]
    cells := fun hyes => absurd (hm.symm.trans hyes) Bool.false_ne_true
    kept := fun _ => hlat
    rest := fun _ _ => by rw [hlat]
    bytes := hbytes.trans he.bytes
    shiftedOut := by rw [hframe]; exact he.shiftedOut
    cfg := by rw [hframe]; exact ecfg
    tx := by rw [hframe]; rw [he.frame]
    trace := by rw [htrace, he.trace, List.append_assoc, hevents]
    fifo := by rw [hfifo, he.fifo, hevents]; exact (List.append_nil _).symm
    diag := by rw [hframe, hevents]; rw [he.frame]; rfl
    ending := .inl ⟨by rw [hframe], rfl⟩ }⟩

/-- After the exchange of buffer b under a schedule the cycle goes on to its end, or to a full queue (R183). -/
theorem Exchanged.cycle {e : State} (he : Exchanged s e b) (hc : s.cfg.Valid) :
    ∃ t es, processBuffer e = .next t ∧ CycleSchedule s t b es := by
  cases hm : magicOk b
  · obtain ⟨t, hproc, ht⟩ := he.desync hc hm
    exact ⟨t, _, hproc, ht⟩
  · obtain ⟨t, k, hproc, ht⟩ := he.sync hc hm
    exact ⟨t, _, hproc, ht⟩

end

/-- Settles O52: `exec_cycle_schedule` up to the exchange, and `Exchanged.cycle` from there. -/
theorem cycleUnderAnySchedule : Obligations.CycleUnderAnySchedule := by
  intro s b hc hs hb
  obtain ⟨u, hu, ⟨hn, hexec⟩ | ⟨hshort, hturns, hexec⟩⟩ := exec_cycle_schedule hc hs
  · have he := hu.exchanged hn
    rw [← hb] at he
    obtain ⟨t, es, hproc, ht⟩ := he.cycle hc
    have hlen : b.length = s.cfg.frameLen := by rw [← ht.rxFrame, State.length_rxFrame, ht.cfg]
    exact ⟨t, hexec.trans hproc, .inr ⟨hlen, ht.rxFrame, ht.prev, ht.sync, ht.cells, ht.kept, ht.rest, ht.bytes,
      ht.shiftedOut, ht.cfg, ht.tx, es, ht.trace, ht.fifo, ht.diag, ht.ending⟩⟩
  · have hcfg : u.cfg = s.cfg := by rw [hu.frame]
    have hup : u.upstream = s.upstream ++ scheduledBytes s.turns := by
      rw [← hu.bytes, hturns]
      exact (List.append_nil _).symm
    rw [hcfg] at hshort
    rw [← hup, List.take_of_length_le hshort.le] at hb
    exact ⟨u, hexec, .inl ⟨hb ▸ hshort, hturns, hb.symm, hu.fifo, hu.frame⟩⟩

end Sys2Proof.Machine

/-! Exceptions (spec 60_exceptions.md): DIAG.SEQ and DIAG.DESYNC where their rows select them, each one record and its
event (R205, R206). -/

namespace Sys2Proof.Machine

/-- DIAG.SEQ's row asks for the discontinuity as RXBUF shows it now; the operation asks beside it for SYNC and for a
difference in the registers that SEQCHK loaded (R96, R206). -/
theorem exec_diagSeq {s : State} (hc : s.cfg.Valid) (hs : s.st = sValidate) (hm : magicOk s.rxFrame = true)
    (hseq : s.rxByte 6 ≠ s.prev + 1) (hsync : s.sync = true) (hne : s.cur ≠ s.exp) :
    exec .diagSeq s = .next s.reportSequence := by
  rw [State.magicOk_rxFrame] at hm
  have hseqerr : s.seqerrNow = true := bne_iff_ne.mpr hseq
  rw [exec, execDiagSeq, whenSelected_of hc (by simp [hs, hm, hseqerr, hsync, hne])]

/-- Settles O26: DIAG.SEQ is selected, and its whole effect `State.reportSequence` is the record and its event. -/
theorem diagSeqEmitsOneRecord : Obligations.DiagSeqEmitsOneRecord := fun _ hc hs hm hseq hsync hne =>
  exec_diagSeq hc hs hm hseq hsync hne

/-- Settles O48: DIAG.DESYNC is selected, and `State.reportDesync` emits three zero bytes and their event. -/
theorem diagDesyncEmitsOneRecord : Obligations.DiagDesyncEmitsOneRecord := fun _ hc hs => exec_diagDesync hc hs

end Sys2Proof.Machine
